-- ==== Sys2Proof/Word.lean ====
section
/-! DEFINITION. The word and byte types of the machine (spec rules R2 and R8). -/

namespace Sys2Proof

/-- R2: the word size is 16 bits; bit 0 is the least significant bit (R8). -/
abbrev Word := BitVec 16

/-- The unit of addressing (R41). -/
abbrev Byte := BitVec 8

end Sys2Proof
end

