-- ==== Sys2Proof/Syntax.lean ====
section
/-! DEFINITION. The instructions: one constructor per row of spec/opcode_table.json (rule R100), their operand forms
(R96), the four mode classes (R98), and the names that the opcode map and the mode map give bytes to. -/

namespace Sys2Proof

/-- The seven memory addressing tags of R96; the short variant is a flag beside the tag (R97). -/
inductive MemMode where
  | absolute
  | xIndexed
  | yIndexed
  | indirectIndexedX
  | indirectIndexedY
  | indexedIndirectX
  | indexedIndirectY
  deriving DecidableEq, Repr

/-- R96: the ten addressing tags of the mode map. -/
inductive ModeTag where
  | immediate
  | registerA
  | registerB
  | memory (m : MemMode)
  deriving DecidableEq, Repr

/-- R96: every tag. -/
def ModeTag.all : List ModeTag :=
  [.immediate, .registerA, .registerB, .memory .absolute, .memory .xIndexed, .memory .yIndexed,
   .memory .indirectIndexedX, .memory .indirectIndexedY, .memory .indexedIndirectX, .memory .indexedIndirectY]

/-- The operand of a `MOD`-format instruction: the addressing mode together with the operand word it consumes (R90,
R96). The two register modes consume no operand word. -/
inductive Operand where
  | immediate (v : Word)
  | registerA
  | registerB
  | memory (m : MemMode) (short : Bool) (addr : Word)
  deriving DecidableEq, Repr

/-- The mode classes of R98: `value` is class L, `destination` class S, `readModifyWrite` class M, `target` class T. -/
inductive ModeClass where
  | value
  | destination
  | readModifyWrite
  | target
  deriving DecidableEq, Repr

/-- R100: the names the opcode map gives bytes to. -/
inductive Opcode where
  | noop
  | loada
  | storea
  | loadb
  | storeb
  | loadx
  | storex
  | loady
  | storey
  | addca
  | subca
  | multa
  | multua
  | diva
  | divua
  | anda
  | ora
  | xora
  | lsl
  | lsr
  | rol
  | ror
  | inca
  | deca
  | incb
  | decb
  | incx
  | decx
  | incy
  | decy
  | cmpa
  | cmpb
  | cmpx
  | cmpy
  | clc
  | sec
  | jmp
  | brz
  | brnz
  | brc
  | brnc
  | jsr
  | rts
  | pha
  | pla
  | phb
  | plb
  | fadda
  | fsuba
  | fmulta
  | fdiva
  | syscall
  | halt
  deriving DecidableEq, Repr

/-- R100: every opcode, family by family. -/
def Opcode.all : List Opcode :=
  [.noop,
   .loada, .storea, .loadb, .storeb, .loadx, .storex, .loady, .storey,
   .addca, .subca, .multa, .multua, .diva, .divua,
   .anda, .ora, .xora,
   .lsl, .lsr, .rol, .ror,
   .inca, .deca, .incb, .decb, .incx, .decx, .incy, .decy,
   .cmpa, .cmpb, .cmpx, .cmpy,
   .clc, .sec,
   .jmp, .brz, .brnz, .brc, .brnc, .jsr, .rts,
   .pha, .pla, .phb, .plb,
   .fadda, .fsuba, .fmulta, .fdiva,
   .syscall, .halt]

/-- R100: the fifty-three instructions. -/
inductive Instr where
  -- NOOP
  | noop
  -- Loads and stores (R140 to R148)
  | loada (op : Operand)
  | storea (op : Operand)
  | loadb (op : Operand)
  | storeb (op : Operand)
  | loadx (op : Operand)
  | storex (op : Operand)
  | loady (op : Operand)
  | storey (op : Operand)
  -- Integer ALU (R162 to R167)
  | addca (op : Operand)
  | subca (op : Operand)
  | multa (op : Operand)
  | multua (op : Operand)
  | diva (op : Operand)
  | divua (op : Operand)
  -- Logical operations (R181 to R183)
  | anda (op : Operand)
  | ora (op : Operand)
  | xora (op : Operand)
  -- Shifts and rotates (R186 to R189)
  | lsl (op : Operand)
  | lsr (op : Operand)
  | rol (op : Operand)
  | ror (op : Operand)
  -- Increment and decrement (R192 to R199)
  | inca
  | deca
  | incb
  | decb
  | incx
  | decx
  | incy
  | decy
  -- Comparisons (R202 to R205)
  | cmpa (op : Operand)
  | cmpb (op : Operand)
  | cmpx (op : Operand)
  | cmpy (op : Operand)
  -- Carry control (R208, R209)
  | clc
  | sec
  -- Jumps, branches, call and return (R285 to R292)
  | jmp (op : Operand)
  | brz (op : Operand)
  | brnz (op : Operand)
  | brc (op : Operand)
  | brnc (op : Operand)
  | jsr (op : Operand)
  | rts
  -- Data stack (R271 to R274)
  | pha
  | pla
  | phb
  | plb
  -- Floating-point unit (R224 to R227)
  | fadda (op : Operand)
  | fsuba (op : Operand)
  | fmulta (op : Operand)
  | fdiva (op : Operand)
  -- System call (R236)
  | syscall (op : Operand)
  -- HALT (R283)
  | halt
  deriving DecidableEq, Repr

end Sys2Proof
end

