-- ==== Sys2Proof/Config.lean ====
section
/-! DEFINITION. The configuration record `Cfg` of rule R6, the well-formedness of a configuration (R7), and the values
the spec leaves free: the floating-point results and the host's console input. The default values are
`Sys2Proof/Machine/Defaults.lean`. -/

namespace Sys2Proof

/-- R220: the operation port of the floating-point unit. -/
inductive FpOp where
  | fadd
  | fsub
  | fmult
  | fdiv
  deriving DecidableEq, Repr

/-- The four arithmetic flags N, V, Z, C as one value: what an ALU or FPU operation hands to STATUS. -/
structure Nvzc where
  n : Bool
  v : Bool
  z : Bool
  c : Bool
  deriving DecidableEq, Repr, Inhabited

/-- R300: the seven signals. -/
inductive Machine.Signal where
  | segmentation
  | kill
  | illegalInstruction
  | arithmeticFault
  | stackFault
  | systemFault
  | reset
  deriving DecidableEq, Repr

/-- R300: every signal. -/
def Machine.Signal.all : List Machine.Signal :=
  [.segmentation, .kill, .illegalInstruction, .arithmeticFault, .stackFault, .systemFault, .reset]

/-- R6: the implementation parameters, one field each: the numbers, the opcode map, the mode map, the signal numbers and
the half-precision function `FP16`. -/
structure Cfg where
  wordSize : Nat
  memSize : Nat
  nullLo : Nat
  nullHi : Nat
  vecBase : Nat
  vecSlots : Nat
  inbufBase : Nat
  inbufSize : Nat
  heapFloor : Nat
  heapCeil : Nat
  stackFloor : Nat
  stackTop : Nat
  callFloor : Nat
  callTop : Nat
  prgBottom : Nat
  prgTop : Nat
  shortBase : Nat
  lineTerminator : Byte
  opcodeByte : Opcode → Byte
  modeTag : ModeTag → Byte
  signalNumber : Machine.Signal → Nat
  fp16 : FpOp → Word → Word → Word × Nvzc

/-- R7: the seven named regions, each as (first address, last address). -/
def Cfg.regions (c : Cfg) : List (Nat × Nat) :=
  [(c.nullLo, c.nullHi), (c.vecBase, c.vecBase + 2 * c.vecSlots - 1),
   (c.inbufBase, c.inbufBase + c.inbufSize - 1), (c.heapFloor, c.heapCeil - 1),
   (c.stackFloor, c.stackTop), (c.callFloor, c.callTop), (c.prgBottom, c.prgTop)]

/-- Two regions share no address. -/
def regionsDisjoint (r q : Nat × Nat) : Bool := decide (r.2 < q.1) || decide (q.2 < r.1)

/-- Every region is disjoint from every later one. -/
def pairwiseDisjoint : List (Nat × Nat) → Bool
  | [] => true
  | r :: rest => rest.all (regionsDisjoint r) && pairwiseDisjoint rest

/-- R7, the clauses about the codes: the opcode map is injective, and the mode map is injective with every tag value
below the short base of the same configuration. -/
def Cfg.codesWellFormed (c : Cfg) : Bool :=
  decide ((Opcode.all.map c.opcodeByte).Nodup) && decide ((ModeTag.all.map c.modeTag).Nodup)
    && ModeTag.all.all (fun t => decide ((c.modeTag t).toNat < c.shortBase))

/-- R7: every clause. -/
def Cfg.wellFormed (c : Cfg) : Bool :=
  decide (c.memSize = 2 ^ 16) && decide (c.nullLo = 0) && decide (c.nullHi = 1)
    && pairwiseDisjoint c.regions && c.regions.all (fun r => decide (r.2 < c.memSize))
    && decide (2 ≤ c.heapFloor) && decide (c.stackFloor + 1 ≤ c.stackTop)
    && decide (c.callFloor + 1 ≤ c.callTop) && decide (c.prgBottom ≤ c.prgTop)
    && decide (c.vecSlots = 8) && decide (c.wordSize = 16) && c.codesWellFormed

/-- D32: the signal numbering is an injective map into 0..7, the slots of the vector table. -/
def Cfg.signalsWellFormed (c : Cfg) : Bool :=
  decide ((Machine.Signal.all.map c.signalNumber).Nodup)
    && Machine.Signal.all.all (fun sg => decide (c.signalNumber sg < c.vecSlots))

/-- What the host does when syscall 0x13 asks for a line (R238): it supplies a finite byte string without its line
end, or it never answers. -/
inductive HostAnswer where
  | line (bytes : List Byte)
  | never
  deriving DecidableEq, Repr, Inhabited

/-- R221: `FP16`, the half-precision result and flags, a total function the machine assumes nothing about
(free value, assumption log 8). -/
opaque Config.fp16 : FpOp → Word → Word → Word × Nvzc

/-- R222: the single-precision result and flags, of the same standing as `Config.fp16`; no instruction reaches it
(assumption log 9). -/
opaque Config.fp32 : FpOp → BitVec 32 → BitVec 32 → BitVec 32 × Nvzc

/-- R238: the host's answer to the n-th console read beyond the answers already listed in the state
(free value, assumption log 4). -/
opaque Config.hostAnswer : Nat → HostAnswer

end Sys2Proof
end

