-- ==== Sys2Proof/Machine/Defaults.lean ====
section
/-! DEFINITION. The default values of the configuration (R6): the opcode map of R100, the mode map of R96, the signal
numbers of R300 and the numbers of R6's table. -/

namespace Sys2Proof

/-- R100: the opcode map, by opcode byte. -/
def defaultOpcodeByte : Opcode → Byte
  | .noop => 0x00
  | .loada => 0x01
  | .storea => 0x02
  | .loadb => 0x03
  | .storeb => 0x04
  | .loadx => 0x05
  | .storex => 0x06
  | .loady => 0x07
  | .storey => 0x08
  | .addca => 0x10
  | .subca => 0x11
  | .multa => 0x12
  | .multua => 0x13
  | .diva => 0x14
  | .divua => 0x15
  | .anda => 0x18
  | .ora => 0x19
  | .xora => 0x1A
  | .lsl => 0x20
  | .lsr => 0x21
  | .rol => 0x22
  | .ror => 0x23
  | .inca => 0x28
  | .deca => 0x29
  | .incb => 0x2A
  | .decb => 0x2B
  | .incx => 0x2C
  | .decx => 0x2D
  | .incy => 0x2E
  | .decy => 0x2F
  | .cmpa => 0x30
  | .cmpb => 0x31
  | .cmpx => 0x32
  | .cmpy => 0x33
  | .clc => 0x38
  | .sec => 0x39
  | .jmp => 0x40
  | .brz => 0x41
  | .brnz => 0x42
  | .brc => 0x43
  | .brnc => 0x44
  | .jsr => 0x48
  | .rts => 0x49
  | .pha => 0x50
  | .pla => 0x51
  | .phb => 0x52
  | .plb => 0x53
  | .fadda => 0x60
  | .fsuba => 0x61
  | .fmulta => 0x62
  | .fdiva => 0x63
  | .syscall => 0x70
  | .halt => 0xFF

/-- R96: the mode map, by mode byte. -/
def defaultModeTag : ModeTag → Byte
  | .memory .absolute => 0x00
  | .memory .xIndexed => 0x01
  | .memory .yIndexed => 0x02
  | .immediate => 0x03
  | .memory .indirectIndexedX => 0x04
  | .memory .indirectIndexedY => 0x05
  | .memory .indexedIndirectX => 0x06
  | .memory .indexedIndirectY => 0x07
  | .registerA => 0x08
  | .registerB => 0x09

/-- R300: the number of each signal, which is its vector slot. -/
def defaultSignalNumber : Machine.Signal → Nat
  | .segmentation => 0
  | .kill => 1
  | .illegalInstruction => 2
  | .arithmeticFault => 3
  | .stackFault => 4
  | .systemFault => 5
  | .reset => 6

/-- R6, column "default": the one configuration this model runs (assumption log 1). -/
def cfg : Cfg where
  wordSize := 16
  memSize := 0x10000
  nullLo := 0x0000
  nullHi := 0x0001
  vecBase := 0x0002
  vecSlots := 8
  inbufBase := 0x0100
  inbufSize := 0x0100
  heapFloor := 0x1000
  heapCeil := 0x2000
  stackFloor := 0x2000
  stackTop := 0x23FF
  callFloor := 0x2400
  callTop := 0x25FF
  prgBottom := 0x2600
  prgTop := 0xEFFF
  shortBase := 0x10
  lineTerminator := 0x00
  opcodeByte := defaultOpcodeByte
  modeTag := defaultModeTag
  signalNumber := defaultSignalNumber
  fp16 := Config.fp16

end Sys2Proof
end

