-- ==== Sys2Proof/WellFormed.lean ====
section
/-! DEFINITION. Which operand forms each instruction accepts (rules R98 and R102): an instruction is well formed when
its operand is in its mode class. -/

namespace Sys2Proof

/-- R98: the operand forms of each mode class. Class L is every form but register-A; class S is class L without the
immediate form; class M has no immediate and no short form; class T is full-word absolute only. -/
def Operand.inClass (c : ModeClass) (op : Operand) : Bool :=
  match c with
  | .value =>
    match op with
    | .immediate _ => true
    | .registerA => false
    | .registerB => true
    | .memory _ _ _ => true
  | .destination =>
    match op with
    | .immediate _ => false
    | .registerA => false
    | .registerB => true
    | .memory _ _ _ => true
  | .readModifyWrite =>
    match op with
    | .immediate _ => false
    | .registerA => true
    | .registerB => true
    | .memory _ short _ => !short
  | .target =>
    match op with
    | .immediate _ => false
    | .registerA => false
    | .registerB => false
    | .memory m short _ => decide (m = .absolute) && !short

/-- R100, columns "format" and "class": the mode class and operand of a `MOD`-format instruction; none for the `IMP`
format. -/
def Instr.form : Instr → Option (ModeClass × Operand)
  | .noop => none
  | .loada op => some (.value, op)
  | .storea op => some (.destination, op)
  | .loadb op => some (.value, op)
  | .storeb op => some (.destination, op)
  | .loadx op => some (.value, op)
  | .storex op => some (.destination, op)
  | .loady op => some (.value, op)
  | .storey op => some (.destination, op)
  | .addca op => some (.value, op)
  | .subca op => some (.value, op)
  | .multa op => some (.value, op)
  | .multua op => some (.value, op)
  | .diva op => some (.value, op)
  | .divua op => some (.value, op)
  | .anda op => some (.value, op)
  | .ora op => some (.value, op)
  | .xora op => some (.value, op)
  | .lsl op => some (.readModifyWrite, op)
  | .lsr op => some (.readModifyWrite, op)
  | .rol op => some (.readModifyWrite, op)
  | .ror op => some (.readModifyWrite, op)
  | .inca => none
  | .deca => none
  | .incb => none
  | .decb => none
  | .incx => none
  | .decx => none
  | .incy => none
  | .decy => none
  | .cmpa op => some (.value, op)
  | .cmpb op => some (.value, op)
  | .cmpx op => some (.value, op)
  | .cmpy op => some (.value, op)
  | .clc => none
  | .sec => none
  | .jmp op => some (.target, op)
  | .brz op => some (.target, op)
  | .brnz op => some (.target, op)
  | .brc op => some (.target, op)
  | .brnc op => some (.target, op)
  | .jsr op => some (.target, op)
  | .rts => none
  | .pha => none
  | .pla => none
  | .phb => none
  | .plb => none
  | .fadda op => some (.value, op)
  | .fsuba op => some (.value, op)
  | .fmulta op => some (.value, op)
  | .fdiva op => some (.value, op)
  | .syscall op => some (.value, op)
  | .halt => none

/-- The operand of the instruction is one its class accepts (R98). An ill-formed instruction is an "invalid
addressing-mode/opcode combination" (R102). -/
def Instr.wellFormed (i : Instr) : Bool :=
  match i.form with
  | none => true
  | some (c, op) => op.inClass c

end Sys2Proof
end

