-- ==== Sys2Proof/Decode.lean ====
section
/-! DEFINITION. The decoder, total on any byte list and rejecting by name, and the encoder, both written from the
encoding tables of spec/30_encoding.md (rules R90 to R103). -/

namespace Sys2Proof

/-- What an opcode byte announces (R90, R100): a whole one-byte instruction, or an instruction that takes an operand
of a mode class. -/
inductive OpcodeForm where
  | implied (i : Instr)
  | withOperand (c : ModeClass) (mk : Operand → Instr)

/-- R100, columns "format" and "class": what each opcode announces. -/
def Opcode.form : Opcode → OpcodeForm
  | .noop => .implied .noop
  | .loada => .withOperand .value .loada
  | .storea => .withOperand .destination .storea
  | .loadb => .withOperand .value .loadb
  | .storeb => .withOperand .destination .storeb
  | .loadx => .withOperand .value .loadx
  | .storex => .withOperand .destination .storex
  | .loady => .withOperand .value .loady
  | .storey => .withOperand .destination .storey
  | .addca => .withOperand .value .addca
  | .subca => .withOperand .value .subca
  | .multa => .withOperand .value .multa
  | .multua => .withOperand .value .multua
  | .diva => .withOperand .value .diva
  | .divua => .withOperand .value .divua
  | .anda => .withOperand .value .anda
  | .ora => .withOperand .value .ora
  | .xora => .withOperand .value .xora
  | .lsl => .withOperand .readModifyWrite .lsl
  | .lsr => .withOperand .readModifyWrite .lsr
  | .rol => .withOperand .readModifyWrite .rol
  | .ror => .withOperand .readModifyWrite .ror
  | .inca => .implied .inca
  | .deca => .implied .deca
  | .incb => .implied .incb
  | .decb => .implied .decb
  | .incx => .implied .incx
  | .decx => .implied .decx
  | .incy => .implied .incy
  | .decy => .implied .decy
  | .cmpa => .withOperand .value .cmpa
  | .cmpb => .withOperand .value .cmpb
  | .cmpx => .withOperand .value .cmpx
  | .cmpy => .withOperand .value .cmpy
  | .clc => .implied .clc
  | .sec => .implied .sec
  | .jmp => .withOperand .target .jmp
  | .brz => .withOperand .target .brz
  | .brnz => .withOperand .target .brnz
  | .brc => .withOperand .target .brc
  | .brnc => .withOperand .target .brnc
  | .jsr => .withOperand .target .jsr
  | .rts => .implied .rts
  | .pha => .implied .pha
  | .pla => .implied .pla
  | .phb => .implied .phb
  | .plb => .implied .plb
  | .fadda => .withOperand .value .fadda
  | .fsuba => .withOperand .value .fsuba
  | .fmulta => .withOperand .value .fmulta
  | .fdiva => .withOperand .value .fdiva
  | .syscall => .withOperand .value .syscall
  | .halt => .implied .halt

/-- The opcode that the opcode map gives a byte to; none for an unassigned byte (R101). -/
def opcodeOf (b : Byte) : Option Opcode := Opcode.all.find? (fun o => cfg.opcodeByte o == b)

/-- What an opcode byte announces; none for the 203 unassigned bytes (R101). -/
def opcodeForm (b : Byte) : Option OpcodeForm := (opcodeOf b).map Opcode.form

/-- The tag that the mode map gives a value to. -/
def tagOf (m : Nat) : Option ModeTag := ModeTag.all.find? (fun t => (cfg.modeTag t).toNat == m)

/-- R96, R97: the operand form of a tag. Only the memory tags have a short variant. -/
def ModeTag.operand (t : ModeTag) (short : Bool) (w : Word) : Option Operand :=
  match t with
  | .immediate => if short then none else some (.immediate w)
  | .registerA => if short then none else some .registerA
  | .registerB => if short then none else some .registerB
  | .memory m => some (.memory m short w)

/-- R97: a mode byte at or above the short base selects single-byte access and has the base subtracted before its tag is
looked up. -/
def decodeMode (mb : Byte) (w : Word) : Option Operand :=
  let short := decide (cfg.shortBase ≤ mb.toNat)
  (tagOf (if short then mb.toNat - cfg.shortBase else mb.toNat)).bind (fun t => t.operand short w)

/-- What the decoder answers. `unknownOpcode` is R101, `illegalMode` a mode byte that is not legal (R97, R102),
`illegalCombination` a legal mode byte outside the instruction's class (R98, R102), each with the instruction's length
in bytes; `truncated k` says the bytes ended before byte `k` of the instruction, which the decoder needed. -/
inductive Decoded where
  | instr (i : Instr) (length : Nat)
  | unknownOpcode
  | illegalMode (length : Nat)
  | illegalCombination (length : Nat)
  | truncated (missing : Nat)
  deriving DecidableEq, Repr

/-- R122: the classification of a mode byte once the operand bytes are consumed. -/
def classify (c : ModeClass) (mk : Operand → Instr) (mb : Byte) (w : Word) (length : Nat) : Decoded :=
  match decodeMode mb w with
  | none => .illegalMode length
  | some op => if op.inClass c then .instr (mk op) length else .illegalCombination length

/-- R91, R92: exactly the register tags (0x08 and 0x09) carry no operand word; every other mode byte, legal or not, is
followed by the operand's high and low byte. -/
def decodeOperand (c : ModeClass) (mk : Operand → Instr) : List Byte → Decoded
  | [] => .truncated 1
  | mb :: rest =>
    if mb == cfg.modeTag .registerA || mb == cfg.modeTag .registerB then classify c mk mb 0 2
    else
      match rest with
      | [] => .truncated 2
      | [_] => .truncated 3
      | hi :: lo :: _ => classify c mk mb (hi ++ lo) 4

/-- R91: decode the instruction at the head of a byte list. -/
def decode : List Byte → Decoded
  | [] => .truncated 0
  | b :: rest =>
    match opcodeForm b with
    | none => .unknownOpcode
    | some (.implied i) => .instr i 1
    | some (.withOperand c mk) => decodeOperand c mk rest

/-- R100: the opcode of an instruction. -/
def Instr.opcode : Instr → Opcode
  | .noop => .noop
  | .loada _ => .loada
  | .storea _ => .storea
  | .loadb _ => .loadb
  | .storeb _ => .storeb
  | .loadx _ => .loadx
  | .storex _ => .storex
  | .loady _ => .loady
  | .storey _ => .storey
  | .addca _ => .addca
  | .subca _ => .subca
  | .multa _ => .multa
  | .multua _ => .multua
  | .diva _ => .diva
  | .divua _ => .divua
  | .anda _ => .anda
  | .ora _ => .ora
  | .xora _ => .xora
  | .lsl _ => .lsl
  | .lsr _ => .lsr
  | .rol _ => .rol
  | .ror _ => .ror
  | .inca => .inca
  | .deca => .deca
  | .incb => .incb
  | .decb => .decb
  | .incx => .incx
  | .decx => .decx
  | .incy => .incy
  | .decy => .decy
  | .cmpa _ => .cmpa
  | .cmpb _ => .cmpb
  | .cmpx _ => .cmpx
  | .cmpy _ => .cmpy
  | .clc => .clc
  | .sec => .sec
  | .jmp _ => .jmp
  | .brz _ => .brz
  | .brnz _ => .brnz
  | .brc _ => .brc
  | .brnc _ => .brnc
  | .jsr _ => .jsr
  | .rts => .rts
  | .pha => .pha
  | .pla => .pla
  | .phb => .phb
  | .plb => .plb
  | .fadda _ => .fadda
  | .fsuba _ => .fsuba
  | .fmulta _ => .fmulta
  | .fdiva _ => .fdiva
  | .syscall _ => .syscall
  | .halt => .halt

/-- The most significant byte of a word. -/
def hiByte (w : Word) : Byte := BitVec.ofNat 8 (w.toNat / 256)

/-- The least significant byte of a word. -/
def loByte (w : Word) : Byte := BitVec.ofNat 8 w.toNat

/-- R96, R97: the mode byte of a memory operand. -/
def modeByte (m : MemMode) (short : Bool) : Byte :=
  if short then BitVec.ofNat 8 (cfg.shortBase + (cfg.modeTag (.memory m)).toNat) else cfg.modeTag (.memory m)

/-- R96, R92: the mode byte and the big-endian operand word of an operand. -/
def Operand.encode : Operand → List Byte
  | .immediate v => [cfg.modeTag .immediate, hiByte v, loByte v]
  | .registerA => [cfg.modeTag .registerA]
  | .registerB => [cfg.modeTag .registerB]
  | .memory m short addr => [modeByte m short, hiByte addr, loByte addr]

/-- R90: the bytes of an instruction. -/
def encode (i : Instr) : List Byte :=
  match i.form with
  | none => [cfg.opcodeByte i.opcode]
  | some (_, op) => cfg.opcodeByte i.opcode :: op.encode

/-- R90: how many bytes after the opcode the operand takes: the mode byte, and two more outside the register modes. -/
def Operand.extraBytes : Operand → Nat
  | .registerA => 1
  | .registerB => 1
  | .immediate _ => 3
  | .memory _ _ _ => 3

/-- R90: the length of an instruction, 1, 2 or 4 bytes. -/
def Instr.length (i : Instr) : Nat :=
  match i.form with
  | none => 1
  | some (_, op) => 1 + op.extraBytes

/-- The four bytes of a table word: bits 7..0 of the word are the first byte, and every bit at or above `nbits` is
zero. -/
def tableBytes (nbits w : Nat) : List Byte :=
  let v := w % 2 ^ nbits
  [BitVec.ofNat 8 v, BitVec.ofNat 8 (v / 2 ^ 8), BitVec.ofNat 8 (v / 2 ^ 16), BitVec.ofNat 8 (v / 2 ^ 24)]

/-- The instruction the decoder reads from a word numbered as spec/opcode_table.json numbers it; none where it
rejects. -/
def decodeTableWord (nbits w : Nat) : Option Instr :=
  match decode (tableBytes nbits w) with
  | .instr i _ => some i
  | _ => none

end Sys2Proof
end

