-- ==== Sys2Proof/Machine/State.lean ====
section
/-! DEFINITION. The state of the machine (rule R30), its reset value (R346), and the reasons a step has no next state. -/

namespace Sys2Proof.Machine

/-- R31: the names of the four general registers. -/
inductive Reg where
  | a
  | b
  | x
  | y
  deriving DecidableEq, Repr

/-- R36: the eight flags of the STATUS byte, bit 7 first. `Status.toByte` is the byte (assumption log 12). -/
structure Status where
  n : Bool
  v : Bool
  u : Bool
  h : Bool
  i : Bool
  f : Bool
  z : Bool
  c : Bool
  deriving DecidableEq, Repr

/-- R42: a DynamicObject, one live allocation of the heap allocator. -/
structure Block where
  start : Nat
  size : Nat
  deriving DecidableEq, Repr

/-- R42: the allocator's ordered list. -/
abbrev Heap := List Block

/-- R44: a console output event; `str` is `OutStr` (syscall 0x14) and `hex` is `OutHex` (syscall 0x15). -/
inductive OutEvent where
  | str (bytes : List Byte)
  | hex (bytes : List Byte)
  deriving DecidableEq, Repr

/-- R301: the error kinds that can end a run. -/
inductive ErrorKind where
  | segmentationFault
  | kill
  | illegalInstruction
  | arithmeticFault
  | stackFault
  | systemFault
  | unknownHeapAddress
  deriving DecidableEq, Repr

/-- R43: the run state; `aborted` carries the error kind, the faulting PC and the STATUS snapshot. -/
inductive Run where
  | running
  | halted
  | aborted (kind : ErrorKind) (pc : Word) (status : Status)
  deriving DecidableEq, Repr

/-- R312: the two request inputs of one cycle. -/
structure HostRequest where
  kill : Bool
  reset : Bool
  deriving DecidableEq, Repr

/-- R41: memory as a list of (address, byte) pairs; an unlisted address reads as 0x00. `Memory.wf` is its canonical
form. -/
abbrev Memory := List Host.Cell

/-- R30: the complete state. The last three fields are the model's own: the machine's inputs as plain data, so that
`step` is a function of the state alone (assumption log 3 and 4). -/
structure State where
  a : Word
  b : Word
  x : Word
  y : Word
  pc : Word
  sp : Word
  callSp : Word
  status : Status
  mem : Memory
  heap : Heap
  run : Run
  out : List OutEvent
  requests : List HostRequest
  answers : List HostAnswer
  reads : Nat
  deriving DecidableEq, Repr

/-- Why a step has no next state. -/
inductive Fault where
  /-- Raised by `step` on a Halted machine: "Only a Running machine has a step" (R43). Safe: no later state is claimed. -/
  | halted
  /-- Raised by `step` on an Aborted machine, which is terminal (R43, R304). Safe: no later state is claimed. -/
  | aborted
  /-- Raised by SYSCALL 0x13 when the host never answers: "the machine stays in that SYSCALL forever" (R238, I11).
  Safe: no later state is claimed. -/
  | awaitingLine
  deriving DecidableEq, Repr

/-- Why an instruction has no meaning in the model. -/
inductive Refusal where
  /-- Raised by an arm of `exec` whose instruction has no meaning yet. Safe: nothing is claimed. No arm raises it now. -/
  | notModelled (mnemonic : String)
  deriving DecidableEq, Repr

/-- R36: STATUS 0x00. -/
def Status.zero : Status :=
  { n := false, v := false, u := false, h := false, i := false, f := false, z := false, c := false }

/-- R346: the state after construction, before a program image stands in the program region (assumption log 2). -/
def State.reset : State where
  a := 0
  b := 0
  x := 0
  y := 0
  pc := BitVec.ofNat 16 cfg.prgBottom
  sp := BitVec.ofNat 16 cfg.stackTop
  callSp := BitVec.ofNat 16 cfg.callTop
  status := Status.zero
  mem := []
  heap := []
  run := .running
  out := []
  requests := []
  answers := []
  reads := 0

/-- The outcome of an instruction or a step. -/
abbrev Result := Host.Outcome State Fault Refusal

end Sys2Proof.Machine
end

