-- ==== Sys2Proof/Machine/Flags.lean ====
section
/-! DEFINITION. The STATUS byte (R36) and every flag computation: SetZN (R9), the replacement of N, V, Z and C by an
arithmetic unit (R161, R223), and the flags of the ALU operations (R162 to R167). -/

namespace Sys2Proof.Machine

/-- One flag at its bit position. -/
def flagBit (b : Bool) (position : Nat) : Nat := if b then 2 ^ position else 0

/-- R36: STATUS as the 8-bit byte, N V U H I F Z C from bit 7 down to bit 0. -/
def Status.toByte (t : Status) : Byte :=
  BitVec.ofNat 8 (flagBit t.n 7 + flagBit t.v 6 + flagBit t.u 5 + flagBit t.h 4
    + flagBit t.i 3 + flagBit t.f 2 + flagBit t.z 1 + flagBit t.c 0)

/-- R36: the flags of a STATUS byte. -/
def Status.ofByte (w : Byte) : Status where
  n := w.getLsbD 7
  v := w.getLsbD 6
  u := w.getLsbD 5
  h := w.getLsbD 4
  i := w.getLsbD 3
  f := w.getLsbD 2
  z := w.getLsbD 1
  c := w.getLsbD 0

/-- R9: `SetZN(r)`, that is Z iff the result is zero, N iff it is not zero and its bit 15 is set. -/
def Status.setZN (t : Status) (r : Word) : Status :=
  { t with z := r == 0, n := r != 0 && r.msb }

/-- The carry flag alone. -/
def Status.setC (t : Status) (carry : Bool) : Status := { t with c := carry }

/-- R161, R223: N, V, Z and C are all replaced; U, H, I and F are never touched. -/
def Status.setNvzc (t : Status) (k : Nvzc) : Status := { t with n := k.n, v := k.v, z := k.z, c := k.c }

/-- R201: Z iff the operands are equal, C iff the register is at least the operand, both unsigned. -/
def Status.setCompare (t : Status) (r v : Word) : Status :=
  { t with z := r == v, c := decide (v.toNat ≤ r.toNat) }

/-- R162: the exact sum of ADDCA. -/
def addWide (a right : Word) (cin : Bool) : Nat := a.toNat + right.toNat + cin.toNat

/-- R162: the stored sum. -/
def addResult (a right : Word) (cin : Bool) : Word := BitVec.ofNat 16 (addWide a right cin)

/-- R162: the flags of ADDCA; V only when both operands had a clear sign bit and the result's is set. -/
def addFlags (a right : Word) (cin : Bool) : Nvzc :=
  let res := addResult a right cin
  { n := res != 0 && res.msb
    v := !a.msb && !right.msb && res.msb
    z := res == 0
    c := decide (0xFFFF < addWide a right cin) }

/-- R163: `0xFFFF + A - right + carry-in`, which is never negative. -/
def subWide (a right : Word) (cin : Bool) : Nat := 0xFFFF + a.toNat - right.toNat + cin.toNat

/-- R163: the stored difference. -/
def subResult (a right : Word) (cin : Bool) : Word := BitVec.ofNat 16 (subWide a right cin)

/-- R163: the flags of SUBCA; C says no borrow and V says borrow. -/
def subFlags (a right : Word) (cin : Bool) : Nvzc :=
  let res := subResult a right cin
  { n := res != 0 && res.msb
    v := decide (subWide a right cin < 0x10000)
    z := res == 0
    c := decide (0x10000 ≤ subWide a right cin) }

/-- R164: the truncated unsigned product. -/
def mulResult (a right : Word) : Word := BitVec.ofNat 16 (a.toNat * right.toNat)

/-- R164: the divide-back check of the truncated product, guarded for a zero operand. -/
def mulOverflows (a right : Word) : Bool :=
  right != 0 && (mulResult a right).toNat / right.toNat != a.toNat

/-- R164: MULTUA clears all four flags and sets V on overflow. -/
def mulFlags (a right : Word) : Nvzc :=
  { n := false, v := mulOverflows a right, z := false, c := false }

/-- R8, R165: `neg16` where the sign bit is set; the magnitude of 0x8000 is 0x8000. -/
def magnitude (w : Word) : Word := if w.msb then BitVec.ofNat 16 (2 ^ 16 - w.toNat) else w

/-- R165: the truncated product of the magnitudes. -/
def smulMagnitude (a right : Word) : Word := mulResult (magnitude a) (magnitude right)

/-- R165: the stored product, negated when the operands' signs differ. -/
def smulResult (a right : Word) : Word :=
  if a.msb == right.msb then smulMagnitude a right
  else BitVec.ofNat 16 (2 ^ 16 - (smulMagnitude a right).toNat)

/-- R165: V when the magnitude product's sign bit is set or the divide-back check fails; N when the signs differ. -/
def smulFlags (a right : Word) : Nvzc :=
  { n := a.msb != right.msb
    v := (smulMagnitude a right).msb || mulOverflows (magnitude a) (magnitude right)
    z := false
    c := false }

/-- R166, R167: a division clears N, V, Z and C and sets none. -/
def divFlags : Nvzc := { n := false, v := false, z := false, c := false }

end Sys2Proof.Machine
end

