-- ==== Sys2Proof/Machine/Ops.lean ====
section
/-! DEFINITION. The named operations over memory, registers and stacks (R65 to R69, R266 to R269), the end of a cycle
(R280), and the SignalController: abort (R304), trap entry (R306), the reset signal (R342) and the return (R292). -/

namespace Sys2Proof.Machine

/-! ## Memory as a list of cells -/

/-- One byte; an unlisted address reads as 0x00 (R41, R344). -/
def Memory.read : Memory → Nat → Byte
  | [], _ => 0x00
  | (x, v) :: rest, a => if x = a then v else Memory.read rest a

/-- Remove the entry of an address. -/
def Memory.erase (m : Memory) (a : Nat) : Memory := m.filter (fun cell => cell.1 != a)

/-- Put an entry before the first one at a higher address. -/
def Memory.insert : Memory → Nat → Byte → Memory
  | [], a, v => [(a, v)]
  | (x, w) :: rest, a, v =>
    if a < x then (a, v) :: (x, w) :: rest else (x, w) :: Memory.insert rest a v

/-- Write one byte, keeping the canonical form: writing 0x00 removes the entry. -/
def Memory.write (m : Memory) (a : Nat) (v : Byte) : Memory :=
  if v = 0x00 then m.erase a else (m.erase a).insert a v

/-- The canonical form: addresses strictly rising, no entry equal to what an unlisted address reads as. -/
abbrev Memory.wf (m : Memory) : Prop :=
  List.Pairwise (fun c d : Host.Cell => c.1 < d.1) m ∧ ∀ c ∈ m, c.2 ≠ 0x00

/-- `n` bytes from an address on. -/
def Memory.readBytes (m : Memory) (a : Nat) : Nat → List Byte
  | 0 => []
  | n + 1 => m.read a :: Memory.readBytes m (a + 1) n

/-- A byte string stored from an address on, first byte first. -/
def Memory.writeBytes (m : Memory) (a : Nat) : List Byte → Memory
  | [] => m
  | v :: rest => Memory.writeBytes (m.write a v) (a + 1) rest

/-- R252: `mem[dst + i] <- mem[src + i]` for i = 0 .. n-1, in that order. -/
def Memory.copy (m : Memory) (dst src : Nat) : Nat → Memory
  | 0 => m
  | n + 1 => Memory.copy (m.write dst (m.read src)) (dst + 1) (src + 1) n

/-! ## Validity and the access paths -/

/-- R65: inside the memory bound and not in the null guard. -/
def validPriv (a : Nat) : Bool :=
  decide (a < cfg.memSize) && !(decide (cfg.nullLo ≤ a) && decide (a ≤ cfg.nullHi))

/-- R65: moreover outside the call stack and the program image. -/
def validGuest (a : Nat) : Bool :=
  validPriv a && !(decide (cfg.callFloor ≤ a) && decide (a ≤ cfg.callTop))
    && !(decide (cfg.prgBottom ≤ a) && decide (a ≤ cfg.prgTop))

/-- Every one of the `n` bytes from `a` on is valid. -/
def allValid (valid : Nat → Bool) (a : Nat) : Nat → Bool
  | 0 => true
  | n + 1 => valid a && allValid valid (a + 1) n

/-- R72: a data access is one byte or one word. -/
inductive Width where
  | byte
  | word
  deriving DecidableEq, Repr

/-- The width of an operand access: the short variants touch one byte (R97). -/
def widthOf (short : Bool) : Width := if short then .byte else .word

/-- How many bytes an access touches. -/
def Width.bytes : Width → Nat
  | .byte => 1
  | .word => 2

/-- R66: the value at an address, a byte zero-extended or a big-endian word. -/
def Memory.value (m : Memory) (a : Nat) : Width → Word
  | .byte => (m.read a).setWidth 16
  | .word => m.read a ++ m.read (a + 1)

/-- R67: store the low byte, or the word with its high byte first. -/
def Memory.setValue (m : Memory) (a : Nat) (v : Word) : Width → Memory
  | .byte => m.write a (loByte v)
  | .word => (m.write a (hiByte v)).write (a + 1) (loByte v)

/-- R66: a guest read; every byte touched must be valid. -/
def memRead (w : Width) (a : Nat) (m : Memory) : Except Signal Word :=
  if allValid validGuest a w.bytes then .ok (m.value a w) else .error .segmentation

/-- R67: a guest write; every byte is checked before any is written. -/
def memWrite (w : Width) (a : Nat) (v : Word) (m : Memory) : Except Signal Memory :=
  if allValid validGuest a w.bytes then .ok (m.setValue a v w) else .error .segmentation

/-- R68: a privileged read. -/
def privRead (w : Width) (a : Nat) (m : Memory) : Except Signal Word :=
  if allValid validPriv a w.bytes then .ok (m.value a w) else .error .segmentation

/-- R69: an address instructions may be fetched from. -/
def inProgram (a : Nat) : Bool := decide (cfg.prgBottom ≤ a) && decide (a ≤ cfg.prgTop)

/-- R69: the fetch of one instruction byte. -/
def progFetch (a : Word) (m : Memory) : Except Signal Byte :=
  if inProgram a.toNat then .ok (m.read a.toNat) else .error .segmentation

/-! ## General registers -/

/-- R31: read a general register. -/
def State.reg (s : State) : Reg → Word
  | .a => s.a
  | .b => s.b
  | .x => s.x
  | .y => s.y

/-- R31: write a general register. -/
def State.setReg (s : State) (r : Reg) (v : Word) : State :=
  match r with
  | .a => { s with a := v }
  | .b => { s with b := v }
  | .x => { s with x := v }
  | .y => { s with y := v }

/-- Move PC (R33: modulo 2^16). -/
def State.advance (s : State) (n : Nat) : State := { s with pc := s.pc + BitVec.ofNat 16 n }

/-! ## The two stacks -/

/-- R266, R268: push a word on a stack with the given floor; the bound is checked once, before any write, on unbounded
integers, and the high byte goes to the higher address. The writes are privileged (R68). -/
def push (floor : Nat) (ptr v : Word) (m : Memory) : Except Signal (Word × Memory) :=
  if ptr.toNat < floor + 2 then .error .stackFault
  else if validPriv ptr.toNat && validPriv (ptr.toNat - 1) then
    .ok (ptr - 2, (m.write ptr.toNat (hiByte v)).write (ptr.toNat - 1) (loByte v))
  else .error .segmentation

/-- R267, R269: pop a word from a stack with the given top: the word and the raised pointer. -/
def pop (top : Nat) (ptr : Word) (m : Memory) : Except Signal (Word × Word) :=
  if top < ptr.toNat + 2 then .error .stackFault
  else if validPriv (ptr.toNat + 1) && validPriv (ptr.toNat + 2) then
    .ok (m.read (ptr.toNat + 2) ++ m.read (ptr.toNat + 1), ptr + 2)
  else .error .segmentation

/-- R266: `PushData(v)`. -/
def pushData (v : Word) (s : State) : Except Signal State :=
  match push cfg.stackFloor s.sp v s.mem with
  | .error sg => .error sg
  | .ok (p, m) => .ok { s with sp := p, mem := m }

/-- R267: `PopData()`: the word and the state with SP raised. -/
def popData (s : State) : Except Signal (Word × State) :=
  match pop cfg.stackTop s.sp s.mem with
  | .error sg => .error sg
  | .ok (v, p) => .ok (v, { s with sp := p })

/-- R268: `PushCall(v)`. -/
def pushCall (v : Word) (s : State) : Except Signal State :=
  match push cfg.callFloor s.callSp v s.mem with
  | .error sg => .error sg
  | .ok (p, m) => .ok { s with callSp := p, mem := m }

/-- R269: `PopCall()`: the word and the state with CALL_SP raised. -/
def popCall (s : State) : Except Signal (Word × State) :=
  match pop cfg.callTop s.callSp s.mem with
  | .error sg => .error sg
  | .ok (v, p) => .ok (v, { s with callSp := p })

/-! ## The SignalController -/

/-- R300: the number of a signal, which is its vector slot. -/
def Signal.number (sg : Signal) : Nat := cfg.signalNumber sg

/-- R300, column "class": fatal and vectored signals with their error kind (R301), and the special-cased reset. -/
inductive SignalClass where
  | fatal (kind : ErrorKind)
  | vectored (kind : ErrorKind)
  | special
  deriving DecidableEq, Repr

/-- R300: the class of each signal. -/
def Signal.classOf : Signal → SignalClass
  | .segmentation => .fatal .segmentationFault
  | .kill => .fatal .kill
  | .illegalInstruction => .vectored .illegalInstruction
  | .arithmeticFault => .vectored .arithmeticFault
  | .stackFault => .vectored .stackFault
  | .systemFault => .vectored .systemFault
  | .reset => .special

/-- R62, R300: the address of vector slot `k`. -/
def vectorSlot (k : Nat) : Nat := cfg.vecBase + 2 * k

/-- R304: H is set and the run ends with the kind, the PC and the STATUS with H already set; nothing else changes. -/
def abort (kind : ErrorKind) (s : State) : State :=
  { s with
    status := { s.status with h := true }
    run := .aborted kind s.pc { s.status with h := true } }

/-- R306: take a vectored signal. An unhandled one (a zero vector) aborts with its own kind; without room for the return
address the run aborts with StackFault (R309); else PC is pushed on the call stack and PC becomes the vector less one.
The vector read is privileged and cannot fault at the default addresses (R68). -/
def trap (slot : Nat) (kind : ErrorKind) (s : State) : State :=
  match privRead .word (vectorSlot slot) s.mem with
  | .error _ => abort .segmentationFault s
  | .ok v =>
    if v = 0 then abort kind s
    else
      match pushCall s.pc s with
      | .error _ => abort .stackFault s
      | .ok s' => { s' with pc := v - 1 }

/-- R342: the reset signal. The general registers, memory, the output and the run state stay. -/
def resetSignal (s : State) : State :=
  { s with
    status := Status.zero
    pc := BitVec.ofNat 16 cfg.prgBottom
    sp := BitVec.ofNat 16 cfg.stackTop
    callSp := BitVec.ofNat 16 cfg.callTop
    heap := [] }

/-- R303: raise a signal on the state as the instruction left it. -/
def raise (sg : Signal) (s : State) : State :=
  match sg.classOf with
  | .fatal kind => abort kind s
  | .vectored kind => trap sg.number kind s
  | .special => resetSignal s

/-- R292, R310: the return from a subroutine or a handler: PC is the popped word, and the end of the cycle adds one. -/
def returnFromCall (s : State) : State :=
  match popCall s with
  | .error sg => raise sg s
  | .ok (v, s') => { s' with pc := v }

/-! ## The end of a cycle and the host's inputs -/

/-- R280: after an instruction that did not abort, PC is incremented once, and a set halt flag ends the run. -/
def endCycle (s : State) : State :=
  match s.run with
  | .running => { s with pc := s.pc + 1, run := if s.status.h then .halted else .running }
  | .halted => s
  | .aborted _ _ _ => s

/-- R312: the requests of the coming cycle; none past the end of the list (assumption log 3). -/
def nextRequest (s : State) : HostRequest :=
  match s.requests with
  | [] => { kill := false, reset := false }
  | r :: _ => r

/-- The requests of the coming cycle are sampled and gone: they are not latched (R45). -/
def takeRequest (s : State) : State := { s with requests := s.requests.tail }

/-- R238: the host's answer to the coming console read (assumption log 4). -/
def nextAnswer (s : State) : HostAnswer :=
  match s.answers with
  | [] => Config.hostAnswer s.reads
  | r :: _ => r

/-- R238: each execution of syscall 0x13 consumes one answer. -/
def takeAnswer (s : State) : State :=
  match s.answers with
  | [] => { s with reads := s.reads + 1 }
  | _ :: rest => { s with answers := rest }

end Sys2Proof.Machine
end

