-- ==== Sys2Proof/Machine/Operands.lean ====
section
/-! DEFINITION. The addressing resolver (spec/40_addressing_resolver.md): the effective address (R123) and the four
procedures every `MOD`-format instruction calls (R124 to R127), with the order of events of R128. -/

namespace Sys2Proof.Machine

/-- R123: the effective address, an unbounded sum. The pointer reads are full-word guest reads whatever the operand's
width. -/
def effectiveAddress (m : MemMode) (addr : Word) (s : State) : Except Signal Nat :=
  match m with
  | .absolute => .ok addr.toNat
  | .xIndexed => .ok (addr.toNat + s.x.toNat)
  | .yIndexed => .ok (addr.toNat + s.y.toNat)
  | .indirectIndexedX => (memRead .word addr.toNat s.mem).map (fun base => base.toNat + s.x.toNat)
  | .indirectIndexedY => (memRead .word addr.toNat s.mem).map (fun base => base.toNat + s.y.toNat)
  | .indexedIndirectX => (memRead .word (addr.toNat + s.x.toNat) s.mem).map BitVec.toNat
  | .indexedIndirectY => (memRead .word (addr.toNat + s.y.toNat) s.mem).map BitVec.toNat

/-- R124: the value of a class-L operand. Register-A mode is not in the class and is an illegal combination. -/
def resolveLoad (op : Operand) (s : State) : Except Signal Word :=
  match op with
  | .immediate v => .ok v
  | .registerA => .error .illegalInstruction
  | .registerB => .ok s.b
  | .memory m short addr =>
    match effectiveAddress m addr s with
    | .error sg => .error sg
    | .ok ea => memRead (widthOf short) ea s.mem

/-- R125: write a value to a class-S operand. Immediate and register-A modes raise "without writing". -/
def resolveStore (v : Word) (op : Operand) (s : State) : Except Signal State :=
  match op with
  | .immediate _ => .error .illegalInstruction
  | .registerA => .error .illegalInstruction
  | .registerB => .ok { s with b := v }
  | .memory m short addr =>
    match effectiveAddress m addr s with
    | .error sg => .error sg
    | .ok ea =>
      match memWrite (widthOf short) ea v s.mem with
      | .error sg => .error sg
      | .ok mem => .ok { s with mem := mem }

/-- R126: a place a shift reads and writes once each. -/
inductive Location where
  | registerA
  | registerB
  | word (ea : Nat)
  deriving DecidableEq, Repr

/-- R126: the location of a class-M operand, at the full 16-bit address; immediate and every short form are illegal. -/
def resolveLocation (op : Operand) (s : State) : Except Signal Location :=
  match op with
  | .immediate _ => .error .illegalInstruction
  | .registerA => .ok .registerA
  | .registerB => .ok .registerB
  | .memory m short addr =>
    if short then .error .illegalInstruction else (effectiveAddress m addr s).map Location.word

/-- R126: read a location. -/
def readLocation (loc : Location) (s : State) : Except Signal Word :=
  match loc with
  | .registerA => .ok s.a
  | .registerB => .ok s.b
  | .word ea => memRead .word ea s.mem

/-- R126: write a location. -/
def writeLocation (loc : Location) (v : Word) (s : State) : Except Signal State :=
  match loc with
  | .registerA => .ok { s with a := v }
  | .registerB => .ok { s with b := v }
  | .word ea =>
    match memWrite .word ea v s.mem with
    | .error sg => .error sg
    | .ok mem => .ok { s with mem := mem }

/-- R127: the target of a class-T operand is the operand itself; any other form is illegal. -/
def resolveTarget (op : Operand) : Except Signal Word :=
  match op with
  | .immediate _ => .error .illegalInstruction
  | .registerA => .error .illegalInstruction
  | .registerB => .error .illegalInstruction
  | .memory m short addr =>
    match m with
    | .absolute => if short then .error .illegalInstruction else .ok addr
    | .xIndexed => .error .illegalInstruction
    | .yIndexed => .error .illegalInstruction
    | .indirectIndexedX => .error .illegalInstruction
    | .indirectIndexedY => .error .illegalInstruction
    | .indexedIndirectX => .error .illegalInstruction
    | .indexedIndirectY => .error .illegalInstruction

/-- R120, R122: PC moves across the mode byte and the operand word before anything else happens. -/
def consume (op : Operand) (s : State) : State := s.advance op.extraBytes

/-- R303: go on with a resolved value, or raise the signal on the state as it stands. -/
def orRaise {α : Type} (r : Except Signal α) (s : State) (k : α → Result) : Result :=
  match r with
  | .error sg => .next (raise sg s)
  | .ok v => k v

/-- R124, R128: an instruction with a class-L operand. -/
def withValue (op : Operand) (s : State) (k : Word → State → Result) : Result :=
  orRaise (resolveLoad op (consume op s)) (consume op s) (fun v => k v (consume op s))

/-- R127, R284: an instruction with a branch target. -/
def withTarget (op : Operand) (s : State) (k : Word → State → Result) : Result :=
  orRaise (resolveTarget op) (consume op s) (fun t => k t (consume op s))

end Sys2Proof.Machine
end

