-- ==== Sys2Proof/Machine/Alu.lean ====
section
/-! DEFINITION. The integer ALU (spec/42_integer_alu.md). The results and flags are in Machine/Flags.lean. -/

namespace Sys2Proof.Machine

/-- R160, R161: write A and replace the four arithmetic flags. -/
def writeAccumulator (res : Word) (flags : Nvzc) (s : State) : State :=
  { s with a := res, status := s.status.setNvzc flags }

/-- R168, R228: the dispatcher rewinds PC to the opcode byte, at `p`, and raises ArithmeticFault; A, B and the flags stay. -/
def zeroDivisor (p : Word) (s : State) : Result :=
  .next (raise .arithmeticFault { s with pc := p })

/-- R162: add with carry. -/
def execAddca (op : Operand) (s : State) : Result :=
  withValue op s (fun right s =>
    .next (writeAccumulator (addResult s.a right s.status.c) (addFlags s.a right s.status.c) s))

/-- R163: subtract with the carry as not-borrow. -/
def execSubca (op : Operand) (s : State) : Result :=
  withValue op s (fun right s =>
    .next (writeAccumulator (subResult s.a right s.status.c) (subFlags s.a right s.status.c) s))

/-- R165: signed multiply; the result is stored also on overflow. -/
def execMulta (op : Operand) (s : State) : Result :=
  withValue op s (fun right s =>
    .next (writeAccumulator (smulResult s.a right) (smulFlags s.a right) s))

/-- R164: unsigned multiply; on overflow A stays. -/
def execMultua (op : Operand) (s : State) : Result :=
  withValue op s (fun right s =>
    .next (writeAccumulator (if mulOverflows s.a right then s.a else mulResult s.a right) (mulFlags s.a right) s))

/-- R167: the quotient rounded toward zero, wrapped to 16 bits. -/
def sdivQuotient (a right : Word) : Word := BitVec.ofInt 16 (Int.tdiv a.toInt right.toInt)

/-- R167: the remainder, with the sign of the dividend. -/
def sdivRemainder (a right : Word) : Word := BitVec.ofInt 16 (Int.tmod a.toInt right.toInt)

/-- R166: the unsigned quotient. -/
def udivQuotient (a right : Word) : Word := BitVec.ofNat 16 (a.toNat / right.toNat)

/-- R166: the unsigned remainder. -/
def udivRemainder (a right : Word) : Word := BitVec.ofNat 16 (a.toNat % right.toNat)

/-- R167, R168: signed divide. -/
def execDiva (op : Operand) (s : State) : Result :=
  let p := s.pc
  withValue op s (fun right s =>
    if right = 0 then zeroDivisor p s
    else .next { writeAccumulator (sdivQuotient s.a right) divFlags s with b := sdivRemainder s.a right })

/-- R166, R168: unsigned divide. -/
def execDivua (op : Operand) (s : State) : Result :=
  let p := s.pc
  withValue op s (fun right s =>
    if right = 0 then zeroDivisor p s
    else .next { writeAccumulator (udivQuotient s.a right) divFlags s with b := udivRemainder s.a right })

end Sys2Proof.Machine
end

