-- ==== Sys2Proof/Machine/Control.lean ====
section
/-! DEFINITION. NOOP, HALT, jumps, branches, call and return (spec/47_control_transfer.md rules R282 to R292). -/

namespace Sys2Proof.Machine

/-- R282. -/
def execNoop (s : State) : Result := .next s

/-- R283: `H <- 1`; the end of the cycle halts the run. -/
def execHalt (s : State) : Result := .next { s with status := { s.status with h := true } }

/-- R284: a taken transfer loads PC with its destination less one. -/
def goTo (target : Word) (s : State) : State := { s with pc := target - 1 }

/-- R286 to R289: the operand is fetched and checked whether or not the branch is taken. -/
def branchIf (taken : Bool) (op : Operand) (s : State) : Result :=
  withTarget op s (fun target s => .next (if taken then goTo target s else s))

/-- R285. -/
def execJmp (op : Operand) (s : State) : Result := branchIf true op s

/-- R286: taken when Z = 1. -/
def execBrz (op : Operand) (s : State) : Result := branchIf s.status.z op s

/-- R287: taken when Z = 0. -/
def execBrnz (op : Operand) (s : State) : Result := branchIf (!s.status.z) op s

/-- R288: taken when C = 1. -/
def execBrc (op : Operand) (s : State) : Result := branchIf s.status.c op s

/-- R289: taken when C = 0. -/
def execBrnc (op : Operand) (s : State) : Result := branchIf (!s.status.c) op s

/-- R291: push the address of the instruction's last byte and jump. -/
def execJsr (op : Operand) (s : State) : Result :=
  withTarget op s (fun target s => orRaise (pushCall s.pc s) s (fun s => .next (goTo target s)))

/-- R292. -/
def execRts (s : State) : Result := .next (returnFromCall s)

end Sys2Proof.Machine
end

