-- ==== Sys2Proof/Machine/Fpu.lean ====
section
/-! DEFINITION. The floating-point unit at interface level (spec/44_fpu.md). The numerics are the
configuration's `fp16`, by default the free value `Config.fp16`, and the free value `Config.fp32`. -/

namespace Sys2Proof.Machine

/-- R223: the half-precision unit's result goes to A and its flags replace N, V, Z and C. -/
def halfPrecision (f : FpOp) (right : Word) (s : State) : State :=
  writeAccumulator (cfg.fp16 f s.a right).1 (cfg.fp16 f s.a right).2 s

/-- R228: either signed zero, bits 14 to 0 all clear. -/
def isFloatZero (w : Word) : Bool := w.toNat % 2 ^ 15 == 0

/-- R224. -/
def execFadda (op : Operand) (s : State) : Result :=
  withValue op s (fun right s => .next (halfPrecision .fadd right s))

/-- R225. -/
def execFsuba (op : Operand) (s : State) : Result :=
  withValue op s (fun right s => .next (halfPrecision .fsub right s))

/-- R226. -/
def execFmulta (op : Operand) (s : State) : Result :=
  withValue op s (fun right s => .next (halfPrecision .fmult right s))

/-- R227, R228. -/
def execFdiva (op : Operand) (s : State) : Result :=
  let p := s.pc
  withValue op s (fun right s =>
    if isFloatZero right then zeroDivisor p s else .next (halfPrecision .fdiv right s))

/-- R222: the 32-bit left operand of single-precision mode, A the most significant half. -/
def combinePair (s : State) : BitVec 32 := s.a ++ s.b

/-- R222: split a 32-bit result back over the A/B pair. -/
def splitPair (w : BitVec 32) (s : State) : State :=
  { s with a := BitVec.ofNat 16 (w.toNat / 2 ^ 16), b := BitVec.ofNat 16 w.toNat }

/-- R220, R222: single-precision mode. No opcode selects it, so no arm of `exec` calls it (assumption log 9). -/
def singlePrecision (f : FpOp) (right : BitVec 32) (s : State) : State :=
  let r := Config.fp32 f (combinePair s) right
  let s := splitPair r.1 s
  { s with status := s.status.setNvzc r.2 }

end Sys2Proof.Machine
end

