-- ==== Sys2Proof/Machine/LoadStore.lean ====
section
/-! DEFINITION. Register loads and stores (spec/41_load_store.md). -/

namespace Sys2Proof.Machine

/-- R140: `x[r] <- ResolveLoad()`; no flag changes. -/
def loadRegister (r : Reg) (op : Operand) (s : State) : Result :=
  withValue op s (fun v s => .next (s.setReg r v))

/-- R140: `ResolveStore(x[r])`; no flag changes. -/
def storeRegister (r : Reg) (op : Operand) (s : State) : Result :=
  orRaise (resolveStore (s.reg r) op (consume op s)) (consume op s) .next

/-- R141. -/
def execLoada (op : Operand) (s : State) : Result := loadRegister .a op s

/-- R142. -/
def execLoadb (op : Operand) (s : State) : Result := loadRegister .b op s

/-- R143. -/
def execLoadx (op : Operand) (s : State) : Result := loadRegister .x op s

/-- R144. -/
def execLoady (op : Operand) (s : State) : Result := loadRegister .y op s

/-- R145. -/
def execStorea (op : Operand) (s : State) : Result := storeRegister .a op s

/-- R146. -/
def execStoreb (op : Operand) (s : State) : Result := storeRegister .b op s

/-- R147. -/
def execStorex (op : Operand) (s : State) : Result := storeRegister .x op s

/-- R148. -/
def execStorey (op : Operand) (s : State) : Result := storeRegister .y op s

end Sys2Proof.Machine
end

