-- ==== Sys2Proof/Machine/Logic.lean ====
section
/-! DEFINITION. Logical operations, shifts and rotates, increment and decrement, comparisons and carry control
(spec/43_logic_shift_incdec_compare.md). -/

namespace Sys2Proof.Machine

/-- R180, R191: write a register and set Z and N from the value; C and V stay. -/
def writeZN (r : Reg) (v : Word) (s : State) : State :=
  let s := s.setReg r v
  { s with status := s.status.setZN v }

/-- R180: `x[A] <- x[A] op v; SetZN(x[A])`. -/
def logical (f : Word → Word → Word) (op : Operand) (s : State) : Result :=
  withValue op s (fun v s => .next (writeZN .a (f s.a v) s))

/-- R181. -/
def execAnda (op : Operand) (s : State) : Result := logical (fun a v => a &&& v) op s

/-- R182. -/
def execOra (op : Operand) (s : State) : Result := logical (fun a v => a ||| v) op s

/-- R183. -/
def execXora (op : Operand) (s : State) : Result := logical (fun a v => a ^^^ v) op s

/-- R186: the shifted word and the carry out. -/
def shiftLeft (t : Word) (_cin : Bool) : Word × Bool := (BitVec.ofNat 16 (t.toNat * 2), t.getLsbD 15)

/-- R187. -/
def shiftRight (t : Word) (_cin : Bool) : Word × Bool := (BitVec.ofNat 16 (t.toNat / 2), t.getLsbD 0)

/-- R188: rotate left through the carry. -/
def rotateLeft (t : Word) (cin : Bool) : Word × Bool :=
  (BitVec.ofNat 16 (t.toNat * 2 + cin.toNat), t.getLsbD 15)

/-- R189: rotate right through the carry. -/
def rotateRight (t : Word) (cin : Bool) : Word × Bool :=
  (BitVec.ofNat 16 (t.toNat / 2 + cin.toNat * 0x8000), t.getLsbD 0)

/-- R185: read the location, write the shifted word back, then C is the carry out and Z and N follow the word. -/
def shiftLocation (f : Word → Bool → Word × Bool) (op : Operand) (s : State) : Result :=
  let s := consume op s
  orRaise (resolveLocation op s) s (fun loc =>
    orRaise (readLocation loc s) s (fun t =>
      let r := f t s.status.c
      orRaise (writeLocation loc r.1 s) s (fun s =>
        .next { s with status := (s.status.setZN r.1).setC r.2 })))

/-- R186. -/
def execLsl (op : Operand) (s : State) : Result := shiftLocation shiftLeft op s

/-- R187. -/
def execLsr (op : Operand) (s : State) : Result := shiftLocation shiftRight op s

/-- R188. -/
def execRol (op : Operand) (s : State) : Result := shiftLocation rotateLeft op s

/-- R189. -/
def execRor (op : Operand) (s : State) : Result := shiftLocation rotateRight op s

/-- R191: `x[r] <- trunc16(x[r] + 1); SetZN(x[r])`. -/
def increment (r : Reg) (s : State) : Result := .next (writeZN r (s.reg r + 1) s)

/-- R191: `x[r] <- trunc16(x[r] - 1); SetZN(x[r])`. -/
def decrement (r : Reg) (s : State) : Result := .next (writeZN r (s.reg r - 1) s)

/-- R192. -/
def execInca (s : State) : Result := increment .a s

/-- R193. -/
def execDeca (s : State) : Result := decrement .a s

/-- R194. -/
def execIncb (s : State) : Result := increment .b s

/-- R195. -/
def execDecb (s : State) : Result := decrement .b s

/-- R196. -/
def execIncx (s : State) : Result := increment .x s

/-- R197. -/
def execDecx (s : State) : Result := decrement .x s

/-- R198. -/
def execIncy (s : State) : Result := increment .y s

/-- R199. -/
def execDecy (s : State) : Result := decrement .y s

/-- R201: compare a register with the operand; only Z and C change. -/
def compareRegister (r : Reg) (op : Operand) (s : State) : Result :=
  withValue op s (fun v s => .next { s with status := s.status.setCompare (s.reg r) v })

/-- R202. -/
def execCmpa (op : Operand) (s : State) : Result := compareRegister .a op s

/-- R203. -/
def execCmpb (op : Operand) (s : State) : Result := compareRegister .b op s

/-- R204. -/
def execCmpx (op : Operand) (s : State) : Result := compareRegister .x op s

/-- R205. -/
def execCmpy (op : Operand) (s : State) : Result := compareRegister .y op s

/-- R208. -/
def execClc (s : State) : Result := .next { s with status := s.status.setC false }

/-- R209. -/
def execSec (s : State) : Result := .next { s with status := s.status.setC true }

end Sys2Proof.Machine
end

