-- ==== Sys2Proof/Machine/Stack.lean ====
section
/-! DEFINITION. The data-stack instructions (spec/46_stack.md rules R271 to R274). -/

namespace Sys2Proof.Machine

/-- R271, R273: `PushData(x[r])`; no flag changes. -/
def pushRegister (r : Reg) (s : State) : Result := orRaise (pushData (s.reg r) s) s .next

/-- R272, R274: `x[r] <- PopData()`; no flag changes. -/
def pullRegister (r : Reg) (s : State) : Result := orRaise (popData s) s (fun p => .next (p.2.setReg r p.1))

/-- R271. -/
def execPha (s : State) : Result := pushRegister .a s

/-- R272. -/
def execPla (s : State) : Result := pullRegister .a s

/-- R273. -/
def execPhb (s : State) : Result := pushRegister .b s

/-- R274. -/
def execPlb (s : State) : Result := pullRegister .b s

end Sys2Proof.Machine
end

