-- ==== Sys2Proof/Machine/Heap.lean ====
section
/-! DEFINITION. The heap allocator (spec/45_heap_syscall.md rules R250 to R256). -/

namespace Sys2Proof.Machine

/-- R250: `end(o)`. -/
def Block.stop (o : Block) : Nat := o.start + o.size

/-- R250: sorted by start, pairwise non-overlapping, each block of at least one byte, all between `lo` and the heap
ceiling. -/
def Heap.orderedFrom (lo : Nat) : Heap → Bool
  | [] => true
  | o :: rest => decide (lo ≤ o.start) && decide (1 ≤ o.size) && decide (o.stop ≤ cfg.heapCeil)
      && Heap.orderedFrom o.stop rest

/-- R250: the allocator's invariant. -/
def Heap.ok (h : Heap) : Bool := Heap.orderedFrom cfg.heapFloor h

/-- R251: first fit from `prev` on: the address and the list with the new block in place. -/
def allocateFrom (prev size : Nat) : Heap → Option (Nat × Heap)
  | [] => if prev + size ≤ cfg.heapCeil then some (prev, [{ start := prev, size := size }]) else none
  | o :: rest =>
    if prev + size ≤ o.start then some (prev, { start := prev, size := size } :: o :: rest)
    else (allocateFrom o.stop size rest).map (fun r => (r.1, o :: r.2))

/-- R251: `Allocate(size)`; none is `null`. A request of size 0 fails. -/
def allocate (size : Nat) (h : Heap) : Option (Nat × Heap) :=
  if size = 0 then none else allocateFrom cfg.heapFloor size h

/-- The object whose start equals an address, with the object that follows it in the list. -/
def locate (address : Nat) : Heap → Option (Block × Option Block)
  | [] => none
  | o :: rest => if o.start = address then some (o, rest.head?) else locate address rest

/-- R252: `o.size <- n` for the object at an address. -/
def resize (address n : Nat) : Heap → Heap
  | [] => []
  | o :: rest =>
    if o.start = address then { o with size := n } :: rest else o :: resize address n rest

/-- R252, R254: remove the object at an address. -/
def removeBlock (address : Nat) : Heap → Heap
  | [] => []
  | o :: rest => if o.start = address then rest else o :: removeBlock address rest

/-- R256: `Deliver(r)`. -/
def deliver (r : Option Nat) (s : State) : State :=
  match r with
  | none => { s with a := 0, b := 0 }
  | some address => { s with b := BitVec.ofNat 16 address }

/-- R251: allocate and deliver, from a state. -/
def allocateInto (size : Nat) (s : State) : State :=
  match allocate size s.heap with
  | none => deliver none s
  | some (address, h) => deliver (some address) { s with heap := h }

/-- R252: a block too small for the gap behind it moves: allocate with the old block still listed, copy its bytes
through the privileged path, then drop the old block. The copy cannot fault while the allocator's invariant holds
(R253). -/
def moveBlock (o : Block) (newSize : Nat) (s : State) : Except Signal State :=
  match allocate newSize s.heap with
  | none => .ok (deliver none s)
  | some (address, h) =>
    if allValid validPriv address o.size && allValid validPriv o.start o.size then
      .ok (deliver (some address)
        { s with heap := removeBlock o.start h, mem := s.mem.copy address o.start o.size })
    else .error .segmentation

/-- R252: `Reallocate(address, new_size, create_if_missing)` followed by `Deliver`. -/
def reallocate (address newSize : Nat) (create : Bool) (s : State) : Except Signal State :=
  match locate address s.heap with
  | none => .ok (if create then allocateInto newSize s else deliver none s)
  | some (o, next) =>
    if newSize ≤ o.size then .ok (deliver (some o.start) s)
    else
      match next with
      | some nxt =>
        if o.start + newSize ≤ nxt.start then
          .ok (deliver (some o.start) { s with heap := resize o.start newSize s.heap })
        else moveBlock o newSize s
      | none =>
        if o.start + newSize ≤ cfg.heapCeil then
          .ok (deliver (some o.start) { s with heap := resize o.start newSize s.heap })
        else .ok (deliver none s)

end Sys2Proof.Machine
end

