-- ==== Sys2Proof/Machine/Syscall.lean ====
section
/-! DEFINITION. The SYSCALL instruction and the seven system calls (spec/45_heap_syscall.md rules R236 to R242, R254). -/

namespace Sys2Proof.Machine

/-- R240: the line cut to the input-buffer size less one, then the terminator. -/
def lineBytes (line : List Byte) : List Byte := line.take (cfg.inbufSize - 1) ++ [cfg.lineTerminator]

/-- R240: all bytes are checked before any is written; A receives how many were written. -/
def storeLine (line : List Byte) (s : State) : Result :=
  if allValid validGuest s.b.toNat (lineBytes line).length then
    .next { s with
      mem := s.mem.writeBytes s.b.toNat (lineBytes line)
      a := BitVec.ofNat 16 (lineBytes line).length }
  else .next (raise .segmentation s)

/-- R238, R240: syscall 0x13, read line. A host that never answers leaves the machine in this SYSCALL: there is no later
state (I11). -/
def readLine (s : State) : Result :=
  match nextAnswer s with
  | .never => .fault .awaitingLine
  | .line bytes => storeLine bytes (takeAnswer s)

/-- R241, R242: the A bytes at B as one output event, all addresses checked first. -/
def printBytes (event : List Byte → OutEvent) (s : State) : Result :=
  if allValid validGuest s.b.toNat s.a.toNat then
    .next { s with out := s.out ++ [event (s.mem.readBytes s.b.toNat s.a.toNat)] }
  else .next (raise .segmentation s)

/-- R254: syscall 0x20, free; an unknown address aborts and is not vectored (R302). -/
def freeBlock (s : State) : Result :=
  match locate s.b.toNat s.heap with
  | some _ => .next { s with heap := removeBlock s.b.toNat s.heap }
  | none => .next (abort .unknownHeapAddress s)

/-- R236: the seven system calls; any other number raises SystemFault (R237). -/
def systemCall (n : Word) (s : State) : Result :=
  if n = 0x0013 then readLine s
  else if n = 0x0014 then printBytes .str s
  else if n = 0x0015 then printBytes .hex s
  else if n = 0x0020 then freeBlock s
  else if n = 0x0021 then .next (allocateInto s.a.toNat s)
  else if n = 0x0022 then orRaise (reallocate s.b.toNat s.a.toNat false s) s .next
  else if n = 0x0023 then orRaise (reallocate s.b.toNat s.a.toNat true s) s .next
  else .next (raise .systemFault s)

/-- R236. -/
def execSyscall (op : Operand) (s : State) : Result := withValue op s systemCall

end Sys2Proof.Machine
end

