-- ==== Sys2Proof/Machine/Dispatch.lean ====
section
/-! DEFINITION. The dispatcher's execute part (R280): one arm per instruction. `exec i s` is entered with PC at the
opcode byte and leaves PC at the last byte consumed, or one before the destination of a transfer; `step` adds the end of
the cycle. -/

namespace Sys2Proof.Machine

def exec (i : Instr) (s : State) : Host.Outcome State Fault Refusal :=
  match i with
  | .noop => Sys2Proof.Machine.execNoop s
  | .loada op => Sys2Proof.Machine.execLoada op s
  | .storea op => Sys2Proof.Machine.execStorea op s
  | .loadb op => Sys2Proof.Machine.execLoadb op s
  | .storeb op => Sys2Proof.Machine.execStoreb op s
  | .loadx op => Sys2Proof.Machine.execLoadx op s
  | .storex op => Sys2Proof.Machine.execStorex op s
  | .loady op => Sys2Proof.Machine.execLoady op s
  | .storey op => Sys2Proof.Machine.execStorey op s
  | .addca op => Sys2Proof.Machine.execAddca op s
  | .subca op => Sys2Proof.Machine.execSubca op s
  | .multa op => Sys2Proof.Machine.execMulta op s
  | .multua op => Sys2Proof.Machine.execMultua op s
  | .diva op => Sys2Proof.Machine.execDiva op s
  | .divua op => Sys2Proof.Machine.execDivua op s
  | .anda op => Sys2Proof.Machine.execAnda op s
  | .ora op => Sys2Proof.Machine.execOra op s
  | .xora op => Sys2Proof.Machine.execXora op s
  | .lsl op => Sys2Proof.Machine.execLsl op s
  | .lsr op => Sys2Proof.Machine.execLsr op s
  | .rol op => Sys2Proof.Machine.execRol op s
  | .ror op => Sys2Proof.Machine.execRor op s
  | .inca => Sys2Proof.Machine.execInca s
  | .deca => Sys2Proof.Machine.execDeca s
  | .incb => Sys2Proof.Machine.execIncb s
  | .decb => Sys2Proof.Machine.execDecb s
  | .incx => Sys2Proof.Machine.execIncx s
  | .decx => Sys2Proof.Machine.execDecx s
  | .incy => Sys2Proof.Machine.execIncy s
  | .decy => Sys2Proof.Machine.execDecy s
  | .cmpa op => Sys2Proof.Machine.execCmpa op s
  | .cmpb op => Sys2Proof.Machine.execCmpb op s
  | .cmpx op => Sys2Proof.Machine.execCmpx op s
  | .cmpy op => Sys2Proof.Machine.execCmpy op s
  | .clc => Sys2Proof.Machine.execClc s
  | .sec => Sys2Proof.Machine.execSec s
  | .jmp op => Sys2Proof.Machine.execJmp op s
  | .brz op => Sys2Proof.Machine.execBrz op s
  | .brnz op => Sys2Proof.Machine.execBrnz op s
  | .brc op => Sys2Proof.Machine.execBrc op s
  | .brnc op => Sys2Proof.Machine.execBrnc op s
  | .jsr op => Sys2Proof.Machine.execJsr op s
  | .rts => Sys2Proof.Machine.execRts s
  | .pha => Sys2Proof.Machine.execPha s
  | .pla => Sys2Proof.Machine.execPla s
  | .phb => Sys2Proof.Machine.execPhb s
  | .plb => Sys2Proof.Machine.execPlb s
  | .fadda op => Sys2Proof.Machine.execFadda op s
  | .fsuba op => Sys2Proof.Machine.execFsuba op s
  | .fmulta op => Sys2Proof.Machine.execFmulta op s
  | .fdiva op => Sys2Proof.Machine.execFdiva op s
  | .syscall op => Sys2Proof.Machine.execSyscall op s
  | .halt => Sys2Proof.Machine.execHalt s

end Sys2Proof.Machine
end

