-- ==== Sys2Proof/Machine/Fetch.lean ====
section
/-! DEFINITION. Fetching an instruction's bytes (R69, R120), and the cycle of an instruction that is not executed because
its bytes do not decode (R101, R102) or cannot be fetched (R69). -/

namespace Sys2Proof.Machine

/-- The bytes that can be fetched from an address on, up to `n` of them, stopping at the first that cannot (R69). -/
def fetchBytes (m : Memory) : Nat → Word → List Byte
  | 0, _ => []
  | n + 1, p =>
    match progFetch p m with
    | .error _ => []
    | .ok v => v :: fetchBytes m n (p + 1)

/-- The instruction at PC. The longest instruction has four bytes (R90); looking at all of them first changes nothing,
since a fetch has no side effect (R72; assumption log 13). -/
def fetchDecode (s : State) : Decoded := decode (fetchBytes s.mem 4 s.pc)

/-- R308: the signal and the value of PC for bytes that are no instruction: an unassigned opcode leaves PC at the opcode,
an illegal mode byte at the last byte consumed, and a byte that cannot be fetched at that byte's address. -/
def rejected (d : Decoded) (s : State) : State :=
  match d with
  | .instr _ _ => s
  | .unknownOpcode => raise .illegalInstruction s
  | .illegalMode length => raise .illegalInstruction (s.advance (length - 1))
  | .illegalCombination length => raise .illegalInstruction (s.advance (length - 1))
  | .truncated missing => raise .segmentation (s.advance missing)

/-- The end of the cycle applied to an instruction's outcome (R280). -/
def finishCycle (r : Result) : Result :=
  match r with
  | .next s => .next (endCycle s)
  | .fault e => .fault e
  | .refused e => .refused e

/-- A table word's bytes stored at PC, where the next instruction is fetched. -/
def placeAtPc (bytes : List Byte) (s : State) : State :=
  { s with mem := s.mem.writeBytes s.pc.toNat bytes }

end Sys2Proof.Machine
end

