-- ==== Sys2Proof/Machine/Step.lean ====
section
/-! DEFINITION. One cycle of the machine (R280), and a table word placed where the next instruction is fetched. -/

namespace Sys2Proof.Machine

/-- R280: fetch, execute, end of cycle, for a Running machine with no host request. -/
def cycle (s : State) : Result :=
  match fetchDecode s with
  | .instr i _ => finishCycle (exec i s)
  | .unknownOpcode => .next (endCycle (rejected .unknownOpcode s))
  | .illegalMode n => .next (endCycle (rejected (.illegalMode n) s))
  | .illegalCombination n => .next (endCycle (rejected (.illegalCombination n) s))
  | .truncated k => .next (endCycle (rejected (.truncated k) s))

/-- R280: one step. Only a Running machine has one (R43). Kill comes before Reset, and both before the fetch (R281,
R312); neither is followed by the increment of PC. -/
def step (s : State) : Host.Outcome State Fault Refusal :=
  match s.run with
  | .halted => .fault .halted
  | .aborted _ _ _ => .fault .aborted
  | .running =>
    if (nextRequest s).kill then .next (raise .kill (takeRequest s))
    else if (nextRequest s).reset then .next (raise .reset (takeRequest s))
    else cycle (takeRequest s)

/-- The instruction of a table word stored at PC (all four bytes of the longest instruction, the bits above `nbits`
zero). On a Running machine without a host request whose PC is in the program region, the next step runs exactly it. It
stands for the loading of the image at construction (R344; assumption log 2). -/
def State.withFetchWord (s : State) (nbits w : Nat) : State := placeAtPc (tableBytes nbits w) s

end Sys2Proof.Machine
end

