-- ==== Sys2Proof/Machine/Construct.lean ====
section
/-! DEFINITION. Construction of a machine from a program image (spec/70_reset_and_hazards.md rules R344 and R345). -/

namespace Sys2Proof.Machine

/-- R345: why a construction fails; a failed construction produces no machine. `truncatedStream` is decision D39. -/
inductive ConstructionError where
  | truncatedStream
  | incompatibleWordsize
  | emptyProgram
  | oversizedProgram
  deriving DecidableEq, Repr

/-- The big-endian number of a byte string. -/
def bigEndian (bytes : List Byte) : Nat := bytes.foldl (fun acc v => acc * 256 + v.toNat) 0

/-- R344: the declared program length, the four bytes after the tag. -/
def declaredLength (stream : List Byte) : Nat := bigEndian ((stream.drop 1).take 4)

/-- R344: the program bytes. -/
def programBytes (stream : List Byte) : List Byte := (stream.drop 5).take (declaredLength stream)

/-- R344: the program loaded verbatim at the bottom of the program region of a machine in its reset state. -/
def loadImage (program : List Byte) : State :=
  { State.reset with mem := Memory.writeBytes [] cfg.prgBottom program }

/-- R344: `construct(s)`, with its checks in their order. -/
def construct (stream : List Byte) : Except ConstructionError State :=
  if stream.length < 5 then .error .truncatedStream
  else if (stream.headD 0).toNat ≠ cfg.wordSize then .error .incompatibleWordsize
  else if declaredLength stream = 0 then .error .emptyProgram
  else if cfg.prgTop - cfg.prgBottom + 1 < declaredLength stream then .error .oversizedProgram
  else if stream.length < 5 + declaredLength stream then .error .truncatedStream
  else .ok (loadImage (programBytes stream))

end Sys2Proof.Machine
end

