-- ==== Sys2Proof/Safety.lean ====
section
/-! DEFINITION. The invariant of the machine (R34, R38, R39, R42, R43, R61) and the words the claims use. -/

namespace Sys2Proof.Machine

/-- R41: every listed address lies in the 64K address space. -/
abbrev Memory.inRange (m : Memory) : Prop := ∀ c ∈ m, c.1 < cfg.memSize

/-- R38: the legal values of SP: inside the data-stack region, with the parity of its top. -/
abbrev legalSp (sp : Word) : Prop :=
  cfg.stackFloor ≤ sp.toNat ∧ sp.toNat ≤ cfg.stackTop ∧ sp.toNat % 2 = cfg.stackTop % 2

/-- R39: the legal values of CALL_SP, by the same conventions. -/
abbrev legalCallSp (sp : Word) : Prop :=
  cfg.callFloor ≤ sp.toNat ∧ sp.toNat ≤ cfg.callTop ∧ sp.toNat % 2 = cfg.callTop % 2

/-- R43, R283, R304: a Running machine has H clear, a Halted or Aborted one has it set, and an abort report holds the
PC and STATUS the machine stopped with. -/
def runConsistent (s : State) : Prop :=
  match s.run with
  | .running => s.status.h = false
  | .halted => s.status.h = true
  | .aborted _ pc status => s.status.h = true ∧ pc = s.pc ∧ status = s.status

/-- What holds of the machine at every cycle boundary. -/
structure Invariant (s : State) : Prop where
  /-- The memory list is in its canonical form. -/
  canonical : s.mem.wf
  /-- No address beyond the address space is listed. -/
  inRange : s.mem.inRange
  /-- R61: the null guard holds 0x0000. -/
  nullGuard : s.mem.read cfg.nullLo = 0 ∧ s.mem.read cfg.nullHi = 0
  /-- R34, R38. -/
  sp : legalSp s.sp
  /-- R34, R39. -/
  callSp : legalCallSp s.callSp
  /-- R42, R250: the heap list is ordered and non-overlapping inside the heap region. -/
  heap : s.heap.ok = true
  /-- R37, R313: U, I and F stay clear. -/
  reserved : s.status.u = false ∧ s.status.i = false ∧ s.status.f = false
  /-- R43. -/
  run : runConsistent s

/-- A safe run so far: the machine has not been aborted (R43). -/
def notAborted (s : State) : Prop := ∀ kind pc status, s.run ≠ .aborted kind pc status

end Sys2Proof.Machine

namespace Sys2Proof.Claims

open Sys2Proof Sys2Proof.Machine

/-- The load instruction of a register: LOADA, LOADB, LOADX, LOADY. -/
def loadOf : Reg → Operand → Instr
  | .a => .loada
  | .b => .loadb
  | .x => .loadx
  | .y => .loady

/-- The store instruction of a register: STOREA, STOREB, STOREX, STOREY. -/
def storeOf : Reg → Operand → Instr
  | .a => .storea
  | .b => .storeb
  | .x => .storex
  | .y => .storey

/-- The compare instruction of a register: CMPA, CMPB, CMPX, CMPY. -/
def compareOf : Reg → Operand → Instr
  | .a => .cmpa
  | .b => .cmpb
  | .x => .cmpx
  | .y => .cmpy

/-- The increment of a register: INCA, INCB, INCX, INCY. -/
def incrementOf : Reg → Instr
  | .a => .inca
  | .b => .incb
  | .x => .incx
  | .y => .incy

/-- The decrement of a register: DECA, DECB, DECX, DECY. -/
def decrementOf : Reg → Instr
  | .a => .deca
  | .b => .decb
  | .x => .decx
  | .y => .decy

/-- An address a guest access may touch, with the numbers of the address map (R60, R65). -/
def guestByte (a : Nat) : Prop := (0x0002 ≤ a ∧ a ≤ 0x23FF) ∨ (0xF000 ≤ a ∧ a ≤ 0xFFFF)

/-- Every byte of a `n`-byte access is one a guest may touch. -/
def guestRange (a n : Nat) : Prop := ∀ k, k < n → guestByte (a + k)

/-- R101: the opcode bytes that are assigned to no instruction, as the rule lists them. -/
def unassignedOpcode (n : Nat) : Prop :=
  (0x09 ≤ n ∧ n ≤ 0x0F) ∨ n = 0x16 ∨ n = 0x17 ∨ (0x1B ≤ n ∧ n ≤ 0x1F) ∨ (0x24 ≤ n ∧ n ≤ 0x27)
    ∨ (0x34 ≤ n ∧ n ≤ 0x37) ∨ (0x3A ≤ n ∧ n ≤ 0x3F) ∨ (0x45 ≤ n ∧ n ≤ 0x47) ∨ (0x4A ≤ n ∧ n ≤ 0x4F)
    ∨ (0x54 ≤ n ∧ n ≤ 0x5F) ∨ (0x64 ≤ n ∧ n ≤ 0x6F) ∨ (0x71 ≤ n ∧ n ≤ 0xFE)

/-- An address in the program region (R60, R69). -/
def programByte (a : Nat) : Prop := 0x2600 ≤ a ∧ a ≤ 0xEFFF

/-- R306: the target is the handler that one of the vectored signals' slots, 2 to 5, names. -/
def isHandler (m : Memory) (target : Word) : Prop :=
  ∃ k, 2 ≤ k ∧ k ≤ 5 ∧ target ≠ 0 ∧ target = m.read (0x0002 + 2 * k) ++ m.read (0x0002 + 2 * k + 1)

/-- The state with PC moved over `n` bytes of the instruction and nothing else changed. -/
def pcPlus (s : State) (n : Nat) : State := { s with pc := s.pc + BitVec.ofNat 16 n }

/-- The state with N and Z set from a result and the other flags unchanged (R9). -/
def zn (t : Status) (r : Word) : Status := { t with z := decide (r = 0), n := r.getLsbD 15 }

/-- A Running machine whose coming cycle has no host request: it fetches and executes. -/
def executes (s : State) : Prop := s.run = .running ∧ nextRequest s = { kill := false, reset := false }

/-- The bytes of memory from an address on are exactly these. -/
def bytesAt (m : Memory) (a : Nat) (bytes : List Byte) : Prop :=
  ∀ k (h : k < bytes.length), m.read (a + k) = bytes[k]

/-- Two memories agree outside the `n` bytes from `a` on. -/
def sameOutside (m m' : Memory) (a n : Nat) : Prop := ∀ x, x < a ∨ a + n ≤ x → m'.read x = m.read x

/-- A `n`-byte place at an address is disjoint from a live allocation. -/
def apart (q n : Nat) (o : Block) : Prop := q + n ≤ o.start ∨ o.start + o.size ≤ q

/-- An address where a new block of `n` bytes fits: inside the heap region and apart from every live allocation. -/
def fits (h : Heap) (n q : Nat) : Prop :=
  cfg.heapFloor ≤ q ∧ q + n ≤ cfg.heapCeil ∧ ∀ o ∈ h, apart q n o

/-- Push words on the data stack, first word first. -/
def pushAll : List Word → State → Except Signal State
  | [], s => .ok s
  | w :: ws, s => (pushData w s).bind (pushAll ws)

/-- Pop `n` words from the data stack, in the order they come. -/
def popAll : Nat → State → Except Signal (List Word × State)
  | 0, s => .ok ([], s)
  | n + 1, s => (popData s).bind (fun p => (popAll n p.2).map (fun q => (p.1 :: q.1, q.2)))

/-- One shift or rotate (R185) on its three kinds of location, by its value and its carry out. On a memory word the new
value is written where the old one was read, and a word that is not guest-accessible is a Segmentation fault. -/
def shiftRule (mk : Operand → Instr) (value : Word → Bool → Word) (carry : Word → Bool) : Prop :=
  (∀ s, exec (mk .registerA) s = .next { pcPlus s 1 with
      a := value s.a s.status.c
      status := { zn s.status (value s.a s.status.c) with c := carry s.a } })
  ∧ (∀ s, exec (mk .registerB) s = .next { pcPlus s 1 with
      b := value s.b s.status.c
      status := { zn s.status (value s.b s.status.c) with c := carry s.b } })
  ∧ (∀ m addr s ea, effectiveAddress m addr s = .ok ea → guestRange ea 2 →
      ∃ mem', exec (mk (.memory m false addr)) s = .next { pcPlus s 3 with
          mem := mem'
          status := { zn s.status (value (s.mem.read ea ++ s.mem.read (ea + 1)) s.status.c) with
            c := carry (s.mem.read ea ++ s.mem.read (ea + 1)) } }
        ∧ mem'.read ea ++ mem'.read (ea + 1) = value (s.mem.read ea ++ s.mem.read (ea + 1)) s.status.c
        ∧ sameOutside s.mem mem' ea 2)
  ∧ (∀ m addr s ea, effectiveAddress m addr s = .ok ea → ¬ guestRange ea 2 →
      exec (mk (.memory m false addr)) s = .next (abort .segmentationFault (pcPlus s 3)))
  ∧ (∀ m addr s sg, effectiveAddress m addr s = .error sg →
      exec (mk (.memory m false addr)) s = .next (abort .segmentationFault (pcPlus s 3)))

end Sys2Proof.Claims
end

