-- ==== Sys2Proof/Certificates/Slice0/Obligations.lean ====
section
/-! DEFINITION. The statements about the model, for the provers. `pcPlus s n` is the state with PC moved to the last of
`n` further bytes: `exec` leaves PC at the instruction's last byte, and the end of the cycle (`endCycle`) adds one. -/

open Sys2Proof Sys2Proof.Machine Sys2Proof.Claims

/-! ## Encoding -/

/-- R100, R96: the opcode byte of each of the fifty-three instructions, class by class with an operand of every value, and
one written-out word of every family. -/
def Obligations.SampleWordsDecode : Prop :=
  (∀ b i, (b, i) ∈ [((0x00 : Byte), Instr.noop), (0x28, .inca), (0x29, .deca), (0x2A, .incb), (0x2B, .decb),
      (0x2C, .incx), (0x2D, .decx), (0x2E, .incy), (0x2F, .decy), (0x38, .clc), (0x39, .sec),
      (0x49, .rts), (0x50, .pha), (0x51, .pla), (0x52, .phb), (0x53, .plb), (0xFF, .halt)] →
      decode [b] = .instr i 1)
  ∧ (∀ b mk (hi lo : Byte), (b, mk) ∈ [((0x01 : Byte), Instr.loada), (0x03, .loadb), (0x05, .loadx),
      (0x07, .loady), (0x10, .addca), (0x11, .subca), (0x12, .multa), (0x13, .multua), (0x14, .diva), (0x15, .divua), (0x18, .anda),
      (0x19, .ora), (0x1A, .xora), (0x30, .cmpa), (0x31, .cmpb), (0x32, .cmpx), (0x33, .cmpy),
      (0x60, .fadda), (0x61, .fsuba), (0x62, .fmulta), (0x63, .fdiva), (0x70, .syscall)] →
      decode [b, 0x03, hi, lo] = .instr (mk (.immediate (hi ++ lo))) 4)
  ∧ (∀ b mk (hi lo : Byte), (b, mk) ∈ [((0x02 : Byte), Instr.storea), (0x04, .storeb), (0x06, .storex),
      (0x08, .storey)] →
      decode [b, 0x00, hi, lo] = .instr (mk (.memory .absolute false (hi ++ lo))) 4)
  ∧ (∀ b mk (hi lo : Byte), (b, mk) ∈ [((0x20 : Byte), Instr.lsl), (0x21, .lsr), (0x22, .rol), (0x23, .ror)] →
      decode [b, 0x00, hi, lo] = .instr (mk (.memory .absolute false (hi ++ lo))) 4)
  ∧ (∀ b mk (hi lo : Byte), (b, mk) ∈ [((0x40 : Byte), Instr.jmp), (0x41, .brz), (0x42, .brnz), (0x43, .brc),
      (0x44, .brnc), (0x48, .jsr)] →
      decode [b, 0x00, hi, lo] = .instr (mk (.memory .absolute false (hi ++ lo))) 4)
  ∧ decode [0x00] = .instr .noop 1
  ∧ decode [0x01, 0x03, 0x00, 0x05] = .instr (.loada (.immediate 0x0005)) 4
  ∧ decode [0x02, 0x11, 0x03, 0x00] = .instr (.storea (.memory .xIndexed true 0x0300)) 4
  ∧ decode [0x10, 0x05, 0x12, 0x34] = .instr (.addca (.memory .indirectIndexedY false 0x1234)) 4
  ∧ decode [0x14, 0x09] = .instr (.diva .registerB) 2
  ∧ decode [0x1A, 0x16, 0x00, 0xFF] = .instr (.xora (.memory .indexedIndirectX true 0x00FF)) 4
  ∧ decode [0x20, 0x08] = .instr (.lsl .registerA) 2
  ∧ decode [0x2D] = .instr .decx 1
  ∧ decode [0x31, 0x02, 0x02, 0x00] = .instr (.cmpb (.memory .yIndexed false 0x0200)) 4
  ∧ decode [0x39] = .instr .sec 1
  ∧ decode [0x48, 0x00, 0x26, 0x0B] = .instr (.jsr (.memory .absolute false 0x260B)) 4
  ∧ decode [0x52] = .instr .phb 1
  ∧ decode [0x63, 0x03, 0x40, 0x00] = .instr (.fdiva (.immediate 0x4000)) 4
  ∧ decode [0x70, 0x03, 0x00, 0x21] = .instr (.syscall (.immediate 0x0021)) 4
  ∧ decode [0xFF] = .instr .halt 1

/-- R90 to R103: decoding the bytes of any well-formed instruction, whatever follows them, gives it back with its length. -/
def Obligations.DecodeOfEncodeIsIdentity : Prop :=
  ∀ (i : Instr) (rest : List Byte), i.wellFormed = true →
    decode (encode i ++ rest) = .instr i (encode i).length

/-- R91, R102: whatever decodes is a well-formed instruction, and the bytes it was decoded from are its encoding. -/
def Obligations.EncodeOfDecodeIsIdentity : Prop :=
  ∀ (bytes : List Byte) (i : Instr) (n : Nat), decode bytes = .instr i n →
    i.wellFormed = true ∧ (encode i).length = n ∧ bytes.take n = encode i

/-- R101: exactly the listed opcode bytes are unassigned; executing one raises IllegalInstruction with PC at the opcode,
and no further byte is consumed. -/
def Obligations.UnassignedOpcodesAreIllegal : Prop :=
  (∀ (b : Byte) (rest : List Byte), decode (b :: rest) = .unknownOpcode ↔ unassignedOpcode b.toNat)
  ∧ ∀ s, executes s → programByte s.pc.toNat → unassignedOpcode (s.mem.read s.pc.toNat).toNat →
      step s = .next (endCycle (raise .illegalInstruction (takeRequest s)))

/-- R97, R96: exactly seventeen mode bytes are legal; the short flag is the comparison with the short base, and the tag is
what is left below it. What each of the seventeen stands for, with the operand word it takes. -/
def Obligations.SeventeenModeBytesAreLegal : Prop :=
  (∀ (mb : Byte) (w : Word), decodeMode mb w ≠ none ↔
    mb.toNat ∈ [0x00, 0x01, 0x02, 0x03, 0x04, 0x05, 0x06, 0x07, 0x08, 0x09, 0x10, 0x11, 0x12, 0x14, 0x15, 0x16, 0x17])
  ∧ (∀ (mb : Byte) (w : Word) m short addr, decodeMode mb w = some (.memory m short addr) →
      addr = w ∧ short = decide (0x10 ≤ mb.toNat)
        ∧ (cfg.modeTag (.memory m)).toNat = if short then mb.toNat - 0x10 else mb.toNat)
  ∧ ∀ w, decodeMode 0x03 w = some (.immediate w) ∧ decodeMode 0x08 w = some .registerA
      ∧ decodeMode 0x09 w = some .registerB
      ∧ decodeMode 0x00 w = some (.memory .absolute false w)
      ∧ decodeMode 0x10 w = some (.memory .absolute true w)
      ∧ decodeMode 0x01 w = some (.memory .xIndexed false w)
      ∧ decodeMode 0x11 w = some (.memory .xIndexed true w)
      ∧ decodeMode 0x02 w = some (.memory .yIndexed false w)
      ∧ decodeMode 0x12 w = some (.memory .yIndexed true w)
      ∧ decodeMode 0x04 w = some (.memory .indirectIndexedX false w)
      ∧ decodeMode 0x14 w = some (.memory .indirectIndexedX true w)
      ∧ decodeMode 0x05 w = some (.memory .indirectIndexedY false w)
      ∧ decodeMode 0x15 w = some (.memory .indirectIndexedY true w)
      ∧ decodeMode 0x06 w = some (.memory .indexedIndirectX false w)
      ∧ decodeMode 0x16 w = some (.memory .indexedIndirectX true w)
      ∧ decodeMode 0x07 w = some (.memory .indexedIndirectY false w)
      ∧ decodeMode 0x17 w = some (.memory .indexedIndirectY true w)

/-- R102: in a `MOD`-format instruction a mode byte that is not legal, or is legal but not in the instruction's class,
raises IllegalInstruction with PC at the last byte consumed: p + 1 for the bytes 0x08 and 0x09, p + 3 for all others. -/
def Obligations.IllegalModeBytesRaise : Prop :=
  ∀ s c mk, executes s → (∀ k, k < 4 → programByte (s.pc.toNat + k)) →
    opcodeForm (s.mem.read s.pc.toNat) = some (.withOperand c mk) →
    (∀ w op, decodeMode (s.mem.read (s.pc.toNat + 1)) w = some op → op.inClass c = false) →
    step s = .next (endCycle (raise .illegalInstruction (pcPlus (takeRequest s)
      (if s.mem.read (s.pc.toNat + 1) = 0x08 ∨ s.mem.read (s.pc.toNat + 1) = 0x09 then 1 else 3))))

/-- R102 at the level of `exec` (assumption log 10): an instruction whose operand is outside its class raises
IllegalInstruction with PC at its last byte and does nothing else. -/
def Obligations.IllFormedInstructionsRaise : Prop :=
  ∀ i s, i.wellFormed = false → exec i s = .next (raise .illegalInstruction (pcPlus s (i.length - 1)))

/-! ## The cycle and the host -/

/-- R280: when the bytes fetched at PC decode to an instruction, a step is `exec` of it followed by the end of the cycle:
PC is incremented once unless the run was aborted, and a set halt flag ends the run. -/
def Obligations.StepRunsTheDecodedInstruction : Prop :=
  ∀ s i n, executes s → decode (fetchBytes s.mem 4 s.pc) = .instr i n →
    (∀ t, exec i (takeRequest s) = .next t → t.run = .running →
      step s = .next { t with pc := t.pc + 1, run := if t.status.h then .halted else .running })
    ∧ (∀ t, exec i (takeRequest s) = .next t → t.run ≠ .running → step s = .next t)
    ∧ (∀ e, exec i (takeRequest s) = .fault e → step s = .fault e)

/-- R33, R280: when the bytes at PC, all in the program region, are the encoding of a well-formed instruction, a step is
`exec` of it followed by the end of the cycle. -/
def Obligations.StepRunsTheEncodedInstruction : Prop :=
  ∀ s i, executes s → i.wellFormed = true → bytesAt s.mem s.pc.toNat (encode i) →
    (∀ k, k < (encode i).length → programByte (s.pc.toNat + k)) →
    step s = finishCycle (exec i (takeRequest s))

/-- R69, R304, R308: a PC outside the program region aborts with Segmentation at that PC, and an instruction that runs off
the end of the region aborts with PC at the first byte that could not be fetched. The record of the abort is written out:
H is set and the run is Aborted with the kind, the PC and the STATUS with H set; and so it is for every kind. -/
def Obligations.FetchOutsideTheImageAborts : Prop :=
  (∀ s, executes s → ¬ programByte s.pc.toNat → step s = .next { s with
      status := { s.status with h := true }
      run := .aborted .segmentationFault s.pc { s.status with h := true }
      requests := s.requests.tail })
  ∧ (∀ kind s, abort kind s = { s with
      status := { s.status with h := true }
      run := .aborted kind s.pc { s.status with h := true } })
  ∧ ∀ s c mk k, executes s → programByte s.pc.toNat →
      opcodeForm (s.mem.read s.pc.toNat) = some (.withOperand c mk) →
      1 ≤ k → k ≤ 3 → s.pc.toNat + k = 0xF000 →
      (k = 1 ∨ (s.mem.read (s.pc.toNat + 1) ≠ 0x08 ∧ s.mem.read (s.pc.toNat + 1) ≠ 0x09)) →
      step s = .next { s with
        pc := 0xF000
        status := { s.status with h := true }
        run := .aborted .segmentationFault 0xF000 { s.status with h := true }
        requests := s.requests.tail }

/-- R43: Halted and Aborted are terminal; a machine in either has no step, whatever the host requests. -/
def Obligations.TerminalRunsHaveNoStep : Prop :=
  (∀ s, s.run = .halted → step s = .fault .halted)
  ∧ ∀ s kind pc status, s.run = .aborted kind pc status → step s = .fault .aborted

/-- R281, R312: a Kill request aborts before the fetch, with PC at the instruction not executed, and has priority over
Reset. -/
def Obligations.KillRequestAborts : Prop :=
  ∀ s, s.run = .running → (nextRequest s).kill = true →
    step s = .next { s with
      status := { s.status with h := true }
      run := .aborted .kill s.pc { s.status with h := true }
      requests := s.requests.tail }

/-- R342, with the request from the model's list (assumption log 3), which the cycle uses up: the reset signal zeroes
STATUS, sets PC, SP and CALL_SP to their initial values and empties the heap list; registers, memory, output and the run
state stay, PC is not incremented, and no terminal machine is revived. -/
def Obligations.ResetRequestReinitialises : Prop :=
  (∀ s, s.run = .running → (nextRequest s).kill = false → (nextRequest s).reset = true →
    ∃ t, step s = .next t
      ∧ t = { s with
          status := t.status
          pc := 0x2600
          sp := 0x23FF
          callSp := 0x25FF
          heap := []
          requests := s.requests.tail }
      ∧ t.status.toByte = 0x00)
  ∧ ∀ s, s.run ≠ .running → ∀ t, step s ≠ .next t

/-- R304, R315: an instruction that ends in an abort has changed nothing but PC, H and the run state; the report holds
the final PC and STATUS. -/
def Obligations.AbortsArePrecise : Prop :=
  ∀ i s t kind pc status, s.run = .running → exec i s = .next t → t.run = .aborted kind pc status →
    pc = t.pc ∧ status = t.status ∧ t.status = { s.status with h := true }
    ∧ t.a = s.a ∧ t.b = s.b ∧ t.x = s.x ∧ t.y = s.y ∧ t.sp = s.sp ∧ t.callSp = s.callSp
    ∧ t.mem = s.mem ∧ t.heap = s.heap ∧ t.out = s.out

/-- R306, R309: what taking a vectored signal does, by its number, slot address and kind. A zero vector aborts with the
signal's kind; without room on the call stack the run aborts with StackFault; else PC is pushed on the call stack and the
cycle ends with PC at the vector, the run still Running and nothing else changed. -/
def Obligations.TrapEntry : Prop :=
  ∀ sg k kind, (sg, k, kind) ∈ [(Signal.illegalInstruction, 2, ErrorKind.illegalInstruction),
      (Signal.arithmeticFault, 3, ErrorKind.arithmeticFault), (Signal.stackFault, 4, ErrorKind.stackFault),
      (Signal.systemFault, 5, ErrorKind.systemFault)] →
    ∀ (s : State) (v : Word), v = s.mem.read (0x0002 + 2 * k) ++ s.mem.read (0x0002 + 2 * k + 1) →
      (v = 0 → raise sg s = { s with
        status := { s.status with h := true }
        run := .aborted kind s.pc { s.status with h := true } })
      ∧ (v ≠ 0 → s.callSp.toNat < 0x2402 → raise sg s = { s with
          status := { s.status with h := true }
          run := .aborted .stackFault s.pc { s.status with h := true } })
      ∧ (v ≠ 0 → 0x2402 ≤ s.callSp.toNat →
          ∃ mem', raise sg s = { s with pc := v - 1, callSp := s.callSp - 2, mem := mem' }
            ∧ (mem'.read s.callSp.toNat).toNat = s.pc.toNat / 256
            ∧ (mem'.read (s.callSp.toNat - 1)).toNat = s.pc.toNat % 256
            ∧ sameOutside s.mem mem' (s.callSp.toNat - 1) 2
            ∧ (s.run = .running → s.status.h = false →
                (endCycle (raise sg s)).pc = v ∧ (endCycle (raise sg s)).run = .running))

/-- Every instruction answers a next state in every state; only SYSCALL can stop, on a console read that the host never
answers (R238, I11; assumption log 6). -/
def Obligations.EveryInstructionCompletes : Prop :=
  ∀ i s, (∃ t, exec i s = .next t)
    ∨ (exec i s = .fault .awaitingLine ∧ ∃ op, i = .syscall op ∧ resolveLoad op s = .ok 0x0013
        ∧ nextAnswer s = .never)

/-! ## Memory access and operands -/

/-- R66, R67: a guest access succeeds exactly when every byte it touches is guest-valid; a word is big-endian, a byte is
zero-extended, a byte store writes the low byte, and no other byte changes. -/
def Obligations.GuestAccessRules : Prop :=
  (∀ a m, guestRange a 2 → memRead .word a m = .ok (m.read a ++ m.read (a + 1)))
  ∧ (∀ a m, guestRange a 1 → ∃ v : Word, memRead .byte a m = .ok v ∧ v.toNat = (m.read a).toNat)
  ∧ (∀ a v m, guestRange a 2 → ∃ m', memWrite .word a v m = .ok m' ∧ (m'.read a).toNat = v.toNat / 256
      ∧ (m'.read (a + 1)).toNat = v.toNat % 256 ∧ sameOutside m m' a 2)
  ∧ (∀ a v m, guestRange a 1 → ∃ m', memWrite .byte a v m = .ok m' ∧ (m'.read a).toNat = v.toNat % 256
      ∧ sameOutside m m' a 1)
  ∧ ∀ (w : Width) a v m, ¬ guestRange a w.bytes →
      memRead w a m = .error .segmentation ∧ memWrite w a v m = .error .segmentation

/-- R123: the effective address of every memory tag, an unbounded sum; the pointer of the indirect forms is a full guest
word, and a pointer read that is not valid raises Segmentation. -/
def Obligations.EffectiveAddresses : Prop :=
  ∀ (addr : Word) (s : State),
    effectiveAddress .absolute addr s = .ok addr.toNat
    ∧ effectiveAddress .xIndexed addr s = .ok (addr.toNat + s.x.toNat)
    ∧ effectiveAddress .yIndexed addr s = .ok (addr.toNat + s.y.toNat)
    ∧ (guestRange addr.toNat 2 →
        effectiveAddress .indirectIndexedX addr s
          = .ok ((s.mem.read addr.toNat).toNat * 256 + (s.mem.read (addr.toNat + 1)).toNat + s.x.toNat)
        ∧ effectiveAddress .indirectIndexedY addr s
          = .ok ((s.mem.read addr.toNat).toNat * 256 + (s.mem.read (addr.toNat + 1)).toNat + s.y.toNat))
    ∧ (¬ guestRange addr.toNat 2 →
        effectiveAddress .indirectIndexedX addr s = .error .segmentation
        ∧ effectiveAddress .indirectIndexedY addr s = .error .segmentation)
    ∧ (∀ q, q = addr.toNat + s.x.toNat → guestRange q 2 →
        effectiveAddress .indexedIndirectX addr s
          = .ok ((s.mem.read q).toNat * 256 + (s.mem.read (q + 1)).toNat))
    ∧ (∀ q, q = addr.toNat + s.y.toNat → guestRange q 2 →
        effectiveAddress .indexedIndirectY addr s
          = .ok ((s.mem.read q).toNat * 256 + (s.mem.read (q + 1)).toNat))
    ∧ (¬ guestRange (addr.toNat + s.x.toNat) 2 → effectiveAddress .indexedIndirectX addr s = .error .segmentation)
    ∧ (¬ guestRange (addr.toNat + s.y.toNat) 2 → effectiveAddress .indexedIndirectY addr s = .error .segmentation)

/-- R124: the value of every class-L operand form, and the signal where there is none. -/
def Obligations.LoadOperandValues : Prop :=
  ∀ s : State,
    (∀ v, resolveLoad (.immediate v) s = .ok v)
    ∧ resolveLoad .registerB s = .ok s.b
    ∧ resolveLoad .registerA s = .error .illegalInstruction
    ∧ (∀ m addr ea, effectiveAddress m addr s = .ok ea → guestRange ea 2 →
        resolveLoad (.memory m false addr) s = .ok (s.mem.read ea ++ s.mem.read (ea + 1)))
    ∧ (∀ m addr ea, effectiveAddress m addr s = .ok ea → guestRange ea 1 →
        ∃ v : Word, resolveLoad (.memory m true addr) s = .ok v ∧ v.toNat = (s.mem.read ea).toNat)
    ∧ (∀ m short addr ea, effectiveAddress m addr s = .ok ea → ¬ guestRange ea (if short then 1 else 2) →
        resolveLoad (.memory m short addr) s = .error .segmentation)
    ∧ ∀ m short addr sg, effectiveAddress m addr s = .error sg →
        resolveLoad (.memory m short addr) s = .error .segmentation

/-- R128, R140: for every instruction of class L, an operand that cannot be resolved raises its signal with PC at the
last operand byte, before anything else happens. -/
def Obligations.OperandFaultsComeFirst : Prop :=
  ∀ i op s sg, i.form = some (.value, op) → resolveLoad op s = .error sg →
    exec i s = .next (raise sg (pcPlus s op.extraBytes))

/-! ## Loads and stores -/

/-- R140 to R144: LOADA, LOADB, LOADX and LOADY write the operand's value to their register and change nothing else. -/
def Obligations.LoadsFillTheirRegister : Prop :=
  ∀ r op s v, resolveLoad op s = .ok v →
    ∃ t, exec (loadOf r op) s = .next t ∧ t.reg r = v ∧ (∀ q, q ≠ r → t.reg q = s.reg q)
      ∧ t = { pcPlus s op.extraBytes with a := t.a, b := t.b, x := t.x, y := t.y }

/-- R125, R145 to R148: STOREA, STOREB, STOREX and STOREY with a memory operand write the register at the effective
address, high byte first, or its low byte alone in a short mode, and change nothing else. -/
def Obligations.StoresWriteTheirAddress : Prop :=
  ∀ r m addr s ea, effectiveAddress m addr s = .ok ea →
    (guestRange ea 2 → ∃ mem', exec (storeOf r (.memory m false addr)) s = .next { pcPlus s 3 with mem := mem' }
      ∧ (mem'.read ea).toNat = (s.reg r).toNat / 256 ∧ (mem'.read (ea + 1)).toNat = (s.reg r).toNat % 256
      ∧ sameOutside s.mem mem' ea 2)
    ∧ (guestRange ea 1 → ∃ mem', exec (storeOf r (.memory m true addr)) s = .next { pcPlus s 3 with mem := mem' }
      ∧ (mem'.read ea).toNat = (s.reg r).toNat % 256 ∧ sameOutside s.mem mem' ea 1)

/-- R125, R106: a store in register-B mode copies the register into B and changes nothing else. -/
def Obligations.StoresToRegisterB : Prop :=
  ∀ r s, exec (storeOf r .registerB) s = .next { pcPlus s 1 with b := s.reg r }

/-- R125, R145: a store in immediate or register-A mode raises IllegalInstruction, and one whose pointer or destination is
not guest-valid aborts with Segmentation, in each case without writing. -/
def Obligations.FaultingStoresWriteNothing : Prop :=
  ∀ r s,
    (∀ v, exec (storeOf r (.immediate v)) s = .next (raise .illegalInstruction (pcPlus s 3)))
    ∧ exec (storeOf r .registerA) s = .next (raise .illegalInstruction (pcPlus s 1))
    ∧ (∀ m short addr ea, effectiveAddress m addr s = .ok ea → ¬ guestRange ea (if short then 1 else 2) →
        exec (storeOf r (.memory m short addr)) s = .next (abort .segmentationFault (pcPlus s 3)))
    ∧ ∀ m short addr sg, effectiveAddress m addr s = .error sg →
        exec (storeOf r (.memory m short addr)) s = .next (abort .segmentationFault (pcPlus s 3))

/-! ## The integer ALU -/

/-- R162: ADDCA stores the sum with the carry, truncated, and sets N, V, Z and C from the exact sum; V only when both
operands had a clear sign bit and the result's is set. -/
def Obligations.AddWithCarry : Prop :=
  (∀ op, encode (.addca op) = 0x10 :: op.encode)
  ∧ (∀ op s right, resolveLoad op s = .ok right →
      ∀ (wide : Nat) (res : Word), wide = s.a.toNat + right.toNat + s.status.c.toNat → res.toNat = wide % 2 ^ 16 →
      exec (.addca op) s = .next { pcPlus s op.extraBytes with
        a := res
        status := { s.status with
          n := res.getLsbD 15
          v := !s.a.getLsbD 15 && !right.getLsbD 15 && res.getLsbD 15
          z := decide (res = 0)
          c := decide (0xFFFF < wide) } })
  ∧ ∀ op s sg, resolveLoad op s = .error sg → exec (.addca op) s = .next (raise sg (pcPlus s op.extraBytes))

/-- R163: SUBCA stores `A - right - (1 - C)` modulo 2^16; C says that the unbounded difference is not negative and V that
it is, so exactly one of them is set. -/
def Obligations.SubtractWithBorrow : Prop :=
  (∀ op, encode (.subca op) = 0x11 :: op.encode)
  ∧ (∀ op s right, resolveLoad op s = .ok right →
      ∀ (d : Int) (res : Word), d = s.a.toNat - right.toNat - (1 - s.status.c.toNat) →
      (res.toNat : Int) = d % 2 ^ 16 →
      exec (.subca op) s = .next { pcPlus s op.extraBytes with
        a := res
        status := { s.status with
          n := res.getLsbD 15
          v := decide (d < 0)
          z := decide (res = 0)
          c := decide (0 ≤ d) } })
  ∧ ∀ op s sg, resolveLoad op s = .error sg → exec (.subca op) s = .next (raise sg (pcPlus s op.extraBytes))

/-- R164: MULTUA stores the product when it fits 16 bits, with N, V, Z and C clear; a product that does not fit leaves A
unmodified and sets V only. -/
def Obligations.UnsignedMultiply : Prop :=
  (∀ op, encode (.multua op) = 0x13 :: op.encode)
  ∧ (∀ op s right, resolveLoad op s = .ok right → s.a.toNat * right.toNat < 2 ^ 16 →
      ∃ res : Word, res.toNat = s.a.toNat * right.toNat
        ∧ exec (.multua op) s = .next { pcPlus s op.extraBytes with
            a := res
            status := { s.status with n := false, v := false, z := false, c := false } })
  ∧ (∀ op s right, resolveLoad op s = .ok right → 2 ^ 16 ≤ s.a.toNat * right.toNat →
      exec (.multua op) s = .next { pcPlus s op.extraBytes with
        status := { s.status with n := false, v := true, z := false, c := false } })
  ∧ ∀ op s sg, resolveLoad op s = .error sg → exec (.multua op) s = .next (raise sg (pcPlus s op.extraBytes))

/-- R165, R171: MULTA always stores the signed product modulo 2^16; V says that the magnitude product needs more than 15
bits, N that the operands' signs differ, and Z and C are clear. -/
def Obligations.SignedMultiply : Prop :=
  (∀ op, encode (.multa op) = 0x12 :: op.encode)
  ∧ (∀ op s right, resolveLoad op s = .ok right →
      exec (.multa op) s = .next { pcPlus s op.extraBytes with
        a := BitVec.ofInt 16 (s.a.toInt * right.toInt)
        status := { s.status with
          n := s.a.getLsbD 15 != right.getLsbD 15
          v := decide (2 ^ 15 ≤ s.a.toInt.natAbs * right.toInt.natAbs)
          z := false
          c := false } })
  ∧ ∀ op s sg, resolveLoad op s = .error sg → exec (.multa op) s = .next (raise sg (pcPlus s op.extraBytes))

/-- R166: DIVUA with a divisor that is not zero puts the quotient in A and the remainder in B, and clears N, V, Z and C. -/
def Obligations.UnsignedDivide : Prop :=
  (∀ op, encode (.divua op) = 0x15 :: op.encode)
  ∧ (∀ op s right, resolveLoad op s = .ok right → right ≠ 0 →
      ∃ q r : Word, s.a.toNat = q.toNat * right.toNat + r.toNat ∧ r.toNat < right.toNat
        ∧ exec (.divua op) s = .next { pcPlus s op.extraBytes with
            a := q
            b := r
            status := { s.status with n := false, v := false, z := false, c := false } })
  ∧ (∀ op s, resolveLoad op s = .ok 0 → exec (.divua op) s = .next (raise .arithmeticFault s))
  ∧ ∀ op s sg, resolveLoad op s = .error sg → exec (.divua op) s = .next (raise sg (pcPlus s op.extraBytes))

/-- R167: DIVA with a divisor that is not zero rounds toward zero, gives the remainder the sign of the dividend, and clears
N, V, Z and C; quotient and remainder wrap to 16 bits. -/
def Obligations.SignedDivide : Prop :=
  (∀ op, encode (.diva op) = 0x14 :: op.encode)
  ∧ (∀ op s right, resolveLoad op s = .ok right → right ≠ 0 →
      ∃ q r : Int, s.a.toInt = q * right.toInt + r ∧ r.natAbs < right.toInt.natAbs
        ∧ (0 ≤ s.a.toInt → 0 ≤ r) ∧ (s.a.toInt ≤ 0 → r ≤ 0)
        ∧ exec (.diva op) s = .next { pcPlus s op.extraBytes with
            a := BitVec.ofInt 16 q
            b := BitVec.ofInt 16 r
            status := { s.status with n := false, v := false, z := false, c := false } })
  ∧ (∀ op s, resolveLoad op s = .ok 0 → exec (.diva op) s = .next (raise .arithmeticFault s))
  ∧ ∀ op s sg, resolveLoad op s = .error sg → exec (.diva op) s = .next (raise sg (pcPlus s op.extraBytes))

/-- R168, R228: a zero divisor (either signed zero for FDIVA) never reaches the unit: PC is back at the opcode, nothing is
changed, and ArithmeticFault is raised on that state. -/
def Obligations.ZeroDivisorRewinds : Prop :=
  ∀ op s right, resolveLoad op s = .ok right →
    (right = 0 → exec (.diva op) s = .next (raise .arithmeticFault s)
      ∧ exec (.divua op) s = .next (raise .arithmeticFault s))
    ∧ (right = 0x0000 ∨ right = 0x8000 → exec (.fdiva op) s = .next (raise .arithmeticFault s))

/-- R170: ADDCA with carry-in c, then SUBCA of the same operand with carry-in 1 - c, restores A; with the same carry-in c
for both, A ends at A + 2c - 1. -/
def Obligations.SubtractionUndoesAddition : Prop :=
  ∀ right s t, exec (.addca (.immediate right)) s = .next t →
    (∃ u, exec (.subca (.immediate right)) { t with status := { t.status with c := !s.status.c } } = .next u
      ∧ u.a = s.a)
    ∧ ∃ u, exec (.subca (.immediate right)) { t with status := { t.status with c := s.status.c } } = .next u
      ∧ (u.a.toNat : Int) = (s.a.toNat + 2 * s.status.c.toNat - 1) % 2 ^ 16

/-! ## Logic, shifts, increments, comparisons, carry -/

/-- R180 to R183: ANDA, ORA and XORA write A and set Z and N from it; C and V and everything else stay. -/
def Obligations.LogicalOperations : Prop :=
  ∀ op s v, resolveLoad op s = .ok v →
    exec (.anda op) s = .next { pcPlus s op.extraBytes with a := s.a &&& v, status := zn s.status (s.a &&& v) }
    ∧ exec (.ora op) s = .next { pcPlus s op.extraBytes with a := s.a ||| v, status := zn s.status (s.a ||| v) }
    ∧ exec (.xora op) s = .next { pcPlus s op.extraBytes with a := s.a ^^^ v, status := zn s.status (s.a ^^^ v) }

/-- R185 to R189: LSL, LSR, ROL and ROR on register A, on register B and on a memory word: the shifted word goes back
where it came from, C is the bit shifted out, Z and N follow the word, and nothing else changes. -/
def Obligations.ShiftsAndRotates : Prop :=
  shiftRule .lsl (fun t _ => t <<< 1) (fun t => t.getLsbD 15)
  ∧ shiftRule .lsr (fun t _ => t >>> 1) (fun t => t.getLsbD 0)
  ∧ shiftRule .rol (fun t cin => (t <<< 1) ||| (if cin then 0x0001 else 0x0000)) (fun t => t.getLsbD 15)
  ∧ shiftRule .ror (fun t cin => (t >>> 1) ||| (if cin then 0x8000 else 0x0000)) (fun t => t.getLsbD 0)

/-- R191 to R199: the increments and decrements of A, B, X and Y wrap modulo 2^16 and set Z and N; C and V and everything
else stay. -/
def Obligations.IncrementsAndDecrements : Prop :=
  ∀ (r : Reg) (s : State),
    (∃ t, exec (incrementOf r) s = .next t ∧ (t.reg r).toNat = ((s.reg r).toNat + 1) % 2 ^ 16
      ∧ (∀ q, q ≠ r → t.reg q = s.reg q)
      ∧ t = { s with a := t.a, b := t.b, x := t.x, y := t.y, status := zn s.status (t.reg r) })
    ∧ ∃ t, exec (decrementOf r) s = .next t ∧ (t.reg r).toNat = ((s.reg r).toNat + 0xFFFF) % 2 ^ 16
      ∧ (∀ q, q ≠ r → t.reg q = s.reg q)
      ∧ t = { s with a := t.a, b := t.b, x := t.x, y := t.y, status := zn s.status (t.reg r) }

/-- R201 to R205: CMPA, CMPB, CMPX and CMPY set Z to equality and C to unsigned greater-or-equal, and change nothing else. -/
def Obligations.Comparisons : Prop :=
  ∀ r op s v, resolveLoad op s = .ok v →
    exec (compareOf r op) s = .next { pcPlus s op.extraBytes with
      status := { s.status with z := decide (s.reg r = v), c := decide (v.toNat ≤ (s.reg r).toNat) } }

/-- R208, R209: CLC and SEC set C alone. -/
def Obligations.CarryControl : Prop :=
  encode .clc = [0x38] ∧ encode .sec = [0x39]
  ∧ ∀ s, exec .clc s = .next { s with status := { s.status with c := false } }
    ∧ exec .sec s = .next { s with status := { s.status with c := true } }

/-! ## The floating-point unit -/

/-- R223: FADDA, FSUBA, FMULTA and FDIVA put the unit's result in A and replace N, V, Z and C by its flags, whatever the
free function `Config.fp16` is; FDIVA does so when the divisor is neither signed zero. -/
def Obligations.HalfPrecisionOperations : Prop :=
  ∀ op s right, resolveLoad op s = .ok right →
    exec (.fadda op) s = .next { pcPlus s op.extraBytes with
      a := (Config.fp16 .fadd s.a right).1, status := s.status.setNvzc (Config.fp16 .fadd s.a right).2 }
    ∧ exec (.fsuba op) s = .next { pcPlus s op.extraBytes with
      a := (Config.fp16 .fsub s.a right).1, status := s.status.setNvzc (Config.fp16 .fsub s.a right).2 }
    ∧ exec (.fmulta op) s = .next { pcPlus s op.extraBytes with
      a := (Config.fp16 .fmult s.a right).1, status := s.status.setNvzc (Config.fp16 .fmult s.a right).2 }
    ∧ (right ≠ 0x0000 → right ≠ 0x8000 → exec (.fdiva op) s = .next { pcPlus s op.extraBytes with
      a := (Config.fp16 .fdiv s.a right).1, status := s.status.setNvzc (Config.fp16 .fdiv s.a right).2 })

/-! ## SYSCALL and the heap -/

/-- R240, R238: syscall 0x13 stores the host's line, cut to 255 bytes, and a zero byte at B, and puts the number of bytes
written in A; with a destination that is not all guest-valid it aborts and writes nothing. The line comes from the model's
list of answers (assumption log 4) and is used up also by a read that aborts (log 5). A host that never answers leaves no
later state (log 6). -/
def Obligations.ReadLineStoresTheLine : Prop :=
  (∀ op s, resolveLoad op s = .ok 0x0013 → nextAnswer s = .never → exec (.syscall op) s = .fault .awaitingLine)
  ∧ ∀ op s line k, resolveLoad op s = .ok 0x0013 → nextAnswer s = .line line → k = min line.length 255 →
    (guestRange s.b.toNat (k + 1) →
      ∃ mem', exec (.syscall op) s = .next { takeAnswer (pcPlus s op.extraBytes) with
          a := BitVec.ofNat 16 (k + 1), mem := mem' }
        ∧ bytesAt mem' s.b.toNat (line.take k) ∧ mem'.read (s.b.toNat + k) = 0x00
        ∧ sameOutside s.mem mem' s.b.toNat (k + 1))
    ∧ (¬ guestRange s.b.toNat (k + 1) →
      exec (.syscall op) s = .next (abort .segmentationFault (takeAnswer (pcPlus s op.extraBytes))))

/-- R241, R242: syscalls 0x14 and 0x15 append one event with the A bytes at B, all checked before the event is appended. -/
def Obligations.PrintAppendsOneEvent : Prop :=
  ∀ op s n event, (n, event) ∈ [((0x0014 : Word), OutEvent.str), (0x0015, OutEvent.hex)] →
    resolveLoad op s = .ok n →
    (guestRange s.b.toNat s.a.toNat → ∃ bytes, bytes.length = s.a.toNat ∧ bytesAt s.mem s.b.toNat bytes
      ∧ exec (.syscall op) s = .next { pcPlus s op.extraBytes with out := s.out ++ [event bytes] })
    ∧ (¬ guestRange s.b.toNat s.a.toNat →
      exec (.syscall op) s = .next (abort .segmentationFault (pcPlus s op.extraBytes)))

/-- R251: allocation is first fit: it returns the lowest address where the request fits, keeps every other block and the
invariant, and fails exactly when nothing fits; a request of size 0 fails. -/
def Obligations.AllocationIsFirstFit : Prop :=
  ∀ (h : Heap) (n : Nat), h.ok = true →
    (n = 0 → allocate n h = none)
    ∧ (1 ≤ n → (∀ q, ¬ fits h n q) → allocate n h = none)
    ∧ (1 ≤ n → ∀ q, fits h n q → (∀ q', fits h n q' → q ≤ q') →
        ∃ h', allocate n h = some (q, h') ∧ h'.ok = true ∧ h'.length = h.length + 1
          ∧ ∀ o, o ∈ h' ↔ o = { start := q, size := n } ∨ o ∈ h)

/-- R236, R256: syscall 0x21 delivers the lowest fitting address in B with A unchanged, or zero in both A and B when
nothing fits. -/
def Obligations.AllocateCallDelivers : Prop :=
  ∀ op s, s.heap.ok = true → resolveLoad op s = .ok 0x0021 →
    (s.a = 0 ∨ (∀ q, ¬ fits s.heap s.a.toNat q) →
      exec (.syscall op) s = .next { pcPlus s op.extraBytes with a := 0, b := 0 })
    ∧ (s.a ≠ 0 → ∀ q, fits s.heap s.a.toNat q → (∀ q', fits s.heap s.a.toNat q' → q ≤ q') →
        ∃ t, exec (.syscall op) s = .next t ∧ t.b.toNat = q
          ∧ t = { pcPlus s op.extraBytes with b := t.b, heap := t.heap }
          ∧ t.heap.ok = true ∧ ∀ o, o ∈ t.heap ↔ o = { start := q, size := s.a.toNat } ∨ o ∈ s.heap)

/-- R254, R302: syscall 0x20 removes exactly the block that starts at B; an address that starts no block aborts with
UnknownHeapAddress, which no vector catches; the record of that abort is R304's. -/
def Obligations.FreeRemovesOneBlock : Prop :=
  ∀ op s, s.heap.ok = true → resolveLoad op s = .ok 0x0020 →
    (∀ o, o ∈ s.heap → o.start = s.b.toNat →
      ∃ h', exec (.syscall op) s = .next { pcPlus s op.extraBytes with heap := h' }
        ∧ (∀ o', o' ∈ h' ↔ o' ∈ s.heap ∧ o' ≠ o) ∧ h'.length + 1 = s.heap.length ∧ h'.ok = true
        ∧ ∀ o', o' ∈ h' → o'.start ≠ s.b.toNat)
    ∧ ((∀ o, o ∈ s.heap → o.start ≠ s.b.toNat) →
      exec (.syscall op) s = .next { pcPlus s op.extraBytes with
        status := { s.status with h := true }
        run := .aborted .unknownHeapAddress (pcPlus s op.extraBytes).pc { s.status with h := true } })

/-- R252: syscalls 0x22 and 0x23 on the block that starts at B. Without such a block 0x22 fails and 0x23 allocates. A
request not above its size changes nothing; the block grows in place into the gap behind it, or up to the ceiling if it is
the last; a last block that does not fit fails; any other block moves to the lowest place that fits, with its old bytes,
or fails if there is none. A failure delivers zero in A and B and keeps the block. -/
def Obligations.ReallocateCall : Prop :=
  ∀ op s (create : Bool), s.heap.ok = true →
    resolveLoad op s = .ok (if create then 0x0023 else 0x0022) →
    ((∀ o, o ∈ s.heap → o.start ≠ s.b.toNat) → create = false →
      exec (.syscall op) s = .next { pcPlus s op.extraBytes with a := 0, b := 0 })
    ∧ ((∀ o, o ∈ s.heap → o.start ≠ s.b.toNat) → create = true →
      (s.a = 0 ∨ ∀ q, ¬ fits s.heap s.a.toNat q) →
      exec (.syscall op) s = .next { pcPlus s op.extraBytes with a := 0, b := 0 })
    ∧ ((∀ o, o ∈ s.heap → o.start ≠ s.b.toNat) → create = true → s.a ≠ 0 →
      ∀ q, fits s.heap s.a.toNat q → (∀ q', fits s.heap s.a.toNat q' → q ≤ q') →
        ∃ t, exec (.syscall op) s = .next t ∧ t.b.toNat = q
          ∧ t = { pcPlus s op.extraBytes with b := t.b, heap := t.heap }
          ∧ t.heap.ok = true ∧ ∀ o, o ∈ t.heap ↔ o = { start := q, size := s.a.toNat } ∨ o ∈ s.heap)
    ∧ (∀ o, o ∈ s.heap → o.start = s.b.toNat → s.a.toNat ≤ o.size →
        exec (.syscall op) s = .next (pcPlus s op.extraBytes))
    ∧ (∀ pre o nxt post, s.heap = pre ++ o :: nxt :: post → o.start = s.b.toNat → o.size < s.a.toNat →
        o.start + s.a.toNat ≤ nxt.start →
        exec (.syscall op) s = .next { pcPlus s op.extraBytes with
          heap := pre ++ { o with size := s.a.toNat } :: nxt :: post })
    ∧ (∀ pre o, s.heap = pre ++ [o] → o.start = s.b.toNat → o.size < s.a.toNat →
        o.start + s.a.toNat ≤ 0x2000 →
        exec (.syscall op) s = .next { pcPlus s op.extraBytes with heap := pre ++ [{ o with size := s.a.toNat }] })
    ∧ (∀ pre o, s.heap = pre ++ [o] → o.start = s.b.toNat → o.size < s.a.toNat →
        0x2000 < o.start + s.a.toNat →
        exec (.syscall op) s = .next { pcPlus s op.extraBytes with a := 0, b := 0 })
    ∧ (∀ pre o nxt post, s.heap = pre ++ o :: nxt :: post → o.start = s.b.toNat → o.size < s.a.toNat →
        nxt.start < o.start + s.a.toNat → (∀ q, ¬ fits s.heap s.a.toNat q) →
        exec (.syscall op) s = .next { pcPlus s op.extraBytes with a := 0, b := 0 })
    ∧ (∀ pre o nxt post q, s.heap = pre ++ o :: nxt :: post → o.start = s.b.toNat → o.size < s.a.toNat →
        nxt.start < o.start + s.a.toNat → fits s.heap s.a.toNat q →
        (∀ q', fits s.heap s.a.toNat q' → q ≤ q') →
        ∃ t, exec (.syscall op) s = .next t ∧ t.b.toNat = q
          ∧ t = { pcPlus s op.extraBytes with b := t.b, heap := t.heap, mem := t.mem }
          ∧ (∀ o', o' ∈ t.heap ↔ (o' = { start := q, size := s.a.toNat } ∨ o' ∈ s.heap) ∧ o' ≠ o)
          ∧ t.heap.ok = true
          ∧ (∀ k, k < o.size → t.mem.read (q + k) = s.mem.read (o.start + k))
          ∧ sameOutside s.mem t.mem q o.size)

/-- R236, R237: any other syscall number raises SystemFault with PC at the last operand byte and nothing changed; the whole
16-bit value is compared. -/
def Obligations.UnknownSyscallRaisesSystemFault : Prop :=
  ∀ op s n, resolveLoad op s = .ok n →
    n.toNat ∉ [0x0013, 0x0014, 0x0015, 0x0020, 0x0021, 0x0022, 0x0023] →
    exec (.syscall op) s = .next (raise .systemFault (pcPlus s op.extraBytes))

/-! ## The stacks -/

/-- R266, R271, R273: PHA and PHB store the register's high byte at SP and its low byte below it and lower SP by 2; with
no room they raise StackFault and change nothing. -/
def Obligations.PushesStoreTheirWord : Prop :=
  ∀ i (v : State → Word), (i = Instr.pha ∧ v = State.a) ∨ (i = Instr.phb ∧ v = State.b) → ∀ s,
    (0x2002 ≤ s.sp.toNat → ∃ mem', exec i s = .next { s with sp := s.sp - 2, mem := mem' }
      ∧ (mem'.read s.sp.toNat).toNat = (v s).toNat / 256 ∧ (mem'.read (s.sp.toNat - 1)).toNat = (v s).toNat % 256
      ∧ sameOutside s.mem mem' (s.sp.toNat - 1) 2)
    ∧ (s.sp.toNat < 0x2002 → exec i s = .next (raise .stackFault s))

/-- R267, R272, R274: PLA and PLB load the word above SP, high byte from the higher address, and raise SP by 2; on an empty
stack they raise StackFault and change nothing. -/
def Obligations.PullsLoadTheirWord : Prop :=
  ∀ s, 0x2000 ≤ s.sp.toNat →
    (s.sp.toNat + 2 ≤ 0x23FF →
      exec .pla s = .next { s with
        a := s.mem.read (s.sp.toNat + 2) ++ s.mem.read (s.sp.toNat + 1), sp := s.sp + 2 }
      ∧ exec .plb s = .next { s with
        b := s.mem.read (s.sp.toNat + 2) ++ s.mem.read (s.sp.toNat + 1), sp := s.sp + 2 })
    ∧ (0x23FF < s.sp.toNat + 2 →
      exec .pla s = .next (raise .stackFault s) ∧ exec .plb s = .next (raise .stackFault s))

/-- R276, R277: N words pushed on the data stack come back in last-in first-out order, and SP with them; from the empty
stack exactly 511 pushes succeed. -/
def Obligations.DataStackIsLastInFirstOut : Prop :=
  (∀ ws s t, s.sp.toNat ≤ 0x23FF → pushAll ws s = .ok t →
    ∃ u, popAll ws.length t = .ok (ws.reverse, u) ∧ u = { t with sp := s.sp })
  ∧ ∀ ws s, s.sp = 0x23FF → ((∃ t, pushAll ws s = .ok t) ↔ ws.length ≤ 511)

/-! ## Control transfer -/

/-- R282, R283: NOOP changes nothing; HALT sets H alone, and the end of its cycle moves PC past it and halts the run. -/
def Obligations.NoopAndHalt : Prop :=
  encode .noop = [0x00] ∧ encode .halt = [0xFF]
  ∧ ∀ s, exec .noop s = .next s
    ∧ ∃ t, exec .halt s = .next t ∧ t = { s with status := { s.status with h := true } }
      ∧ (s.run = .running → endCycle t = { t with pc := s.pc + 1, run := .halted })

/-- R285 to R289: JMP always, BRZ, BRNZ, BRC and BRNC by their flag, leave PC one before the target, so that the cycle
ends at it; a branch not taken leaves PC at its own last byte. Nothing else changes. -/
def Obligations.JumpsAndBranches : Prop :=
  ∀ (target : Word) (s : State),
    exec (.jmp (.memory .absolute false target)) s = .next { s with pc := target - 1 }
    ∧ exec (.brz (.memory .absolute false target)) s
      = .next { s with pc := if s.status.z = true then target - 1 else s.pc + 3 }
    ∧ exec (.brnz (.memory .absolute false target)) s
      = .next { s with pc := if s.status.z = false then target - 1 else s.pc + 3 }
    ∧ exec (.brc (.memory .absolute false target)) s
      = .next { s with pc := if s.status.c = true then target - 1 else s.pc + 3 }
    ∧ exec (.brnc (.memory .absolute false target)) s
      = .next { s with pc := if s.status.c = false then target - 1 else s.pc + 3 }

/-- R291, R309: JSR pushes the address of its last byte on the call stack and jumps; with a full call stack the run ends,
aborted at that byte with a StackFault that no handler can catch. -/
def Obligations.JsrPushesItsLastByte : Prop :=
  ∀ (target : Word) (s : State),
    (0x2402 ≤ s.callSp.toNat →
      ∃ mem', exec (.jsr (.memory .absolute false target)) s
          = .next { s with pc := target - 1, callSp := s.callSp - 2, mem := mem' }
        ∧ (mem'.read s.callSp.toNat).toNat = (s.pc + 3).toNat / 256
        ∧ (mem'.read (s.callSp.toNat - 1)).toNat = (s.pc + 3).toNat % 256
        ∧ sameOutside s.mem mem' (s.callSp.toNat - 1) 2)
    ∧ (s.callSp.toNat < 0x2402 →
      exec (.jsr (.memory .absolute false target)) s = .next { s with
        pc := s.pc + 3
        status := { s.status with h := true }
        run := .aborted .stackFault (s.pc + 3) { s.status with h := true } })

/-- R292, R310: RTS pops PC from the call stack, high byte from the higher address, and changes nothing else; on an empty
call stack it raises StackFault with PC at the RTS. -/
def Obligations.RtsPopsPc : Prop :=
  encode .rts = [0x49]
  ∧ ∀ s, 0x2400 ≤ s.callSp.toNat →
    (s.callSp.toNat + 2 ≤ 0x25FF → exec .rts s = .next { s with
      pc := s.mem.read (s.callSp.toNat + 2) ++ s.mem.read (s.callSp.toNat + 1), callSp := s.callSp + 2 })
    ∧ (0x25FF < s.callSp.toNat + 2 → exec .rts s = .next (raise .stackFault s))

/-! ## The whole machine -/

/-- The invariant holds of the reset state. -/
def Obligations.InvariantHoldsAtReset : Prop := Invariant State.reset

/-- R34, R38, R39, R42, R43, R61, R313: every step keeps the invariant: canonical memory in the address space, a zero
null guard, both stack pointers in their regions with their parity, an ordered non-overlapping heap list, U, I and F
clear, and H in agreement with the run state. -/
def Obligations.StepKeepsTheInvariant : Prop := ∀ s t, Invariant s → step s = .next t → Invariant t

/-- R77: no step changes a byte of the program region. -/
def Obligations.ProgramImageNeverChanges : Prop :=
  ∀ s t a, Invariant s → step s = .next t → programByte a → t.mem.read a = s.mem.read a

/-- R270, R293, R39, R65: the call stack is closed to the guest. A step that does not move CALL_SP leaves every byte of its
region alone. A step that moves it is a reset, an RTS, or a JSR or trap entry, and only the last two write: the two bytes
of the return address and no other byte of memory. A guest access that touches a byte of the region is a Segmentation
fault, and a range of bytes that does is one syscalls 0x13 to 0x15 reject. -/
def Obligations.CallStackIsClosedToTheGuest : Prop :=
  (∀ s t a, Invariant s → step s = .next t → t.callSp = s.callSp → 0x2400 ≤ a → a ≤ 0x25FF →
    t.mem.read a = s.mem.read a)
  ∧ (∀ s t, Invariant s → step s = .next t → t.callSp ≠ s.callSp →
      ((nextRequest s).reset = true ∧ t.callSp = 0x25FF ∧ t.mem = s.mem)
      ∨ (s.mem.read s.pc.toNat = 0x49 ∧ t.callSp = s.callSp + 2 ∧ t.mem = s.mem)
      ∨ ((s.mem.read s.pc.toNat = 0x48 ∨ isHandler s.mem t.pc) ∧ t.callSp = s.callSp - 2
        ∧ sameOutside s.mem t.mem (s.callSp.toNat - 1) 2))
  ∧ (∀ (w : Width) a k v m, k < w.bytes → 0x2400 ≤ a + k → a + k ≤ 0x25FF →
      memRead w a m = .error .segmentation ∧ memWrite w a v m = .error .segmentation)
  ∧ ∀ a n k, k < n → 0x2400 ≤ a + k → a + k ≤ 0x25FF → allValid validGuest a n = false

/-- R344, R345: construction fails for exactly the five reasons of the rule; a machine that is constructed has its program
bytes at the bottom of the program region and zero everywhere else, zero registers and STATUS, PC, SP and CALL_SP at their
initial values, no allocation, no output, and the invariant. -/
def Obligations.ConstructionLoadsTheImage : Prop :=
  ∀ (stream : List Byte) (n : Nat),
    n = (stream.getD 1 0).toNat * 2 ^ 24 + (stream.getD 2 0).toNat * 2 ^ 16 + (stream.getD 3 0).toNat * 2 ^ 8
      + (stream.getD 4 0).toNat →
    ((stream.length < 5 ∨ stream.getD 0 0 ≠ 0x10 ∨ n = 0 ∨ 0xCA00 < n ∨ stream.length < 5 + n) →
      ∃ e, construct stream = .error e)
    ∧ (5 + n ≤ stream.length → stream.getD 0 0 = 0x10 → 1 ≤ n → n ≤ 0xCA00 →
      ∃ t, construct stream = .ok t
        ∧ t = {
            a := 0
            b := 0
            x := 0
            y := 0
            pc := 0x2600
            sp := 0x23FF
            callSp := 0x25FF
            status := t.status
            mem := t.mem
            heap := []
            run := .running
            out := []
            requests := t.requests
            answers := t.answers
            reads := t.reads }
        ∧ t.status.toByte = 0x00 ∧ Invariant t
        ∧ ∀ a, t.mem.read a = if 0x2600 ≤ a ∧ a < 0x2600 + n then stream.getD (5 + (a - 0x2600)) 0 else 0x00)

/-- R32: which instructions can change each general register. -/
def Obligations.RegisterWriters : Prop :=
  ∀ i s t, exec i s = .next t →
    (t.a ≠ s.a → i ∈ [Instr.inca, .deca, .pla] ∨ ∃ op, i ∈ [Instr.loada op, .addca op, .subca op, .multa op, .multua op,
      .diva op, .divua op, .anda op, .ora op, .xora op, .fadda op, .fsuba op, .fmulta op, .fdiva op, .syscall op]
        ∨ (op = .registerA ∧ i ∈ [Instr.lsl op, .lsr op, .rol op, .ror op]))
    ∧ (t.b ≠ s.b → i ∈ [Instr.incb, .decb, .plb] ∨ ∃ op, i ∈ [Instr.loadb op, .diva op, .divua op, .syscall op]
        ∨ (op = .registerB ∧ i ∈ [Instr.storea op, .storeb op, .storex op, .storey op, .lsl op, .lsr op, .rol op,
          .ror op]))
    ∧ (t.x ≠ s.x → i ∈ [Instr.incx, .decx] ∨ ∃ op, i = .loadx op)
    ∧ (t.y ≠ s.y → i ∈ [Instr.incy, .decy] ∨ ∃ op, i = .loady op)

/-- R37: which instructions can change each flag; U, I and F never change, and H only by HALT or with an abort. -/
def Obligations.FlagWriters : Prop :=
  ∀ i s t, exec i s = .next t →
    t.status.u = s.status.u ∧ t.status.i = s.status.i ∧ t.status.f = s.status.f
    ∧ (t.status.h ≠ s.status.h → i = .halt ∨ ∃ kind pc status, t.run = .aborted kind pc status)
    ∧ (t.status.v ≠ s.status.v → ∃ op, i ∈ [Instr.addca op, .subca op, .multa op, .multua op, .diva op, .divua op,
        .fadda op, .fsuba op, .fmulta op, .fdiva op])
    ∧ (t.status.n ≠ s.status.n →
        i ∈ [Instr.inca, .deca, .incb, .decb, .incx, .decx, .incy, .decy]
        ∨ ∃ op, i ∈ [Instr.addca op, .subca op, .multa op, .multua op, .diva op, .divua op, .anda op, .ora op, .xora op,
          .lsl op, .lsr op, .rol op, .ror op, .fadda op, .fsuba op, .fmulta op, .fdiva op])
    ∧ (t.status.c ≠ s.status.c → i ∈ [Instr.clc, .sec]
        ∨ ∃ op, i ∈ [Instr.addca op, .subca op, .multa op, .multua op, .diva op, .divua op, .lsl op, .lsr op, .rol op,
          .ror op, .cmpa op, .cmpb op, .cmpx op, .cmpy op, .fadda op, .fsuba op, .fmulta op, .fdiva op])
    ∧ (t.status.z ≠ s.status.z →
        i ∈ [Instr.inca, .deca, .incb, .decb, .incx, .decx, .incy, .decy]
        ∨ ∃ op, i ∈ [Instr.addca op, .subca op, .multa op, .multua op, .diva op, .divua op, .anda op, .ora op, .xora op,
          .lsl op, .lsr op, .rol op, .ror op, .cmpa op, .cmpb op, .cmpx op, .cmpy op, .fadda op, .fsuba op, .fmulta op,
          .fdiva op])

/-- R38, R39, R42, R44, R67, R68: SP moves only by a push or a pull; CALL_SP only by RTS, JSR, or the entry of a handler;
the heap list and the output only by SYSCALL; and memory only by a store or shift with a memory operand, a push, SYSCALL,
or the push of JSR or of a trap entry, which lowers CALL_SP. -/
def Obligations.StackHeapAndMemoryWriters : Prop :=
  ∀ i s t, exec i s = .next t →
    (t.sp ≠ s.sp → i ∈ [Instr.pha, .phb, .pla, .plb])
    ∧ (t.callSp ≠ s.callSp → (i = .rts ∧ t.callSp = s.callSp + 2)
        ∨ (t.callSp = s.callSp - 2 ∧ ((∃ op, i = .jsr op) ∨ isHandler s.mem (t.pc + 1))))
    ∧ (t.heap ≠ s.heap ∨ t.out ≠ s.out → ∃ op, i = .syscall op)
    ∧ (t.mem ≠ s.mem → t.callSp = s.callSp - 2 ∨ i ∈ [Instr.pha, .phb] ∨ (∃ op, i = .syscall op)
        ∨ ∃ m short addr, i ∈ [Instr.storea (.memory m short addr), .storeb (.memory m short addr),
          .storex (.memory m short addr), .storey (.memory m short addr), .lsl (.memory m short addr),
          .lsr (.memory m short addr), .rol (.memory m short addr), .ror (.memory m short addr)])
end

