-- ==== Sys2Proof/Laws/Heap.lean ====
section
/-! SUPPORT. The laws of the heap allocator: what its list operations keep, and where an object stands in an ordered
list. -/

namespace Sys2Proof.Machine

/-! ## Ordered lists -/

@[simp] theorem Heap.orderedFrom_nil (lo : Nat) : Heap.orderedFrom lo [] = true := rfl

theorem Heap.orderedFrom_cons {lo : Nat} {o : Block} {rest : Heap} :
    Heap.orderedFrom lo (o :: rest) = true
      ↔ lo ≤ o.start ∧ 1 ≤ o.size ∧ o.stop ≤ cfg.heapCeil ∧ Heap.orderedFrom o.stop rest = true := by
  simp only [Heap.orderedFrom, Bool.and_eq_true, decide_eq_true_eq, and_assoc]

/-- An ordered list stays ordered from a lower bound. -/
theorem Heap.orderedFrom_mono {lo lo' : Nat} {h : Heap} (hl : lo' ≤ lo) (ho : Heap.orderedFrom lo h = true) :
    Heap.orderedFrom lo' h = true := by
  cases h with
  | nil => rfl
  | cons o rest =>
    rw [Heap.orderedFrom_cons] at ho ⊢
    exact ⟨by omega, ho.2⟩

/-- R250: every object of an ordered list has at least one byte and lies between the bounds. -/
theorem Heap.orderedFrom_mem {lo : Nat} {h : Heap} (ho : Heap.orderedFrom lo h = true) {o : Block} (hm : o ∈ h) :
    lo ≤ o.start ∧ 1 ≤ o.size ∧ o.stop ≤ cfg.heapCeil := by
  induction h generalizing lo with
  | nil => cases hm
  | cons p rest ih =>
    rw [Heap.orderedFrom_cons] at ho
    rcases List.mem_cons.1 hm with rfl | hm
    · exact ⟨ho.1, ho.2.1, ho.2.2.1⟩
    · have h := ih ho.2.2.2 hm
      have hp := ho.1
      simp only [Block.stop] at h ⊢
      exact ⟨by omega, h.2⟩

/-- In an ordered list the objects before an object end at or before its start, and those after it start at or after its
end. -/
theorem Heap.orderedFrom_split {lo : Nat} {pre post : Heap} {o : Block}
    (ho : Heap.orderedFrom lo (pre ++ o :: post) = true) :
    (∀ p ∈ pre, p.stop ≤ o.start) ∧ (∀ p ∈ post, o.stop ≤ p.start) ∧ 1 ≤ o.size ∧ lo ≤ o.start
      ∧ o.stop ≤ cfg.heapCeil := by
  induction pre generalizing lo with
  | nil =>
    rw [List.nil_append, Heap.orderedFrom_cons] at ho
    exact ⟨by simp, fun p hp => (Heap.orderedFrom_mem ho.2.2.2 hp).1, ho.2.1, ho.1, ho.2.2.1⟩
  | cons q rest ih =>
    rw [List.cons_append, Heap.orderedFrom_cons] at ho
    have h := ih ho.2.2.2
    have hq := ho.1
    simp only [Block.stop] at h ⊢
    refine ⟨fun p hp => ?_, h.2.1, h.2.2.1, by omega, h.2.2.2.2⟩
    rcases List.mem_cons.1 hp with rfl | hp
    · exact h.2.2.2.1
    · exact h.1 p hp

/-- Two objects of an ordered list with one start are one object. -/
theorem Heap.orderedFrom_unique {lo : Nat} {h : Heap} (ho : Heap.orderedFrom lo h = true) {o p : Block} (h1 : o ∈ h)
    (h2 : p ∈ h) (hs : o.start = p.start) : o = p := by
  obtain ⟨pre, post, rfl⟩ := List.append_of_mem h1
  have h := Heap.orderedFrom_split ho
  rcases List.mem_append.1 h2 with h2 | h2
  · have := h.1 p h2
    have := (Heap.orderedFrom_mem ho (List.mem_append_left _ h2)).2.1
    simp only [Block.stop] at *
    omega
  · rcases List.mem_cons.1 h2 with rfl | h2
    · rfl
    · have := h.2.1 p h2
      simp only [Block.stop] at *
      omega

/-! ## Finding, resizing and removing -/

/-- The object before which no other has its start is the one found. -/
theorem locate_append {a : Nat} {pre post : Heap} {o : Block} (hp : ∀ p ∈ pre, p.start ≠ a) (ho : o.start = a) :
    locate a (pre ++ o :: post) = some (o, post.head?) := by
  induction pre with
  | nil => simp [locate, ho]
  | cons q rest ih =>
    rw [List.cons_append, locate, if_neg (hp q (by simp))]
    exact ih fun p hm => hp p (List.mem_cons_of_mem _ hm)

theorem locate_none {a : Nat} {h : Heap} (hn : ∀ o ∈ h, o.start ≠ a) : locate a h = none := by
  induction h with
  | nil => rfl
  | cons q rest ih =>
    rw [locate, if_neg (hn q (by simp))]
    exact ih fun p hm => hn p (List.mem_cons_of_mem _ hm)

/-- Everything a successful search says. -/
theorem locate_some {a : Nat} {h : Heap} {o : Block} {next : Option Block} (hl : locate a h = some (o, next)) :
    ∃ pre post, h = pre ++ o :: post ∧ o.start = a ∧ next = post.head? ∧ ∀ p ∈ pre, p.start ≠ a := by
  induction h with
  | nil => cases hl
  | cons q rest ih =>
    rw [locate] at hl
    split at hl
    · next hq =>
      obtain ⟨rfl, rfl⟩ := Prod.mk.inj (Option.some.inj hl)
      exact ⟨[], rest, rfl, hq, rfl, by simp⟩
    · next hq =>
      obtain ⟨pre, post, rfl, h1, h2, h3⟩ := ih hl
      exact ⟨q :: pre, post, rfl, h1, h2, by simpa using ⟨hq, h3⟩⟩

theorem resize_append {a n : Nat} {pre post : Heap} {o : Block} (hp : ∀ p ∈ pre, p.start ≠ a) (ho : o.start = a) :
    resize a n (pre ++ o :: post) = pre ++ { o with size := n } :: post := by
  induction pre with
  | nil => simp [resize, ho]
  | cons q rest ih =>
    rw [List.cons_append, resize, if_neg (hp q (by simp)), ih fun p hm => hp p (List.mem_cons_of_mem _ hm)]
    rfl

theorem removeBlock_append {a : Nat} {pre post : Heap} {o : Block} (hp : ∀ p ∈ pre, p.start ≠ a) (ho : o.start = a) :
    removeBlock a (pre ++ o :: post) = pre ++ post := by
  induction pre with
  | nil => simp [removeBlock, ho]
  | cons q rest ih =>
    rw [List.cons_append, removeBlock, if_neg (hp q (by simp)), ih fun p hm => hp p (List.mem_cons_of_mem _ hm)]
    rfl

/-- Removing an object keeps the order. -/
theorem Heap.orderedFrom_removeBlock {lo : Nat} {h : Heap} (a : Nat) (ho : Heap.orderedFrom lo h = true) :
    Heap.orderedFrom lo (removeBlock a h) = true := by
  induction h generalizing lo with
  | nil => rfl
  | cons q rest ih =>
    rw [Heap.orderedFrom_cons] at ho
    rw [removeBlock]
    split
    · exact Heap.orderedFrom_mono (by have := ho.1; simp only [Block.stop]; omega) ho.2.2.2
    · exact Heap.orderedFrom_cons.2 ⟨ho.1, ho.2.1, ho.2.2.1, ih ho.2.2.2⟩

/-- Growing an object up to the start of the next one, or to the ceiling if it is the last, keeps the order. -/
theorem Heap.orderedFrom_grow {lo n : Nat} {pre post : Heap} {o : Block}
    (ho : Heap.orderedFrom lo (pre ++ o :: post) = true) (hn : 1 ≤ n)
    (hc : o.start + n ≤ cfg.heapCeil) (hx : ∀ p ∈ post.head?, o.start + n ≤ p.start) :
    Heap.orderedFrom lo (pre ++ { o with size := n } :: post) = true := by
  induction pre generalizing lo with
  | nil =>
    rw [List.nil_append, Heap.orderedFrom_cons] at ho ⊢
    refine ⟨ho.1, hn, hc, ?_⟩
    cases post with
    | nil => rfl
    | cons q rest =>
      have h := Heap.orderedFrom_cons.1 ho.2.2.2
      exact Heap.orderedFrom_cons.2 ⟨hx q (by simp), h.2⟩
  | cons q rest ih =>
    rw [List.cons_append, Heap.orderedFrom_cons] at ho ⊢
    exact ⟨ho.1, ho.2.1, ho.2.2.1, ih ho.2.2.2⟩

/-! ## Allocating -/

/-- Everything a successful allocation says of its list: the new object lies inside the heap region and the list stays
ordered. -/
theorem allocateFrom_some {lo n a : Nat} {h h' : Heap} (hn : 1 ≤ n) (ho : Heap.orderedFrom lo h = true)
    (ha : allocateFrom lo n h = some (a, h')) :
    lo ≤ a ∧ a + n ≤ cfg.heapCeil ∧ Heap.orderedFrom lo h' = true := by
  induction h generalizing lo a h' with
  | nil =>
    rw [allocateFrom] at ha
    split at ha
    · next hc =>
      obtain ⟨rfl, rfl⟩ := Prod.mk.inj (Option.some.inj ha)
      exact ⟨le_rfl, hc, Heap.orderedFrom_cons.2 ⟨le_rfl, hn, hc, rfl⟩⟩
    · cases ha
  | cons o rest ih =>
    have h := Heap.orderedFrom_cons.1 ho
    have hs : o.stop = o.start + o.size := rfl
    rw [allocateFrom] at ha
    split at ha
    · next hc =>
      obtain ⟨rfl, rfl⟩ := Prod.mk.inj (Option.some.inj ha)
      have h1 := h.2.2.1
      have hcs : Block.stop { start := lo, size := n } = lo + n := rfl
      refine ⟨le_rfl, by omega, Heap.orderedFrom_cons.2 ⟨le_rfl, hn, by omega, ?_⟩⟩
      exact Heap.orderedFrom_cons.2 ⟨hc, h.2⟩
    · cases hr : allocateFrom o.stop n rest with
      | none => rw [hr] at ha; cases ha
      | some r =>
        rw [hr] at ha
        obtain ⟨rfl, rfl⟩ := Prod.mk.inj (Option.some.inj ha)
        obtain ⟨h1, h2, h3⟩ := ih h.2.2.2 hr
        exact ⟨by omega, h2, Heap.orderedFrom_cons.2 ⟨h.1, h.2.1, h.2.2.1, h3⟩⟩

/-- An allocation keeps the allocator's invariant, and its block lies in the heap region. -/
theorem allocate_some {n a : Nat} {h h' : Heap} (ho : h.ok = true) (ha : allocate n h = some (a, h')) :
    1 ≤ n ∧ cfg.heapFloor ≤ a ∧ a + n ≤ cfg.heapCeil ∧ h'.ok = true := by
  unfold allocate at ha
  split at ha
  · cases ha
  · next h0 => exact ⟨by omega, allocateFrom_some (by omega) ho ha⟩

end Sys2Proof.Machine
end

