-- ==== Sys2Proof/Laws/Memory.lean ====
section
/-! SUPPORT. The laws of memory: a read after a write, what a write leaves alone, and that every memory operation keeps
the canonical form and the address range. -/

namespace Sys2Proof.Machine

@[simp] theorem Memory.read_nil (a : Nat) : Memory.read [] a = 0 := rfl

theorem Memory.read_eq_zero_of_absent {m : Memory} {a : Nat} (h : ∀ c ∈ m, c.1 ≠ a) : m.read a = 0 := by
  induction m with
  | nil => rfl
  | cons c rest ih =>
    obtain ⟨x, v⟩ := c
    have hx : x ≠ a := h (x, v) (by simp)
    simp only [Memory.read, hx, if_false]
    exact ih fun d hd => h d (List.mem_cons_of_mem _ hd)

theorem Memory.mem_erase {m : Memory} {a : Nat} {c : Host.Cell} (h : c ∈ m.erase a) : c ∈ m ∧ c.1 ≠ a := by
  simpa [Memory.erase] using h

theorem Memory.read_erase_same (m : Memory) (a : Nat) : (m.erase a).read a = 0 :=
  Memory.read_eq_zero_of_absent fun _ h => (Memory.mem_erase h).2

theorem Memory.read_erase_other (m : Memory) {a x : Nat} (h : x ≠ a) : (m.erase a).read x = m.read x := by
  induction m with
  | nil => rfl
  | cons c rest ih =>
    obtain ⟨y, v⟩ := c
    unfold Memory.erase at ih ⊢
    by_cases hy : y = a
    · subst hy
      simp only [List.filter_cons, bne_self_eq_false, Bool.false_eq_true, if_false, Memory.read, ih]
      simp [Ne.symm h]
    · simp only [List.filter_cons, bne_iff_ne, ne_eq, hy, not_false_eq_true, if_true, Memory.read, ih]

theorem Memory.read_insert_same {m : Memory} {a : Nat} (v : Byte) (h : ∀ c ∈ m, c.1 ≠ a) :
    (m.insert a v).read a = v := by
  induction m with
  | nil => simp [Memory.insert, Memory.read]
  | cons c rest ih =>
    obtain ⟨y, w⟩ := c
    have hy : y ≠ a := h (y, w) (by simp)
    have ih := ih fun d hd => h d (List.mem_cons_of_mem _ hd)
    simp only [Memory.insert]
    split
    · simp [Memory.read]
    · simp [Memory.read, hy, ih]

theorem Memory.read_insert_other (m : Memory) {a x : Nat} (v : Byte) (h : x ≠ a) :
    (m.insert a v).read x = m.read x := by
  induction m with
  | nil => simp [Memory.insert, Memory.read, Ne.symm h]
  | cons c rest ih =>
    obtain ⟨y, w⟩ := c
    simp only [Memory.insert]
    split
    · simp [Memory.read, Ne.symm h]
    · simp [Memory.read, ih]

/-- A read after a write to the same address gives the byte written. -/
@[simp] theorem Memory.read_write_same (m : Memory) (a : Nat) (v : Byte) : (m.write a v).read a = v := by
  unfold Memory.write
  split
  · next h => rw [Memory.read_erase_same, h]
  · exact Memory.read_insert_same v fun _ h => (Memory.mem_erase h).2

/-- A write leaves every other address alone. -/
theorem Memory.read_write_other (m : Memory) {a x : Nat} (v : Byte) (h : x ≠ a) :
    (m.write a v).read x = m.read x := by
  unfold Memory.write
  split
  · exact Memory.read_erase_other m h
  · rw [Memory.read_insert_other _ v h, Memory.read_erase_other m h]

theorem Memory.read_write (m : Memory) (a x : Nat) (v : Byte) :
    (m.write a v).read x = if x = a then v else m.read x := by
  split
  · next h => rw [h, Memory.read_write_same]
  · next h => exact Memory.read_write_other m v h

theorem Memory.mem_insert {m : Memory} {a : Nat} {v : Byte} {c : Host.Cell} (h : c ∈ m.insert a v) :
    c = (a, v) ∨ c ∈ m := by
  induction m with
  | nil => simpa [Memory.insert] using h
  | cons d rest ih =>
    obtain ⟨y, w⟩ := d
    simp only [Memory.insert] at h
    split at h
    · simpa using h
    · rcases List.mem_cons.1 h with h | h
      · exact .inr (by simp [h])
      · rcases ih h with h | h
        · exact .inl h
        · exact .inr (List.mem_cons_of_mem _ h)

theorem Memory.mem_write {m : Memory} {a : Nat} {v : Byte} {c : Host.Cell} (h : c ∈ m.write a v) :
    (c = (a, v) ∧ v ≠ 0) ∨ c ∈ m := by
  unfold Memory.write at h
  split at h
  · exact .inr (Memory.mem_erase h).1
  · next hv =>
    rcases Memory.mem_insert h with h | h
    · exact .inl ⟨h, hv⟩
    · exact .inr (Memory.mem_erase h).1

theorem Memory.pairwise_insert {m : Memory} {a : Nat} (v : Byte)
    (hm : List.Pairwise (fun c d : Host.Cell => c.1 < d.1) m) (h : ∀ c ∈ m, c.1 ≠ a) :
    List.Pairwise (fun c d : Host.Cell => c.1 < d.1) (m.insert a v) := by
  induction m with
  | nil => simp [Memory.insert]
  | cons c rest ih =>
    obtain ⟨y, w⟩ := c
    have hy : y ≠ a := h (y, w) (by simp)
    rw [List.pairwise_cons] at hm
    simp only [Memory.insert]
    split
    · next hlt =>
      refine List.pairwise_cons.2 ⟨fun d hd => ?_, List.pairwise_cons.2 hm⟩
      rcases List.mem_cons.1 hd with hd | hd
      · simpa [hd] using hlt
      · exact lt_trans hlt (hm.1 d hd)
    · next hlt =>
      refine List.pairwise_cons.2 ⟨fun d hd => ?_, ih hm.2 fun d hd => h d (List.mem_cons_of_mem _ hd)⟩
      rcases Memory.mem_insert hd with hd | hd
      · simp only [hd]; omega
      · exact hm.1 d hd

/-- A write keeps the canonical form. -/
theorem Memory.wf_write {m : Memory} (hm : m.wf) (a : Nat) (v : Byte) : (m.write a v).wf := by
  refine ⟨?_, fun c hc => ?_⟩
  · unfold Memory.write
    split
    · exact hm.1.filter _
    · exact Memory.pairwise_insert v (hm.1.filter _) fun c hc => (Memory.mem_erase hc).2
  · rcases Memory.mem_write hc with ⟨rfl, hv⟩ | hc
    · exact hv
    · exact hm.2 c hc

/-- A write inside the address space keeps every listed address inside it. -/
theorem Memory.inRange_write {m : Memory} (hm : m.inRange) {a : Nat} (v : Byte) (ha : a < cfg.memSize) :
    (m.write a v).inRange := by
  intro c hc
  rcases Memory.mem_write hc with ⟨rfl, -⟩ | hc
  · exact ha
  · exact hm c hc

theorem Memory.wf_writeBytes {m : Memory} (hm : m.wf) (a : Nat) (bytes : List Byte) : (m.writeBytes a bytes).wf := by
  induction bytes generalizing m a with
  | nil => exact hm
  | cons v rest ih => exact ih (Memory.wf_write hm a v) (a + 1)

theorem Memory.inRange_writeBytes {m : Memory} (hm : m.inRange) (a : Nat) (bytes : List Byte)
    (h : a + bytes.length ≤ cfg.memSize) : (m.writeBytes a bytes).inRange := by
  induction bytes generalizing m a with
  | nil => exact hm
  | cons v rest ih =>
    simp only [List.length_cons] at h
    exact ih (Memory.inRange_write hm v (by omega)) (a + 1) (by omega)

/-- What a stored byte string reads as: its bytes where they were put, the old bytes everywhere else. -/
theorem Memory.read_writeBytes (m : Memory) (a x : Nat) (bytes : List Byte) :
    (m.writeBytes a bytes).read x
      = if a ≤ x ∧ x < a + bytes.length then bytes.getD (x - a) 0 else m.read x := by
  induction bytes generalizing m a with
  | nil => simp [Memory.writeBytes]
  | cons v rest ih =>
    simp only [Memory.writeBytes, ih, List.length_cons, Memory.read_write]
    by_cases h1 : x = a
    · subst h1; simp
    · by_cases h2 : a + 1 ≤ x ∧ x < a + 1 + rest.length
      · rw [if_pos h2, if_pos (by omega)]
        obtain ⟨k, rfl⟩ : ∃ k, x = a + 1 + k := ⟨x - (a + 1), by omega⟩
        rw [show a + 1 + k - a = k + 1 by omega, show a + 1 + k - (a + 1) = k by omega, List.getD_cons_succ]
      · rw [if_neg h2, if_neg h1, if_neg (by omega)]

theorem Memory.length_readBytes (m : Memory) (a n : Nat) : (m.readBytes a n).length = n := by
  induction n generalizing a with
  | zero => rfl
  | succ n ih => simp [Memory.readBytes, ih]

theorem Memory.getElem_readBytes (m : Memory) (a n k : Nat) (h : k < (m.readBytes a n).length) :
    (m.readBytes a n)[k] = m.read (a + k) := by
  induction n generalizing a k with
  | zero => simp [Memory.readBytes] at h
  | succ n ih =>
    cases k with
    | zero => simp [Memory.readBytes]
    | succ k =>
      simp only [Memory.readBytes, List.getElem_cons_succ, ih]
      congr 1; omega

theorem Memory.wf_copy {m : Memory} (hm : m.wf) (dst src n : Nat) : (m.copy dst src n).wf := by
  induction n generalizing m dst src with
  | zero => exact hm
  | succ n ih => exact ih (Memory.wf_write hm dst _) (dst + 1) (src + 1)

theorem Memory.inRange_copy {m : Memory} (hm : m.inRange) (dst src n : Nat) (h : dst + n ≤ cfg.memSize) :
    (m.copy dst src n).inRange := by
  induction n generalizing m dst src with
  | zero => exact hm
  | succ n ih => exact ih (Memory.inRange_write hm _ (by omega)) (dst + 1) (src + 1) (by omega)

theorem Memory.read_copy_outside (m : Memory) (dst src n : Nat) {x : Nat} (h : x < dst ∨ dst + n ≤ x) :
    (m.copy dst src n).read x = m.read x := by
  induction n generalizing m dst src with
  | zero => rfl
  | succ n ih =>
    rw [Memory.copy, ih _ _ _ (by omega), Memory.read_write_other _ _ (by omega)]

/-- R252, R253: a copy between disjoint places moves the old bytes. -/
theorem Memory.read_copy_inside (m : Memory) (dst src n : Nat) (hd : dst + n ≤ src ∨ src + n ≤ dst) {k : Nat}
    (hk : k < n) : (m.copy dst src n).read (dst + k) = m.read (src + k) := by
  induction n generalizing m dst src k with
  | zero => omega
  | succ n ih =>
    rw [Memory.copy]
    cases k with
    | zero =>
      simp only [Nat.add_zero]
      rw [Memory.read_copy_outside _ _ _ _ (by omega), Memory.read_write_same]
    | succ k =>
      rw [show dst + (k + 1) = dst + 1 + k by omega, ih _ _ _ (by omega) (by omega),
        Memory.read_write_other _ _ (by omega)]
      congr 1; omega

/-! ## Values of one byte and of one word -/

theorem Memory.wf_setValue {m : Memory} (hm : m.wf) (a : Nat) (v : Word) (w : Width) : (m.setValue a v w).wf := by
  cases w with
  | byte => exact Memory.wf_write hm _ _
  | word => exact Memory.wf_write (Memory.wf_write hm _ _) _ _

theorem Memory.inRange_setValue {m : Memory} (hm : m.inRange) {a : Nat} (v : Word) (w : Width)
    (h : a + w.bytes ≤ cfg.memSize) : (m.setValue a v w).inRange := by
  cases w with
  | byte => exact Memory.inRange_write hm _ h
  | word =>
    have h : a + 2 ≤ cfg.memSize := h
    exact Memory.inRange_write (Memory.inRange_write hm _ (by omega)) _ (by omega)

theorem Memory.read_setValue_outside (m : Memory) {a x : Nat} (v : Word) (w : Width)
    (h : x < a ∨ a + w.bytes ≤ x) : (m.setValue a v w).read x = m.read x := by
  cases w with
  | byte =>
    have h : x < a ∨ a + 1 ≤ x := h
    exact Memory.read_write_other _ _ (by omega)
  | word =>
    have h : x < a ∨ a + 2 ≤ x := h
    rw [Memory.setValue, Memory.read_write_other _ _ (by omega), Memory.read_write_other _ _ (by omega)]

theorem Memory.read_setValue_byte (m : Memory) (a : Nat) (v : Word) :
    (m.setValue a v .byte).read a = loByte v := Memory.read_write_same _ _ _

theorem Memory.read_setValue_hi (m : Memory) (a : Nat) (v : Word) :
    (m.setValue a v .word).read a = hiByte v := by
  rw [Memory.setValue, Memory.read_write_other _ _ (by omega), Memory.read_write_same]

theorem Memory.read_setValue_lo (m : Memory) (a : Nat) (v : Word) :
    (m.setValue a v .word).read (a + 1) = loByte v := Memory.read_write_same _ _ _

/-- The two halves of a word, put together, are the word. -/
@[simp] theorem hi_append_lo (v : Word) : (hiByte v ++ loByte v : Word) = v := by
  apply BitVec.eq_of_toNat_eq
  have := v.isLt
  simp only [hiByte, loByte, BitVec.toNat_append, BitVec.toNat_ofNat, Nat.shiftLeft_eq]
  rw [← Nat.shiftLeft_eq, ← Nat.shiftLeft_add_eq_or_of_lt (by omega), Nat.shiftLeft_eq]
  omega

/-! ## Validity -/

theorem allValid_iff (valid : Nat → Bool) (a n : Nat) :
    allValid valid a n = true ↔ ∀ k, k < n → valid (a + k) = true := by
  induction n generalizing a with
  | zero => simp [allValid]
  | succ n ih =>
    simp only [allValid, Bool.and_eq_true, ih]
    constructor
    · rintro ⟨h0, h⟩ k hk
      cases k with
      | zero => exact h0
      | succ k => rw [show a + (k + 1) = a + 1 + k by omega]; exact h k (by omega)
    · intro h
      refine ⟨h 0 (by omega), fun k hk => ?_⟩
      rw [show a + 1 + k = a + (k + 1) by omega]; exact h (k + 1) (by omega)

/-- R65: the privileged predicate, in numbers. -/
theorem validPriv_iff (a : Nat) : validPriv a = true ↔ 2 ≤ a ∧ a < 0x10000 := by
  simp only [validPriv, Bool.and_eq_true, Bool.not_eq_true', Bool.and_eq_false_iff, decide_eq_true_eq,
    decide_eq_false_iff_not]
  simp only [cfg]
  omega

/-- R65: the guest predicate, in numbers. -/
theorem validGuest_iff (a : Nat) : validGuest a = true ↔ Claims.guestByte a := by
  simp only [validGuest, Claims.guestByte, Bool.and_eq_true, Bool.not_eq_true', Bool.and_eq_false_iff,
    decide_eq_false_iff_not, validPriv_iff]
  simp only [cfg]
  omega

theorem allValid_guest_iff (a n : Nat) : allValid validGuest a n = true ↔ Claims.guestRange a n := by
  rw [allValid_iff]
  exact forall₂_congr fun _ _ => validGuest_iff _

theorem inProgram_iff (a : Nat) : inProgram a = true ↔ 0x2600 ≤ a ∧ a ≤ 0xEFFF := by
  simp only [inProgram, Bool.and_eq_true, decide_eq_true_eq]
  rfl

/-- R66: a guest read, by its condition. -/
theorem memRead_ok {w : Width} {a : Nat} (m : Memory) (h : Claims.guestRange a w.bytes) :
    memRead w a m = .ok (m.value a w) := by
  rw [memRead, if_pos ((allValid_guest_iff _ _).2 h)]

theorem memRead_error {w : Width} {a : Nat} (m : Memory) (h : ¬ Claims.guestRange a w.bytes) :
    memRead w a m = .error .segmentation := by
  rw [memRead, if_neg (mt (allValid_guest_iff _ _).1 h)]

/-- R67: a guest write, by its condition. -/
theorem memWrite_ok {w : Width} {a : Nat} (v : Word) (m : Memory) (h : Claims.guestRange a w.bytes) :
    memWrite w a v m = .ok (m.setValue a v w) := by
  rw [memWrite, if_pos ((allValid_guest_iff _ _).2 h)]

theorem memWrite_error {w : Width} {a : Nat} (v : Word) (m : Memory) (h : ¬ Claims.guestRange a w.bytes) :
    memWrite w a v m = .error .segmentation := by
  rw [memWrite, if_neg (mt (allValid_guest_iff _ _).1 h)]

/-- Everything a guest write can answer. -/
theorem memWrite_cases {w : Width} {a : Nat} {v : Word} {m m' : Memory} (h : memWrite w a v m = .ok m') :
    Claims.guestRange a w.bytes ∧ m' = m.setValue a v w := by
  unfold memWrite at h
  split at h
  · next hv => exact ⟨(allValid_guest_iff _ _).1 hv, by simpa using h.symm⟩
  · cases h

theorem memRead_error_segmentation {w : Width} {a : Nat} {m : Memory} {sg : Signal} (h : memRead w a m = .error sg) :
    sg = .segmentation := by
  unfold memRead at h
  split at h
  · cases h
  · simpa using h.symm

end Sys2Proof.Machine
end

