-- ==== Sys2Proof/Laws/State.lean ====
section
/-! SUPPORT. One lemma per field per named update of the state, so that no later proof unfolds an update. -/

namespace Sys2Proof.Machine

/-! ## Flags -/
@[simp] theorem Status.setNvzc_n (t : Status) (k : Nvzc) : (t.setNvzc k).n = k.n := rfl
@[simp] theorem Status.setNvzc_v (t : Status) (k : Nvzc) : (t.setNvzc k).v = k.v := rfl
@[simp] theorem Status.setNvzc_u (t : Status) (k : Nvzc) : (t.setNvzc k).u = t.u := rfl
@[simp] theorem Status.setNvzc_h (t : Status) (k : Nvzc) : (t.setNvzc k).h = t.h := rfl
@[simp] theorem Status.setNvzc_i (t : Status) (k : Nvzc) : (t.setNvzc k).i = t.i := rfl
@[simp] theorem Status.setNvzc_f (t : Status) (k : Nvzc) : (t.setNvzc k).f = t.f := rfl
@[simp] theorem Status.setNvzc_z (t : Status) (k : Nvzc) : (t.setNvzc k).z = k.z := rfl
@[simp] theorem Status.setNvzc_c (t : Status) (k : Nvzc) : (t.setNvzc k).c = k.c := rfl
@[simp] theorem Status.setZN_n (t : Status) (r : Word) : (t.setZN r).n = (r != 0 && r.msb) := rfl
@[simp] theorem Status.setZN_v (t : Status) (r : Word) : (t.setZN r).v = t.v := rfl
@[simp] theorem Status.setZN_u (t : Status) (r : Word) : (t.setZN r).u = t.u := rfl
@[simp] theorem Status.setZN_h (t : Status) (r : Word) : (t.setZN r).h = t.h := rfl
@[simp] theorem Status.setZN_i (t : Status) (r : Word) : (t.setZN r).i = t.i := rfl
@[simp] theorem Status.setZN_f (t : Status) (r : Word) : (t.setZN r).f = t.f := rfl
@[simp] theorem Status.setZN_z (t : Status) (r : Word) : (t.setZN r).z = (r == 0) := rfl
@[simp] theorem Status.setZN_c (t : Status) (r : Word) : (t.setZN r).c = t.c := rfl
@[simp] theorem Status.setC_n (t : Status) (carry : Bool) : (t.setC carry).n = t.n := rfl
@[simp] theorem Status.setC_v (t : Status) (carry : Bool) : (t.setC carry).v = t.v := rfl
@[simp] theorem Status.setC_u (t : Status) (carry : Bool) : (t.setC carry).u = t.u := rfl
@[simp] theorem Status.setC_h (t : Status) (carry : Bool) : (t.setC carry).h = t.h := rfl
@[simp] theorem Status.setC_i (t : Status) (carry : Bool) : (t.setC carry).i = t.i := rfl
@[simp] theorem Status.setC_f (t : Status) (carry : Bool) : (t.setC carry).f = t.f := rfl
@[simp] theorem Status.setC_z (t : Status) (carry : Bool) : (t.setC carry).z = t.z := rfl
@[simp] theorem Status.setC_c (t : Status) (carry : Bool) : (t.setC carry).c = carry := rfl
@[simp] theorem Status.setCompare_n (t : Status) (r v : Word) : (t.setCompare r v).n = t.n := rfl
@[simp] theorem Status.setCompare_v (t : Status) (r v : Word) : (t.setCompare r v).v = t.v := rfl
@[simp] theorem Status.setCompare_u (t : Status) (r v : Word) : (t.setCompare r v).u = t.u := rfl
@[simp] theorem Status.setCompare_h (t : Status) (r v : Word) : (t.setCompare r v).h = t.h := rfl
@[simp] theorem Status.setCompare_i (t : Status) (r v : Word) : (t.setCompare r v).i = t.i := rfl
@[simp] theorem Status.setCompare_f (t : Status) (r v : Word) : (t.setCompare r v).f = t.f := rfl
@[simp] theorem Status.setCompare_z (t : Status) (r v : Word) : (t.setCompare r v).z = (r == v) := rfl
@[simp] theorem Status.setCompare_c (t : Status) (r v : Word) : (t.setCompare r v).c = decide (v.toNat ≤ r.toNat) := rfl

/-! ## General registers -/

@[simp] theorem State.reg_a (s : State) : s.reg .a = s.a := rfl
@[simp] theorem State.reg_b (s : State) : s.reg .b = s.b := rfl
@[simp] theorem State.reg_x (s : State) : s.reg .x = s.x := rfl
@[simp] theorem State.reg_y (s : State) : s.reg .y = s.y := rfl
@[simp] theorem State.setReg_a (s : State) (v : Word) : s.setReg .a v = { s with a := v } := rfl
@[simp] theorem State.setReg_b (s : State) (v : Word) : s.setReg .b v = { s with b := v } := rfl
@[simp] theorem State.setReg_x (s : State) (v : Word) : s.setReg .x v = { s with x := v } := rfl
@[simp] theorem State.setReg_y (s : State) (v : Word) : s.setReg .y v = { s with y := v } := rfl
@[simp] theorem State.setReg_pc (s : State) (r : Reg) (v : Word) : (s.setReg r v).pc = s.pc := by
  cases r <;> rfl
@[simp] theorem State.setReg_sp (s : State) (r : Reg) (v : Word) : (s.setReg r v).sp = s.sp := by
  cases r <;> rfl
@[simp] theorem State.setReg_callSp (s : State) (r : Reg) (v : Word) : (s.setReg r v).callSp = s.callSp := by
  cases r <;> rfl
@[simp] theorem State.setReg_status (s : State) (r : Reg) (v : Word) : (s.setReg r v).status = s.status := by
  cases r <;> rfl
@[simp] theorem State.setReg_mem (s : State) (r : Reg) (v : Word) : (s.setReg r v).mem = s.mem := by
  cases r <;> rfl
@[simp] theorem State.setReg_heap (s : State) (r : Reg) (v : Word) : (s.setReg r v).heap = s.heap := by
  cases r <;> rfl
@[simp] theorem State.setReg_run (s : State) (r : Reg) (v : Word) : (s.setReg r v).run = s.run := by
  cases r <;> rfl
@[simp] theorem State.setReg_out (s : State) (r : Reg) (v : Word) : (s.setReg r v).out = s.out := by
  cases r <;> rfl
@[simp] theorem State.setReg_requests (s : State) (r : Reg) (v : Word) : (s.setReg r v).requests = s.requests := by
  cases r <;> rfl
@[simp] theorem State.setReg_answers (s : State) (r : Reg) (v : Word) : (s.setReg r v).answers = s.answers := by
  cases r <;> rfl
@[simp] theorem State.setReg_reads (s : State) (r : Reg) (v : Word) : (s.setReg r v).reads = s.reads := by
  cases r <;> rfl

/-- A register reads back what was written to it, and no other register changes. -/
theorem State.reg_setReg (s : State) (r q : Reg) (v : Word) :
    (s.setReg r v).reg q = if q = r then v else s.reg q := by
  cases r <;> cases q <;> rfl

/-! ## Moving PC -/

@[simp] theorem State.advance_a (s : State) (n : Nat) : (s.advance n).a = s.a := rfl
@[simp] theorem State.advance_b (s : State) (n : Nat) : (s.advance n).b = s.b := rfl
@[simp] theorem State.advance_x (s : State) (n : Nat) : (s.advance n).x = s.x := rfl
@[simp] theorem State.advance_y (s : State) (n : Nat) : (s.advance n).y = s.y := rfl
@[simp] theorem State.advance_pc (s : State) (n : Nat) : (s.advance n).pc = s.pc + BitVec.ofNat 16 n := rfl
@[simp] theorem State.advance_sp (s : State) (n : Nat) : (s.advance n).sp = s.sp := rfl
@[simp] theorem State.advance_callSp (s : State) (n : Nat) : (s.advance n).callSp = s.callSp := rfl
@[simp] theorem State.advance_status (s : State) (n : Nat) : (s.advance n).status = s.status := rfl
@[simp] theorem State.advance_mem (s : State) (n : Nat) : (s.advance n).mem = s.mem := rfl
@[simp] theorem State.advance_heap (s : State) (n : Nat) : (s.advance n).heap = s.heap := rfl
@[simp] theorem State.advance_run (s : State) (n : Nat) : (s.advance n).run = s.run := rfl
@[simp] theorem State.advance_out (s : State) (n : Nat) : (s.advance n).out = s.out := rfl
@[simp] theorem State.advance_requests (s : State) (n : Nat) : (s.advance n).requests = s.requests := rfl
@[simp] theorem State.advance_answers (s : State) (n : Nat) : (s.advance n).answers = s.answers := rfl
@[simp] theorem State.advance_reads (s : State) (n : Nat) : (s.advance n).reads = s.reads := rfl
@[simp] theorem consume_a (op : Operand) (s : State) : (consume op s).a = s.a := rfl
@[simp] theorem consume_b (op : Operand) (s : State) : (consume op s).b = s.b := rfl
@[simp] theorem consume_x (op : Operand) (s : State) : (consume op s).x = s.x := rfl
@[simp] theorem consume_y (op : Operand) (s : State) : (consume op s).y = s.y := rfl
@[simp] theorem consume_pc (op : Operand) (s : State) : (consume op s).pc = s.pc + BitVec.ofNat 16 op.extraBytes := rfl
@[simp] theorem consume_sp (op : Operand) (s : State) : (consume op s).sp = s.sp := rfl
@[simp] theorem consume_callSp (op : Operand) (s : State) : (consume op s).callSp = s.callSp := rfl
@[simp] theorem consume_status (op : Operand) (s : State) : (consume op s).status = s.status := rfl
@[simp] theorem consume_mem (op : Operand) (s : State) : (consume op s).mem = s.mem := rfl
@[simp] theorem consume_heap (op : Operand) (s : State) : (consume op s).heap = s.heap := rfl
@[simp] theorem consume_run (op : Operand) (s : State) : (consume op s).run = s.run := rfl
@[simp] theorem consume_out (op : Operand) (s : State) : (consume op s).out = s.out := rfl
@[simp] theorem consume_requests (op : Operand) (s : State) : (consume op s).requests = s.requests := rfl
@[simp] theorem consume_answers (op : Operand) (s : State) : (consume op s).answers = s.answers := rfl
@[simp] theorem consume_reads (op : Operand) (s : State) : (consume op s).reads = s.reads := rfl

theorem consume_eq (op : Operand) (s : State) : consume op s = Claims.pcPlus s op.extraBytes := rfl

/-! ## Writing the accumulator and a register with its flags -/

@[simp] theorem writeAccumulator_a (res : Word) (k : Nvzc) (s : State) :
    (writeAccumulator res k s).a = res := rfl
@[simp] theorem writeAccumulator_b (res : Word) (k : Nvzc) (s : State) :
    (writeAccumulator res k s).b = s.b := rfl
@[simp] theorem writeAccumulator_x (res : Word) (k : Nvzc) (s : State) :
    (writeAccumulator res k s).x = s.x := rfl
@[simp] theorem writeAccumulator_y (res : Word) (k : Nvzc) (s : State) :
    (writeAccumulator res k s).y = s.y := rfl
@[simp] theorem writeAccumulator_pc (res : Word) (k : Nvzc) (s : State) :
    (writeAccumulator res k s).pc = s.pc := rfl
@[simp] theorem writeAccumulator_sp (res : Word) (k : Nvzc) (s : State) :
    (writeAccumulator res k s).sp = s.sp := rfl
@[simp] theorem writeAccumulator_callSp (res : Word) (k : Nvzc) (s : State) :
    (writeAccumulator res k s).callSp = s.callSp := rfl
@[simp] theorem writeAccumulator_status (res : Word) (k : Nvzc) (s : State) :
    (writeAccumulator res k s).status = s.status.setNvzc k := rfl
@[simp] theorem writeAccumulator_mem (res : Word) (k : Nvzc) (s : State) :
    (writeAccumulator res k s).mem = s.mem := rfl
@[simp] theorem writeAccumulator_heap (res : Word) (k : Nvzc) (s : State) :
    (writeAccumulator res k s).heap = s.heap := rfl
@[simp] theorem writeAccumulator_run (res : Word) (k : Nvzc) (s : State) :
    (writeAccumulator res k s).run = s.run := rfl
@[simp] theorem writeAccumulator_out (res : Word) (k : Nvzc) (s : State) :
    (writeAccumulator res k s).out = s.out := rfl
@[simp] theorem writeAccumulator_requests (res : Word) (k : Nvzc) (s : State) :
    (writeAccumulator res k s).requests = s.requests := rfl
@[simp] theorem writeAccumulator_answers (res : Word) (k : Nvzc) (s : State) :
    (writeAccumulator res k s).answers = s.answers := rfl
@[simp] theorem writeAccumulator_reads (res : Word) (k : Nvzc) (s : State) :
    (writeAccumulator res k s).reads = s.reads := rfl
@[simp] theorem writeZN_pc (r : Reg) (v : Word) (s : State) : (writeZN r v s).pc = s.pc := by
  cases r <;> rfl
@[simp] theorem writeZN_sp (r : Reg) (v : Word) (s : State) : (writeZN r v s).sp = s.sp := by
  cases r <;> rfl
@[simp] theorem writeZN_callSp (r : Reg) (v : Word) (s : State) : (writeZN r v s).callSp = s.callSp := by
  cases r <;> rfl
@[simp] theorem writeZN_status (r : Reg) (v : Word) (s : State) : (writeZN r v s).status = s.status.setZN v := by
  cases r <;> rfl
@[simp] theorem writeZN_mem (r : Reg) (v : Word) (s : State) : (writeZN r v s).mem = s.mem := by
  cases r <;> rfl
@[simp] theorem writeZN_heap (r : Reg) (v : Word) (s : State) : (writeZN r v s).heap = s.heap := by
  cases r <;> rfl
@[simp] theorem writeZN_run (r : Reg) (v : Word) (s : State) : (writeZN r v s).run = s.run := by
  cases r <;> rfl
@[simp] theorem writeZN_out (r : Reg) (v : Word) (s : State) : (writeZN r v s).out = s.out := by
  cases r <;> rfl
@[simp] theorem writeZN_requests (r : Reg) (v : Word) (s : State) : (writeZN r v s).requests = s.requests := by
  cases r <;> rfl
@[simp] theorem writeZN_answers (r : Reg) (v : Word) (s : State) : (writeZN r v s).answers = s.answers := by
  cases r <;> rfl
@[simp] theorem writeZN_reads (r : Reg) (v : Word) (s : State) : (writeZN r v s).reads = s.reads := by
  cases r <;> rfl

/-! ## Aborting and resetting -/

@[simp] theorem abort_a (k : ErrorKind) (s : State) : (abort k s).a = s.a := rfl
@[simp] theorem abort_b (k : ErrorKind) (s : State) : (abort k s).b = s.b := rfl
@[simp] theorem abort_x (k : ErrorKind) (s : State) : (abort k s).x = s.x := rfl
@[simp] theorem abort_y (k : ErrorKind) (s : State) : (abort k s).y = s.y := rfl
@[simp] theorem abort_pc (k : ErrorKind) (s : State) : (abort k s).pc = s.pc := rfl
@[simp] theorem abort_sp (k : ErrorKind) (s : State) : (abort k s).sp = s.sp := rfl
@[simp] theorem abort_callSp (k : ErrorKind) (s : State) : (abort k s).callSp = s.callSp := rfl
@[simp] theorem abort_status (k : ErrorKind) (s : State) : (abort k s).status = { s.status with h := true } := rfl
@[simp] theorem abort_mem (k : ErrorKind) (s : State) : (abort k s).mem = s.mem := rfl
@[simp] theorem abort_heap (k : ErrorKind) (s : State) : (abort k s).heap = s.heap := rfl
@[simp] theorem abort_run (k : ErrorKind) (s : State) : (abort k s).run = .aborted k s.pc { s.status with h := true } := rfl
@[simp] theorem abort_out (k : ErrorKind) (s : State) : (abort k s).out = s.out := rfl
@[simp] theorem abort_requests (k : ErrorKind) (s : State) : (abort k s).requests = s.requests := rfl
@[simp] theorem abort_answers (k : ErrorKind) (s : State) : (abort k s).answers = s.answers := rfl
@[simp] theorem abort_reads (k : ErrorKind) (s : State) : (abort k s).reads = s.reads := rfl
@[simp] theorem resetSignal_a (s : State) : (resetSignal s).a = s.a := rfl
@[simp] theorem resetSignal_b (s : State) : (resetSignal s).b = s.b := rfl
@[simp] theorem resetSignal_x (s : State) : (resetSignal s).x = s.x := rfl
@[simp] theorem resetSignal_y (s : State) : (resetSignal s).y = s.y := rfl
@[simp] theorem resetSignal_pc (s : State) : (resetSignal s).pc = 0x2600 := rfl
@[simp] theorem resetSignal_sp (s : State) : (resetSignal s).sp = 0x23FF := rfl
@[simp] theorem resetSignal_callSp (s : State) : (resetSignal s).callSp = 0x25FF := rfl
@[simp] theorem resetSignal_status (s : State) : (resetSignal s).status = Status.zero := rfl
@[simp] theorem resetSignal_mem (s : State) : (resetSignal s).mem = s.mem := rfl
@[simp] theorem resetSignal_heap (s : State) : (resetSignal s).heap = [] := rfl
@[simp] theorem resetSignal_run (s : State) : (resetSignal s).run = s.run := rfl
@[simp] theorem resetSignal_out (s : State) : (resetSignal s).out = s.out := rfl
@[simp] theorem resetSignal_requests (s : State) : (resetSignal s).requests = s.requests := rfl
@[simp] theorem resetSignal_answers (s : State) : (resetSignal s).answers = s.answers := rfl
@[simp] theorem resetSignal_reads (s : State) : (resetSignal s).reads = s.reads := rfl

/-! ## The host's inputs -/

@[simp] theorem takeRequest_a (s : State) : (takeRequest s).a = s.a := rfl
@[simp] theorem takeRequest_b (s : State) : (takeRequest s).b = s.b := rfl
@[simp] theorem takeRequest_x (s : State) : (takeRequest s).x = s.x := rfl
@[simp] theorem takeRequest_y (s : State) : (takeRequest s).y = s.y := rfl
@[simp] theorem takeRequest_pc (s : State) : (takeRequest s).pc = s.pc := rfl
@[simp] theorem takeRequest_sp (s : State) : (takeRequest s).sp = s.sp := rfl
@[simp] theorem takeRequest_callSp (s : State) : (takeRequest s).callSp = s.callSp := rfl
@[simp] theorem takeRequest_status (s : State) : (takeRequest s).status = s.status := rfl
@[simp] theorem takeRequest_mem (s : State) : (takeRequest s).mem = s.mem := rfl
@[simp] theorem takeRequest_heap (s : State) : (takeRequest s).heap = s.heap := rfl
@[simp] theorem takeRequest_run (s : State) : (takeRequest s).run = s.run := rfl
@[simp] theorem takeRequest_out (s : State) : (takeRequest s).out = s.out := rfl
@[simp] theorem takeRequest_requests (s : State) : (takeRequest s).requests = s.requests.tail := rfl
@[simp] theorem takeRequest_answers (s : State) : (takeRequest s).answers = s.answers := rfl
@[simp] theorem takeRequest_reads (s : State) : (takeRequest s).reads = s.reads := rfl
@[simp] theorem takeAnswer_a (s : State) : (takeAnswer s).a = s.a := by
  unfold takeAnswer; split <;> rfl
@[simp] theorem takeAnswer_b (s : State) : (takeAnswer s).b = s.b := by
  unfold takeAnswer; split <;> rfl
@[simp] theorem takeAnswer_x (s : State) : (takeAnswer s).x = s.x := by
  unfold takeAnswer; split <;> rfl
@[simp] theorem takeAnswer_y (s : State) : (takeAnswer s).y = s.y := by
  unfold takeAnswer; split <;> rfl
@[simp] theorem takeAnswer_pc (s : State) : (takeAnswer s).pc = s.pc := by
  unfold takeAnswer; split <;> rfl
@[simp] theorem takeAnswer_sp (s : State) : (takeAnswer s).sp = s.sp := by
  unfold takeAnswer; split <;> rfl
@[simp] theorem takeAnswer_callSp (s : State) : (takeAnswer s).callSp = s.callSp := by
  unfold takeAnswer; split <;> rfl
@[simp] theorem takeAnswer_status (s : State) : (takeAnswer s).status = s.status := by
  unfold takeAnswer; split <;> rfl
@[simp] theorem takeAnswer_mem (s : State) : (takeAnswer s).mem = s.mem := by
  unfold takeAnswer; split <;> rfl
@[simp] theorem takeAnswer_heap (s : State) : (takeAnswer s).heap = s.heap := by
  unfold takeAnswer; split <;> rfl
@[simp] theorem takeAnswer_run (s : State) : (takeAnswer s).run = s.run := by
  unfold takeAnswer; split <;> rfl
@[simp] theorem takeAnswer_out (s : State) : (takeAnswer s).out = s.out := by
  unfold takeAnswer; split <;> rfl
@[simp] theorem takeAnswer_requests (s : State) : (takeAnswer s).requests = s.requests := by
  unfold takeAnswer; split <;> rfl

/-! ## The end of a cycle -/

@[simp] theorem endCycle_a (s : State) : (endCycle s).a = s.a := by
  unfold endCycle; split <;> rfl
@[simp] theorem endCycle_b (s : State) : (endCycle s).b = s.b := by
  unfold endCycle; split <;> rfl
@[simp] theorem endCycle_x (s : State) : (endCycle s).x = s.x := by
  unfold endCycle; split <;> rfl
@[simp] theorem endCycle_y (s : State) : (endCycle s).y = s.y := by
  unfold endCycle; split <;> rfl
@[simp] theorem endCycle_sp (s : State) : (endCycle s).sp = s.sp := by
  unfold endCycle; split <;> rfl
@[simp] theorem endCycle_callSp (s : State) : (endCycle s).callSp = s.callSp := by
  unfold endCycle; split <;> rfl
@[simp] theorem endCycle_status (s : State) : (endCycle s).status = s.status := by
  unfold endCycle; split <;> rfl
@[simp] theorem endCycle_mem (s : State) : (endCycle s).mem = s.mem := by
  unfold endCycle; split <;> rfl
@[simp] theorem endCycle_heap (s : State) : (endCycle s).heap = s.heap := by
  unfold endCycle; split <;> rfl
@[simp] theorem endCycle_out (s : State) : (endCycle s).out = s.out := by
  unfold endCycle; split <;> rfl
@[simp] theorem endCycle_requests (s : State) : (endCycle s).requests = s.requests := by
  unfold endCycle; split <;> rfl
@[simp] theorem endCycle_answers (s : State) : (endCycle s).answers = s.answers := by
  unfold endCycle; split <;> rfl
@[simp] theorem endCycle_reads (s : State) : (endCycle s).reads = s.reads := by
  unfold endCycle; split <;> rfl

theorem endCycle_running {s : State} (h : s.run = .running) :
    endCycle s = { s with pc := s.pc + 1, run := if s.status.h then .halted else .running } := by
  simp [endCycle, h]

theorem endCycle_aborted {s : State} {k : ErrorKind} {pc : Word} {t : Status} (h : s.run = .aborted k pc t) :
    endCycle s = s := by
  simp [endCycle, h]

theorem endCycle_halted {s : State} (h : s.run = .halted) : endCycle s = s := by
  simp [endCycle, h]

end Sys2Proof.Machine
end

