-- ==== Sys2Proof/Laws/Ops.lean ====
section
/-! SUPPORT. What each shared operation over the stacks, the SignalController and the operands can do. -/

namespace Sys2Proof.Machine

/-! ## Pushing and popping a word -/

/-- R266: a push with room below the pointer. -/
theorem push_ok {floor : Nat} {ptr : Word} (v : Word) (m : Memory) (h : floor + 2 ≤ ptr.toNat) (hf : 2 ≤ floor) :
    push floor ptr v m
      = .ok (ptr - 2, (m.write ptr.toNat (hiByte v)).write (ptr.toNat - 1) (loByte v)) := by
  have hlt := ptr.isLt
  have h1 : validPriv ptr.toNat = true := (validPriv_iff _).2 (by omega)
  have h2 : validPriv (ptr.toNat - 1) = true := (validPriv_iff _).2 (by omega)
  simp [push, h1, h2, Nat.not_lt.2 h]

/-- R266: a push without room raises StackFault. -/
theorem push_full {floor : Nat} {ptr : Word} (v : Word) (m : Memory) (h : ptr.toNat < floor + 2) :
    push floor ptr v m = .error .stackFault := by
  simp [push, h]

/-- R267: a pop below the top. -/
theorem pop_ok {top : Nat} {ptr : Word} (m : Memory) (h : ptr.toNat + 2 ≤ top) (ht : top < 0x10000)
    (hp : 1 ≤ ptr.toNat) :
    pop top ptr m = .ok (m.read (ptr.toNat + 2) ++ m.read (ptr.toNat + 1), ptr + 2) := by
  have h1 : validPriv (ptr.toNat + 1) = true := (validPriv_iff _).2 (by omega)
  have h2 : validPriv (ptr.toNat + 2) = true := (validPriv_iff _).2 (by omega)
  simp [pop, h1, h2, Nat.not_lt.2 h]

/-- R267: a pop at the top raises StackFault. -/
theorem pop_empty {top : Nat} {ptr : Word} (m : Memory) (h : top < ptr.toNat + 2) :
    pop top ptr m = .error .stackFault := by
  simp [pop, h]

theorem pushData_ok {s : State} (v : Word) (h : 0x2002 ≤ s.sp.toNat) :
    pushData v s = .ok { s with
      sp := s.sp - 2
      mem := (s.mem.write s.sp.toNat (hiByte v)).write (s.sp.toNat - 1) (loByte v) } := by
  rw [pushData, push_ok v s.mem (show cfg.stackFloor + 2 ≤ s.sp.toNat from h) (by decide)]

theorem pushData_full {s : State} (v : Word) (h : s.sp.toNat < 0x2002) : pushData v s = .error .stackFault := by
  rw [pushData, push_full v s.mem (show s.sp.toNat < cfg.stackFloor + 2 from h)]

theorem popData_ok {s : State} (h : s.sp.toNat + 2 ≤ 0x23FF) (h1 : 1 ≤ s.sp.toNat) :
    popData s = .ok (s.mem.read (s.sp.toNat + 2) ++ s.mem.read (s.sp.toNat + 1), { s with sp := s.sp + 2 }) := by
  rw [popData, pop_ok s.mem (show s.sp.toNat + 2 ≤ cfg.stackTop from h) (by decide) h1]

theorem popData_empty {s : State} (h : 0x23FF < s.sp.toNat + 2) : popData s = .error .stackFault := by
  rw [popData, pop_empty s.mem (show cfg.stackTop < s.sp.toNat + 2 from h)]

theorem pushCall_ok {s : State} (v : Word) (h : 0x2402 ≤ s.callSp.toNat) :
    pushCall v s = .ok { s with
      callSp := s.callSp - 2
      mem := (s.mem.write s.callSp.toNat (hiByte v)).write (s.callSp.toNat - 1) (loByte v) } := by
  rw [pushCall, push_ok v s.mem (show cfg.callFloor + 2 ≤ s.callSp.toNat from h) (by decide)]

theorem pushCall_full {s : State} (v : Word) (h : s.callSp.toNat < 0x2402) : pushCall v s = .error .stackFault := by
  rw [pushCall, push_full v s.mem (show s.callSp.toNat < cfg.callFloor + 2 from h)]

theorem popCall_ok {s : State} (h : s.callSp.toNat + 2 ≤ 0x25FF) (h1 : 1 ≤ s.callSp.toNat) :
    popCall s = .ok (s.mem.read (s.callSp.toNat + 2) ++ s.mem.read (s.callSp.toNat + 1),
      { s with callSp := s.callSp + 2 }) := by
  rw [popCall, pop_ok s.mem (show s.callSp.toNat + 2 ≤ cfg.callTop from h) (by decide) h1]

theorem popCall_empty {s : State} (h : 0x25FF < s.callSp.toNat + 2) : popCall s = .error .stackFault := by
  rw [popCall, pop_empty s.mem (show cfg.callTop < s.callSp.toNat + 2 from h)]

/-- The two bytes of a pushed word read back as the word. -/
theorem read_pushed (m : Memory) {p : Nat} (hp : 1 ≤ p) (v : Word) :
    (((m.write p (hiByte v)).write (p - 1) (loByte v)).read p
      ++ ((m.write p (hiByte v)).write (p - 1) (loByte v)).read (p - 1) : Word) = v := by
  rw [Memory.read_write_other _ _ (by omega : p ≠ p - 1), Memory.read_write_same, Memory.read_write_same,
    hi_append_lo]

/-! ## The SignalController -/

/-- The word in vector slot `k`. -/
theorem privRead_vector (m : Memory) {k : Nat} (hk : k < 8) :
    privRead .word (vectorSlot k) m = .ok (m.read (vectorSlot k) ++ m.read (vectorSlot k + 1)) := by
  have : allValid validPriv (vectorSlot k) Width.word.bytes = true := by
    rw [allValid_iff]
    intro j hj
    rw [validPriv_iff]
    simp only [Width.bytes] at hj
    simp only [vectorSlot, cfg]
    omega
  rw [privRead, if_pos this]; rfl

/-- R306, R309: the three things a trap can do. -/
theorem trap_unhandled {k : Nat} (hk : k < 8) (kind : ErrorKind) {s : State}
    (h : (s.mem.read (vectorSlot k) ++ s.mem.read (vectorSlot k + 1) : Word) = 0) :
    trap k kind s = abort kind s := by
  rw [trap, privRead_vector _ hk]
  exact if_pos h

theorem trap_double {k : Nat} (hk : k < 8) (kind : ErrorKind) {s : State}
    (h : (s.mem.read (vectorSlot k) ++ s.mem.read (vectorSlot k + 1) : Word) ≠ 0) (hc : s.callSp.toNat < 0x2402) :
    trap k kind s = abort .stackFault s := by
  rw [trap, privRead_vector _ hk]
  simp only [if_neg h, pushCall_full _ hc]

theorem trap_taken {k : Nat} (hk : k < 8) (kind : ErrorKind) {s : State}
    (h : (s.mem.read (vectorSlot k) ++ s.mem.read (vectorSlot k + 1) : Word) ≠ 0) (hc : 0x2402 ≤ s.callSp.toNat) :
    trap k kind s = { s with
      pc := (s.mem.read (vectorSlot k) ++ s.mem.read (vectorSlot k + 1) : Word) - 1
      callSp := s.callSp - 2
      mem := (s.mem.write s.callSp.toNat (hiByte s.pc)).write (s.callSp.toNat - 1) (loByte s.pc) } := by
  rw [trap, privRead_vector _ hk]
  simp only [if_neg h, pushCall_ok _ hc]

/-- Everything a trap can do, said once. -/
theorem trap_cases {k : Nat} (hk : k < 8) (kind : ErrorKind) (s : State) :
    trap k kind s = abort kind s ∨ trap k kind s = abort .stackFault s
      ∨ (0x2402 ≤ s.callSp.toNat ∧ (s.mem.read (vectorSlot k) ++ s.mem.read (vectorSlot k + 1) : Word) ≠ 0
        ∧ trap k kind s = { s with
          pc := (s.mem.read (vectorSlot k) ++ s.mem.read (vectorSlot k + 1) : Word) - 1
          callSp := s.callSp - 2
          mem := (s.mem.write s.callSp.toNat (hiByte s.pc)).write (s.callSp.toNat - 1) (loByte s.pc) }) := by
  by_cases h : (s.mem.read (vectorSlot k) ++ s.mem.read (vectorSlot k + 1) : Word) = 0
  · exact .inl (trap_unhandled hk kind h)
  · by_cases hc : s.callSp.toNat < 0x2402
    · exact .inr (.inl (trap_double hk kind h hc))
    · exact .inr (.inr ⟨by omega, h, trap_taken hk kind h (by omega)⟩)

theorem raise_segmentation (s : State) : raise .segmentation s = abort .segmentationFault s := rfl

theorem raise_kill (s : State) : raise .kill s = abort .kill s := rfl

theorem raise_reset (s : State) : raise .reset s = resetSignal s := rfl

theorem raise_illegalInstruction (s : State) : raise .illegalInstruction s = trap 2 .illegalInstruction s := rfl

theorem raise_arithmeticFault (s : State) : raise .arithmeticFault s = trap 3 .arithmeticFault s := rfl

theorem raise_stackFault (s : State) : raise .stackFault s = trap 4 .stackFault s := rfl

theorem raise_systemFault (s : State) : raise .systemFault s = trap 5 .systemFault s := rfl

/-- Everything raising a signal other than Reset can do: an abort, or the entry of a handler. -/
theorem raise_cases {sg : Signal} (h : sg ≠ .reset) (s : State) :
    (∃ kind, raise sg s = abort kind s)
      ∨ (0x2402 ≤ s.callSp.toNat ∧ ∃ v : Word, Claims.isHandler s.mem v ∧ raise sg s = { s with
          pc := v - 1
          callSp := s.callSp - 2
          mem := (s.mem.write s.callSp.toNat (hiByte s.pc)).write (s.callSp.toNat - 1) (loByte s.pc) }) := by
  have key : ∀ k kind, 2 ≤ k → k ≤ 5 → (∃ kind', trap k kind s = abort kind' s)
      ∨ (0x2402 ≤ s.callSp.toNat ∧ ∃ v : Word, Claims.isHandler s.mem v ∧ trap k kind s = { s with
          pc := v - 1
          callSp := s.callSp - 2
          mem := (s.mem.write s.callSp.toNat (hiByte s.pc)).write (s.callSp.toNat - 1) (loByte s.pc) }) := by
    intro k kind h2 h5
    rcases trap_cases (by omega : k < 8) kind s with h | h | ⟨room, hv, h⟩
    · exact .inl ⟨_, h⟩
    · exact .inl ⟨_, h⟩
    · exact .inr ⟨room, _, ⟨k, h2, h5, hv, rfl⟩, h⟩
  cases sg with
  | segmentation => exact .inl ⟨_, rfl⟩
  | kill => exact .inl ⟨_, rfl⟩
  | illegalInstruction => exact key 2 _ (by omega) (by omega)
  | arithmeticFault => exact key 3 _ (by omega) (by omega)
  | stackFault => exact key 4 _ (by omega) (by omega)
  | systemFault => exact key 5 _ (by omega) (by omega)
  | reset => exact absurd rfl h

/-! ## Operands -/

@[simp] theorem effectiveAddress_consume (m : MemMode) (addr : Word) (op : Operand) (s : State) :
    effectiveAddress m addr (consume op s) = effectiveAddress m addr s := by
  cases m <;> rfl

@[simp] theorem resolveLoad_consume (op op' : Operand) (s : State) :
    resolveLoad op (consume op' s) = resolveLoad op s := by
  cases op <;> simp [resolveLoad]

@[simp] theorem resolveLocation_consume (op op' : Operand) (s : State) :
    resolveLocation op (consume op' s) = resolveLocation op s := by
  cases op <;> simp [resolveLocation]

@[simp] theorem readLocation_consume (loc : Location) (op : Operand) (s : State) :
    readLocation loc (consume op s) = readLocation loc s := by
  cases loc <;> rfl

theorem orRaise_ok {α : Type} {r : Except Signal α} {v : α} (h : r = .ok v) (s : State) (k : α → Result) :
    orRaise r s k = k v := by rw [h]; rfl

theorem orRaise_error {α : Type} {r : Except Signal α} {sg : Signal} (h : r = .error sg) (s : State)
    (k : α → Result) : orRaise r s k = .next (raise sg s) := by rw [h]; rfl

/-- R124: an instruction whose operand resolves goes on with its value, PC at its last byte. -/
theorem withValue_ok {op : Operand} {s : State} {v : Word} (h : resolveLoad op s = .ok v)
    (k : Word → State → Result) : withValue op s k = k v (consume op s) :=
  orRaise_ok (by rw [resolveLoad_consume, h]) _ _

theorem withValue_error {op : Operand} {s : State} {sg : Signal} (h : resolveLoad op s = .error sg)
    (k : Word → State → Result) : withValue op s k = .next (raise sg (consume op s)) :=
  orRaise_error (by rw [resolveLoad_consume, h]) _ _

theorem withTarget_ok {op : Operand} {t : Word} (h : resolveTarget op = .ok t) (s : State)
    (k : Word → State → Result) : withTarget op s k = k t (consume op s) :=
  orRaise_ok h _ _

theorem withTarget_error {op : Operand} {sg : Signal} (h : resolveTarget op = .error sg) (s : State)
    (k : Word → State → Result) : withTarget op s k = .next (raise sg (consume op s)) :=
  orRaise_error h _ _

/-- An effective address can only fail by a pointer read. -/
theorem effectiveAddress_error {m : MemMode} {addr : Word} {s : State} {sg : Signal}
    (h : effectiveAddress m addr s = .error sg) : sg = .segmentation := by
  have key : ∀ {β : Type} {f : Word → β} {r : Except Signal Word}, r.map f = .error sg → r = .error sg := by
    intro β f r hr
    cases r with
    | error e => simpa [Except.map] using hr
    | ok v => simp [Except.map] at hr
  cases m <;> simp only [effectiveAddress, reduceCtorEq] at h <;> exact memRead_error_segmentation (key h)

/-- A class-L operand fails by Segmentation, or by being register-A mode. -/
theorem resolveLoad_error {op : Operand} {s : State} {sg : Signal} (h : resolveLoad op s = .error sg) :
    sg = .segmentation ∨ (sg = .illegalInstruction ∧ op = .registerA) := by
  cases op with
  | immediate v => simp [resolveLoad] at h
  | registerA => exact .inr ⟨by simpa [resolveLoad] using h.symm, rfl⟩
  | registerB => simp [resolveLoad] at h
  | memory m short addr =>
    left
    simp only [resolveLoad] at h
    split at h
    · next sg' he => rw [← Except.error.inj h]; exact effectiveAddress_error he
    · exact memRead_error_segmentation h

/-- A branch target resolves exactly in full-word absolute mode (R127). -/
theorem resolveTarget_ok {op : Operand} {t : Word} (h : resolveTarget op = .ok t) :
    op = .memory .absolute false t := by
  cases op with
  | immediate v => simp [resolveTarget] at h
  | registerA => simp [resolveTarget] at h
  | registerB => simp [resolveTarget] at h
  | memory m short addr =>
    cases m <;> simp only [resolveTarget, reduceCtorEq] at h
    cases short <;> simp_all

theorem resolveTarget_error {op : Operand} {sg : Signal} (h : resolveTarget op = .error sg) :
    sg = .illegalInstruction := by
  cases op with
  | immediate v => simpa [resolveTarget] using h.symm
  | registerA => simpa [resolveTarget] using h.symm
  | registerB => simpa [resolveTarget] using h.symm
  | memory m short addr =>
    cases m <;> simp only [resolveTarget, Except.error.injEq] at h
    case absolute => cases short <;> simp_all
    all_goals exact h.symm

theorem resolveStore_error {v : Word} {op : Operand} {s : State} {sg : Signal}
    (h : resolveStore v op s = .error sg) : sg = .segmentation ∨ sg = .illegalInstruction := by
  cases op with
  | immediate w => right; simpa [resolveStore] using h.symm
  | registerA => right; simpa [resolveStore] using h.symm
  | registerB => simp [resolveStore] at h
  | memory m short addr =>
    left
    simp only [resolveStore] at h
    split at h
    · next sg' he => rw [← Except.error.inj h]; exact effectiveAddress_error he
    · split at h
      · next sg' he =>
        rw [← Except.error.inj h]
        unfold memWrite at he
        split at he
        · cases he
        · simpa using he.symm
      · cases h

theorem resolveLocation_error {op : Operand} {s : State} {sg : Signal} (h : resolveLocation op s = .error sg) :
    sg = .segmentation ∨ sg = .illegalInstruction := by
  cases op with
  | immediate w => right; simpa [resolveLocation] using h.symm
  | registerA => simp [resolveLocation] at h
  | registerB => simp [resolveLocation] at h
  | memory m short addr =>
    simp only [resolveLocation] at h
    split at h
    · right; simpa using h.symm
    · left
      cases he : effectiveAddress m addr s with
      | error sg' =>
        rw [he] at h
        have : sg' = sg := by simpa [Except.map] using h
        rw [← this]; exact effectiveAddress_error he
      | ok ea => rw [he] at h; simp [Except.map] at h

end Sys2Proof.Machine
end

