-- ==== Sys2Proof/Laws/Exec.lean ====
section
/-! SUPPORT. Everything an instruction can do, said once: `exec_effect`. The shared operations answer one of the thirteen
effects, and every claim about all instructions is a case analysis over them. -/

namespace Sys2Proof.Machine

/-- Two states that differ only in the general registers, PC, the four arithmetic flags and the host's answers. -/
structure Quiet (s t : State) : Prop where
  sp : t.sp = s.sp
  callSp : t.callSp = s.callSp
  mem : t.mem = s.mem
  heap : t.heap = s.heap
  out : t.out = s.out
  run : t.run = s.run
  requests : t.requests = s.requests
  u : t.status.u = s.status.u
  h : t.status.h = s.status.h
  i : t.status.i = s.status.i
  f : t.status.f = s.status.f

/-- The state with PC moved and perhaps one host answer taken: what a signal is raised on (R303, R315). -/
structure Fetched (s u : State) : Prop where
  quiet : Quiet s u
  a : u.a = s.a
  b : u.b = s.b
  x : u.x = s.x
  y : u.y = s.y
  status : u.status = s.status

/-- The memory after a word is pushed at a stack pointer (R266). -/
def pushedMemory (m : Memory) (ptr v : Word) : Memory :=
  (m.write ptr.toNat (hiByte v)).write (ptr.toNat - 1) (loByte v)

variable {i : Instr}

/-- What the instruction `i` can do. -/
inductive Effect (i : Instr) (s : State) : State → Prop where
  /-- Registers, PC and the arithmetic flags only. -/
  | quiet {t : State} (q : Quiet s t) : Effect i s t
  /-- HALT. -/
  | halt : Effect i s { s with status := { s.status with h := true } }
  /-- A guest store. -/
  | stored {t : State} (ea : Nat) (v : Word) (w : Width) (g : Claims.guestRange ea w.bytes)
      (q : Quiet { s with mem := s.mem.setValue ea v w } t) : Effect i s t
  /-- A push on the data stack. -/
  | pushed {t : State} (v : Word) (room : 0x2002 ≤ s.sp.toNat)
      (q : Quiet { s with sp := s.sp - 2, mem := pushedMemory s.mem s.sp v } t) : Effect i s t
  /-- A pull from the data stack. -/
  | pulled {t : State} (room : s.sp.toNat + 2 ≤ 0x23FF) (q : Quiet { s with sp := s.sp + 2 } t) : Effect i s t
  /-- A call. -/
  | called {t : State} (op : Operand) (jsr : i = .jsr op) (v : Word) (room : 0x2402 ≤ s.callSp.toNat)
      (q : Quiet { s with callSp := s.callSp - 2, mem := pushedMemory s.mem s.callSp v } t) : Effect i s t
  /-- The entry of a handler. -/
  | trapped {t : State} (target v : Word) (handler : Claims.isHandler s.mem target) (pc : t.pc = target - 1)
      (room : 0x2402 ≤ s.callSp.toNat)
      (q : Quiet { s with callSp := s.callSp - 2, mem := pushedMemory s.mem s.callSp v } t) : Effect i s t
  /-- A return. -/
  | returned {t : State} (rts : i = .rts) (room : s.callSp.toNat + 2 ≤ 0x25FF) (q : Quiet { s with callSp := s.callSp + 2 } t) :
      Effect i s t
  /-- A console read. -/
  | line {t : State} (a : Nat) (bytes : List Byte) (g : Claims.guestRange a bytes.length)
      (q : Quiet { s with mem := s.mem.writeBytes a bytes } t) : Effect i s t
  /-- A console output. -/
  | printed {t : State} (event : OutEvent) (q : Quiet { s with out := s.out ++ [event] } t) : Effect i s t
  /-- A change of the heap list. -/
  | heap {t : State} (h : Heap) (ok : s.heap.ok = true → h.ok = true) (q : Quiet { s with heap := h } t) : Effect i s t
  /-- A reallocation that moves its block. -/
  | moved {t : State} (h : Heap) (dst src n : Nat)
      (ok : s.heap.ok = true → h.ok = true ∧ cfg.heapFloor ≤ dst ∧ dst + n ≤ cfg.heapCeil)
      (q : Quiet { s with heap := h, mem := s.mem.copy dst src n } t) : Effect i s t
  /-- An abort: nothing but PC, H and the run state has changed (R315). -/
  | aborted {u : State} (kind : ErrorKind) (f : Fetched s u) : Effect i s (abort kind u)

theorem Quiet.rfl' (s : State) : Quiet s s := by constructor <;> rfl

theorem Quiet.trans {s t u : State} (h : Quiet s t) (k : Quiet t u) : Quiet s u :=
  ⟨k.sp.trans h.sp, k.callSp.trans h.callSp, k.mem.trans h.mem, k.heap.trans h.heap, k.out.trans h.out,
    k.run.trans h.run, k.requests.trans h.requests, k.u.trans h.u, k.h.trans h.h, k.i.trans h.i, k.f.trans h.f⟩

theorem fetched_refl (s : State) : Fetched s s := ⟨Quiet.rfl' s, rfl, rfl, rfl, rfl, rfl⟩

theorem fetched_pc (s : State) (p : Word) : Fetched s { s with pc := p } :=
  ⟨by constructor <;> rfl, rfl, rfl, rfl, rfl, rfl⟩

theorem fetched_consume (op : Operand) (s : State) : Fetched s (consume op s) := fetched_pc s _

theorem fetched_takeAnswer {s u : State} (h : Fetched s u) : Fetched s (takeAnswer u) := by
  have q := h.quiet
  refine ⟨⟨?_, ?_, ?_, ?_, ?_, ?_, ?_, ?_, ?_, ?_, ?_⟩, ?_, ?_, ?_, ?_, ?_⟩ <;> simp
  all_goals first
    | exact q.sp | exact q.callSp | exact q.mem | exact q.heap | exact q.out | exact q.run | exact q.requests
    | exact q.u | exact q.h | exact q.i | exact q.f | exact h.a | exact h.b | exact h.x | exact h.y | exact h.status

/-- A signal of an instruction is an abort or a trap entry. -/
theorem effect_raise {s u : State} {sg : Signal} (hs : sg ≠ .reset) (f : Fetched s u) : Effect i s (raise sg u) := by
  have q := f.quiet
  rcases raise_cases hs u with ⟨kind, h⟩ | ⟨room, v, hv, h⟩
  · rw [h]; exact .aborted kind f
  · rw [h]
    refine .trapped v u.pc (q.mem ▸ hv) rfl (q.callSp ▸ room) ⟨q.sp, ?_, ?_, q.heap, q.out, q.run, q.requests, q.u, q.h, q.i, q.f⟩
    · show u.callSp - 2 = s.callSp - 2
      rw [q.callSp]
    · show pushedMemory u.mem u.callSp u.pc = pushedMemory s.mem s.callSp u.pc
      rw [q.callSp, q.mem]

/-- A resolution that only raises the two signals of operands goes on or raises. -/
theorem effect_orRaise {α : Type} {r : Except Signal α} {s u t : State} {k : α → Result} (f : Fetched s u)
    (hr : ∀ sg, r = .error sg → sg ≠ .reset) (hk : ∀ v, r = .ok v → k v = .next t → Effect i s t)
    (h : orRaise r u k = .next t) : Effect i s t := by
  cases r with
  | error sg =>
    rw [orRaise_error rfl] at h
    injection h with h
    rw [← h]; exact effect_raise (hr sg rfl) f
  | ok v => exact hk v rfl h

theorem resolveLoad_not_reset {op : Operand} {s : State} {sg : Signal} (h : resolveLoad op s = .error sg) :
    sg ≠ .reset := by
  rcases resolveLoad_error h with rfl | ⟨rfl, -⟩ <;> simp

theorem effect_withValue {op : Operand} {s t : State} {k : Word → State → Result}
    (hk : ∀ v, k v (consume op s) = .next t → Effect i s t) (h : withValue op s k = .next t) : Effect i s t :=
  effect_orRaise (fetched_consume op s) (fun _ he => resolveLoad_not_reset he) (fun v _ => hk v) h

theorem effect_withTarget {op : Operand} {s t : State} {k : Word → State → Result}
    (hk : ∀ v, k v (consume op s) = .next t → Effect i s t) (h : withTarget op s k = .next t) : Effect i s t :=
  effect_orRaise (fetched_consume op s) (fun _ he => by rw [resolveTarget_error he]; simp) (fun v _ => hk v) h

/-- A class-L instruction that then only changes registers and arithmetic flags. -/
theorem effect_withValue_quiet {op : Operand} {s t : State} {k : Word → State → Result}
    (hk : ∀ v, ∃ u, k v (consume op s) = .next u ∧ Quiet s u) (h : withValue op s k = .next t) : Effect i s t := by
  refine effect_withValue (fun v hv => ?_) h
  obtain ⟨u, hu, q⟩ := hk v
  rw [hu] at hv
  injection hv with hv
  exact hv ▸ .quiet q

theorem quiet_setReg (r : Reg) (v : Word) (s : State) : Quiet s (s.setReg r v) := by
  cases r <;> constructor <;> rfl

theorem quiet_writeZN (r : Reg) (v : Word) (s : State) : Quiet s (writeZN r v s) := by
  cases r <;> constructor <;> rfl

theorem quiet_writeAccumulator (v : Word) (k : Nvzc) (s : State) : Quiet s (writeAccumulator v k s) := by
  constructor <;> rfl

theorem effect_loadRegister {r : Reg} {op : Operand} {s t : State} (h : loadRegister r op s = .next t) : Effect i s t :=
  effect_withValue_quiet (fun v => ⟨(consume op s).setReg r v, rfl,
    (fetched_consume op s).quiet.trans (quiet_setReg r v (consume op s))⟩)
    (k := fun v s => .next (s.setReg r v)) h

theorem effect_storeRegister {r : Reg} {op : Operand} {s t : State} (h : storeRegister r op s = .next t) :
    Effect i s t := by
  refine effect_orRaise (fetched_consume op s)
    (fun sg he => by rcases resolveStore_error he with rfl | rfl <;> simp) (fun u hu hn => ?_) h
  injection hn with hn
  subst hn
  cases op with
  | immediate v => cases hu
  | registerA => cases hu
  | registerB =>
    injection hu with hu
    exact hu ▸ .quiet (by constructor <;> rfl)
  | memory m short addr =>
    simp only [resolveStore] at hu
    split at hu
    · cases hu
    · split at hu
      · cases hu
      · next m' hw =>
        injection hu with hu
        obtain ⟨g, rfl⟩ := memWrite_cases hw
        exact hu ▸ .stored _ _ _ g (by constructor <;> rfl)

theorem effect_logical {f : Word → Word → Word} {op : Operand} {s t : State} (h : logical f op s = .next t) :
    Effect i s t :=
  effect_withValue_quiet (fun v => ⟨writeZN .a (f s.a v) (consume op s), rfl,
    (fetched_consume op s).quiet.trans (quiet_writeZN _ _ (consume op s))⟩)
    (k := fun v s => .next (writeZN .a (f s.a v) s)) h

theorem effect_compareRegister {r : Reg} {op : Operand} {s t : State} (h : compareRegister r op s = .next t) :
    Effect i s t :=
  effect_withValue_quiet (fun _ => ⟨_, rfl, by constructor <;> rfl⟩)
    (k := fun v s => .next { s with status := s.status.setCompare (s.reg r) v }) h

theorem memRead_not_reset {w : Width} {a : Nat} {m : Memory} {sg : Signal} (h : memRead w a m = .error sg) :
    sg ≠ .reset := by
  rw [memRead_error_segmentation h]; simp

theorem effect_shiftLocation {f : Word → Bool → Word × Bool} {op : Operand} {s t : State}
    (h : shiftLocation f op s = .next t) : Effect i s t := by
  have fc := fetched_consume op s
  unfold shiftLocation at h
  refine effect_orRaise fc (fun sg he => by rcases resolveLocation_error he with rfl | rfl <;> simp)
    (fun loc _ h => ?_) h
  refine effect_orRaise fc (fun sg he => ?_) (fun v _ h => ?_) h
  · cases loc with
    | registerA => cases he
    | registerB => cases he
    | word ea => exact memRead_not_reset he
  refine effect_orRaise fc (fun sg he => ?_) (fun u hu h => ?_) h
  · cases loc with
    | registerA => cases he
    | registerB => cases he
    | word ea =>
      simp only [writeLocation] at he
      split at he
      · next hw =>
        unfold memWrite at hw
        split at hw
        · cases hw
        · injection hw with hw; injection he with he; rw [← he, ← hw]; simp
      · cases he
  · injection h with h
    cases loc with
    | registerA => injection hu with hu; subst hu; exact h ▸ .quiet (by constructor <;> rfl)
    | registerB => injection hu with hu; subst hu; exact h ▸ .quiet (by constructor <;> rfl)
    | word ea =>
      simp only [writeLocation] at hu
      split at hu
      · cases hu
      · next m' hw =>
        injection hu with hu
        subst hu
        obtain ⟨g, rfl⟩ := memWrite_cases hw
        exact h ▸ .stored ea _ .word g (by constructor <;> rfl)

theorem effect_pushRegister {r : Reg} {s t : State} (h : pushRegister r s = .next t) : Effect i s t := by
  by_cases hr : 0x2002 ≤ s.sp.toNat
  · rw [pushRegister, pushData_ok _ hr] at h
    injection h with h
    exact h ▸ .pushed (s.reg r) hr (by constructor <;> rfl)
  · rw [pushRegister, pushData_full _ (by omega)] at h
    injection h with h
    exact h ▸ effect_raise (by simp) (fetched_refl s)

theorem pop_error {top : Nat} {p : Word} {m : Memory} {sg : Signal} (h : pop top p m = .error sg) : sg ≠ .reset := by
  unfold pop at h
  split at h
  · injection h with h; rw [← h]; simp
  · split at h
    · cases h
    · injection h with h; rw [← h]; simp

theorem pop_inv {top : Nat} {p v q : Word} {m : Memory} (h : pop top p m = .ok (v, q)) :
    p.toNat + 2 ≤ top ∧ q = p + 2 ∧ v = m.read (p.toNat + 2) ++ m.read (p.toNat + 1) := by
  unfold pop at h
  split at h
  · cases h
  · next hc =>
    split at h
    · injection h with h
      obtain ⟨rfl, rfl⟩ := Prod.mk.inj h
      exact ⟨by omega, rfl, rfl⟩
    · cases h

theorem effect_pullRegister {r : Reg} {s t : State} (h : pullRegister r s = .next t) : Effect i s t := by
  rw [pullRegister, popData] at h
  cases hp : pop cfg.stackTop s.sp s.mem with
  | error sg =>
    rw [hp] at h
    injection h with h
    exact h ▸ effect_raise (pop_error hp) (fetched_refl s)
  | ok r' =>
    rw [hp] at h
    obtain ⟨hr, hq, -⟩ := pop_inv (v := r'.1) (q := r'.2) hp
    injection h with h
    exact h ▸ .pulled hr (hq ▸ quiet_setReg r _ _)

theorem effect_branchIf {taken : Bool} {op : Operand} {s t : State} (h : branchIf taken op s = .next t) :
    Effect i s t := by
  refine effect_withTarget (fun v hv => ?_) h
  injection hv with hv
  refine hv ▸ .quiet ?_
  cases taken <;> constructor <;> rfl

theorem effect_jsr {op : Operand} {s t : State} (h : execJsr op s = .next t) : Effect (.jsr op) s t := by
  refine effect_withTarget (fun v hv => ?_) h
  by_cases hr : 0x2402 ≤ s.callSp.toNat
  · rw [pushCall_ok _ (by rw [consume_callSp]; exact hr)] at hv
    injection hv with hv
    exact hv ▸ .called op rfl _ hr (by constructor <;> rfl)
  · rw [pushCall_full _ (by rw [consume_callSp]; omega)] at hv
    injection hv with hv
    exact hv ▸ effect_raise (by simp) (fetched_consume op s)

theorem effect_returnFromCall (s : State) : Effect .rts s (returnFromCall s) := by
  rw [returnFromCall, popCall]
  cases hp : pop cfg.callTop s.callSp s.mem with
  | error sg => exact effect_raise (pop_error hp) (fetched_refl s)
  | ok r' =>
    obtain ⟨hr, hq, -⟩ := pop_inv (v := r'.1) (q := r'.2) hp
    exact .returned rfl hr (by constructor <;> first | rfl | exact hq)

theorem effect_zeroDivisor {op : Operand} {s t : State} {p : Word}
    (h : zeroDivisor p (consume op s) = .next t) : Effect i s t := by
  injection h with h
  exact h ▸ effect_raise (by simp) (fetched_pc s p)

theorem quiet_deliver (r : Option Nat) (s : State) : Quiet s (deliver r s) := by
  cases r <;> constructor <;> rfl

theorem Quiet.deliver {s u : State} (f : Quiet s u) (r : Option Nat) : Quiet s (Machine.deliver r u) :=
  f.trans (quiet_deliver r u)

theorem Quiet.withHeap {s u : State} (f : Quiet s u) (h : Heap) : Quiet { s with heap := h } { u with heap := h } :=
  ⟨f.sp, f.callSp, f.mem, rfl, f.out, f.run, f.requests, f.u, f.h, f.i, f.f⟩

theorem Quiet.withMemory {s u : State} (f : Quiet s u) (m : Memory) : Quiet { s with mem := m } { u with mem := m } :=
  ⟨f.sp, f.callSp, rfl, f.heap, f.out, f.run, f.requests, f.u, f.h, f.i, f.f⟩

theorem effect_allocateInto {size : Nat} {s u : State} (f : Quiet s u) : Effect i s (allocateInto size u) := by
  rw [allocateInto]
  cases ha : allocate size u.heap with
  | none => exact .quiet (f.deliver _)
  | some r =>
    refine .heap r.2 (fun ho => (allocate_some (a := r.1) (f.heap ▸ ho) ha).2.2.2) ?_
    exact (f.withHeap r.2).deliver (some r.1)

theorem effect_moveBlock {o : Block} {n : Nat} {s u t : State} (f : Quiet s u) (hn : o.size < n)
    (h : moveBlock o n u = .ok t) : Effect i s t := by
  rw [moveBlock] at h
  cases ha : allocate n u.heap with
  | none =>
    rw [ha] at h
    injection h with h
    exact h ▸ .quiet (f.deliver _)
  | some r =>
    rw [ha] at h
    dsimp only at h
    split at h
    · injection h with h
      refine h ▸ .moved (removeBlock o.start r.2) r.1 o.start o.size (fun ho => ?_) ?_
      · obtain ⟨-, h1, h2, h3⟩ := allocate_some (a := r.1) (f.heap ▸ ho) ha
        exact ⟨Heap.orderedFrom_removeBlock _ h3, h1, by omega⟩
      · rw [f.mem]
        exact ((f.withHeap (removeBlock o.start r.2)).withMemory (s.mem.copy r.1 o.start o.size)).deliver (some r.1)
    · cases h

theorem moveBlock_error {o : Block} {n : Nat} {s : State} {sg : Signal} (h : moveBlock o n s = .error sg) :
    sg ≠ .reset := by
  rw [moveBlock] at h
  cases ha : allocate n s.heap with
  | none => rw [ha] at h; cases h
  | some r =>
    rw [ha] at h
    dsimp only at h
    split at h
    · cases h
    · injection h with h; rw [← h]; simp

/-- Growing an object in place keeps the allocator's invariant. -/
theorem ok_resize {a n : Nat} {h : Heap} {o : Block} {next : Option Block} (ho : h.ok = true)
    (hl : locate a h = some (o, next)) (hn : o.size < n) (hc : o.start + n ≤ cfg.heapCeil)
    (hx : ∀ p ∈ next, o.start + n ≤ p.start) : (resize o.start n h).ok = true := by
  obtain ⟨pre, post, rfl, rfl, rfl, hp⟩ := locate_some hl
  rw [resize_append hp rfl]
  exact Heap.orderedFrom_grow ho (by omega) hc hx

theorem effect_reallocate {a n : Nat} {create : Bool} {s u t : State} (f : Quiet s u)
    (h : reallocate a n create u = .ok t) : Effect i s t := by
  have hgrow : ∀ (o : Block) next, locate a u.heap = some (o, next) → o.size < n → o.start + n ≤ cfg.heapCeil →
      (∀ p ∈ next, o.start + n ≤ p.start) →
      Effect i s (deliver (some o.start) { u with heap := resize o.start n u.heap }) := by
    intro o next hl hn hc hx
    refine .heap (resize o.start n u.heap) (fun ho => ok_resize (f.heap ▸ ho) hl hn hc hx) ?_
    exact (f.withHeap _).deliver (some o.start)
  rw [reallocate] at h
  cases hl : locate a u.heap with
  | none =>
    rw [hl] at h
    injection h with h
    subst h
    cases create
    · exact .quiet (f.deliver none)
    · exact effect_allocateInto f
  | some r =>
    obtain ⟨o, next⟩ := r
    rw [hl] at h
    dsimp only at h
    split at h
    · injection h with h
      exact h ▸ .quiet (f.deliver _)
    · next hn =>
      cases next with
      | none =>
        dsimp only at h
        split at h
        · next hc =>
          injection h with h
          exact h ▸ hgrow o none hl (by omega) hc (by simp)
        · injection h with h
          exact h ▸ .quiet (f.deliver _)
      | some nxt =>
        dsimp only at h
        split at h
        · next hc =>
          injection h with h
          subst h
          refine .heap (resize o.start n u.heap) (fun ho => ?_) ((f.withHeap _).deliver (some o.start))
          have ho : u.heap.ok = true := f.heap ▸ ho
          obtain ⟨pre, post, hs, hst, hnx, hp⟩ := locate_some hl
          have hnxt : nxt ∈ u.heap := by
            rw [hs]
            exact List.mem_append_right _ (List.mem_cons_of_mem _ (List.mem_of_mem_head? (hnx ▸ rfl)))
          have hb := Heap.orderedFrom_mem ho hnxt
          simp only [Block.stop] at hb
          exact ok_resize ho hl (by omega) (by omega) (by simpa using hc)
        · exact effect_moveBlock f (by omega) h

theorem reallocate_error {a n : Nat} {create : Bool} {s : State} {sg : Signal}
    (h : reallocate a n create s = .error sg) : sg ≠ .reset := by
  rw [reallocate] at h
  cases hl : locate a s.heap with
  | none => rw [hl] at h; cases h
  | some r =>
    obtain ⟨o, next⟩ := r
    rw [hl] at h
    dsimp only at h
    split at h
    · cases h
    · cases next with
      | none => dsimp only at h; split at h <;> cases h
      | some nxt =>
        dsimp only at h
        split at h
        · cases h
        · exact moveBlock_error h

theorem effect_systemCall {n : Word} {s u t : State} (f : Fetched s u) (h : systemCall n u = .next t) :
    Effect i s t := by
  have q := f.quiet
  have hprint : ∀ event, printBytes event u = .next t → Effect i s t := by
    intro event h
    unfold printBytes at h
    split at h
    · injection h with h
      refine h ▸ .printed (event (u.mem.readBytes u.b.toNat u.a.toNat))
        ⟨q.sp, q.callSp, q.mem, q.heap, ?_, q.run, q.requests, q.u, q.h, q.i, q.f⟩
      show u.out ++ _ = s.out ++ _
      rw [q.out]
    · injection h with h
      exact h ▸ effect_raise (by simp) f
  have hre : ∀ a n create, orRaise (reallocate a n create u) u .next = .next t → Effect i s t := by
    intro a n create h
    refine effect_orRaise f (fun _ he => reallocate_error he) (fun v hv hn => ?_) h
    injection hn with hn
    exact hn ▸ effect_reallocate q hv
  unfold systemCall at h
  split at h
  · unfold readLine at h
    split at h
    · cases h
    · next bytes _ =>
      have f' := fetched_takeAnswer f
      have q' := f'.quiet
      unfold storeLine at h
      split at h
      · next hv =>
        injection h with h
        refine h ▸ .line _ (lineBytes bytes) ((allValid_guest_iff _ _).1 hv)
          ⟨q'.sp, q'.callSp, ?_, q'.heap, q'.out, q'.run, q'.requests, q'.u, q'.h, q'.i, q'.f⟩
        show (takeAnswer u).mem.writeBytes _ _ = s.mem.writeBytes _ _
        rw [q'.mem]
      · injection h with h
        exact h ▸ effect_raise (by simp) f'
  · split at h
    · exact hprint _ h
    · split at h
      · exact hprint _ h
      · split at h
        · unfold freeBlock at h
          split at h
          · injection h with h
            refine h ▸ .heap (removeBlock u.b.toNat u.heap)
              (fun ho => Heap.orderedFrom_removeBlock _ (q.heap ▸ ho))
              ⟨q.sp, q.callSp, q.mem, rfl, q.out, q.run, q.requests, q.u, q.h, q.i, q.f⟩
          · injection h with h
            exact h ▸ .aborted _ f
        · split at h
          · injection h with h
            exact h ▸ effect_allocateInto q
          · split at h
            · exact hre _ _ _ h
            · split at h
              · exact hre _ _ _ h
              · injection h with h
                exact h ▸ effect_raise (by simp) f

/-- Everything an instruction can do. -/
theorem exec_effect {s t : State} (h : exec i s = .next t) : Effect i s t := by
  have hnext : ∀ {u : State}, Quiet s u → Host.Outcome.next u = (.next t : Result) → Effect i s t := by
    intro u q h
    injection h with h
    exact h ▸ .quiet q
  have hacc : ∀ {op : Operand} {g : State → Word → Word} {k : State → Word → Nvzc},
      withValue op s (fun v u => .next (writeAccumulator (g u v) (k u v) u)) = .next t → Effect i s t := by
    intro op g k h
    exact effect_withValue_quiet
      (fun v => ⟨writeAccumulator (g (consume op s) v) (k (consume op s) v) (consume op s), rfl,
        (fetched_consume op s).quiet.trans (quiet_writeAccumulator _ _ (consume op s))⟩)
      (k := fun v u => .next (writeAccumulator (g u v) (k u v) u)) h
  cases i with
  | noop => exact hnext (Quiet.rfl' s) h
  | loada op => exact effect_loadRegister h
  | storea op => exact effect_storeRegister h
  | loadb op => exact effect_loadRegister h
  | storeb op => exact effect_storeRegister h
  | loadx op => exact effect_loadRegister h
  | storex op => exact effect_storeRegister h
  | loady op => exact effect_loadRegister h
  | storey op => exact effect_storeRegister h
  | addca op => exact hacc (g := fun u v => addResult u.a v u.status.c) (k := fun u v => addFlags u.a v u.status.c) h
  | subca op => exact hacc (g := fun u v => subResult u.a v u.status.c) (k := fun u v => subFlags u.a v u.status.c) h
  | multa op => exact hacc (g := fun u v => smulResult u.a v) (k := fun u v => smulFlags u.a v) h
  | multua op =>
    exact hacc (g := fun u v => if mulOverflows u.a v then u.a else mulResult u.a v) (k := fun u v => mulFlags u.a v) h
  | diva op =>
    simp only [exec, execDiva] at h
    refine effect_withValue (fun v hv => ?_) h
    split at hv
    · exact effect_zeroDivisor hv
    · injection hv with hv
      exact hv ▸ .quiet (by constructor <;> rfl)
  | divua op =>
    simp only [exec, execDivua] at h
    refine effect_withValue (fun v hv => ?_) h
    split at hv
    · exact effect_zeroDivisor hv
    · injection hv with hv
      exact hv ▸ .quiet (by constructor <;> rfl)
  | anda op => exact effect_logical h
  | ora op => exact effect_logical h
  | xora op => exact effect_logical h
  | lsl op => exact effect_shiftLocation h
  | lsr op => exact effect_shiftLocation h
  | rol op => exact effect_shiftLocation h
  | ror op => exact effect_shiftLocation h
  | inca => exact hnext (quiet_writeZN _ _ s) h
  | deca => exact hnext (quiet_writeZN _ _ s) h
  | incb => exact hnext (quiet_writeZN _ _ s) h
  | decb => exact hnext (quiet_writeZN _ _ s) h
  | incx => exact hnext (quiet_writeZN _ _ s) h
  | decx => exact hnext (quiet_writeZN _ _ s) h
  | incy => exact hnext (quiet_writeZN _ _ s) h
  | decy => exact hnext (quiet_writeZN _ _ s) h
  | cmpa op => exact effect_compareRegister h
  | cmpb op => exact effect_compareRegister h
  | cmpx op => exact effect_compareRegister h
  | cmpy op => exact effect_compareRegister h
  | clc => exact hnext (by constructor <;> rfl) h
  | sec => exact hnext (by constructor <;> rfl) h
  | jmp op => exact effect_branchIf h
  | brz op => exact effect_branchIf h
  | brnz op => exact effect_branchIf h
  | brc op => exact effect_branchIf h
  | brnc op => exact effect_branchIf h
  | jsr op => exact effect_jsr h
  | rts =>
    injection h with h
    exact h ▸ effect_returnFromCall s
  | pha => exact effect_pushRegister h
  | pla => exact effect_pullRegister h
  | phb => exact effect_pushRegister h
  | plb => exact effect_pullRegister h
  | fadda op =>
    exact hacc (g := fun u v => (cfg.fp16 .fadd u.a v).1) (k := fun u v => (cfg.fp16 .fadd u.a v).2) h
  | fsuba op =>
    exact hacc (g := fun u v => (cfg.fp16 .fsub u.a v).1) (k := fun u v => (cfg.fp16 .fsub u.a v).2) h
  | fmulta op =>
    exact hacc (g := fun u v => (cfg.fp16 .fmult u.a v).1) (k := fun u v => (cfg.fp16 .fmult u.a v).2) h
  | fdiva op =>
    simp only [exec, execFdiva] at h
    refine effect_withValue (fun v hv => ?_) h
    split at hv
    · exact effect_zeroDivisor hv
    · injection hv with hv
      exact hv ▸ .quiet (by constructor <;> rfl)
  | syscall op => exact effect_withValue (fun v hv => effect_systemCall (fetched_consume op s) hv) h
  | halt =>
    injection h with h
    exact h ▸ .halt

end Sys2Proof.Machine
end

