-- ==== Sys2Proof/Laws/PerInstr.lean ====
section
/-! SUPPORT. Facts about every instruction as syntax, one lemma per constructor: family RoundTrip, that decoding the
bytes of a well-formed instruction gives it back, whatever bytes follow. -/

namespace Sys2Proof

theorem Opcode.mem_all (o : Opcode) : o ∈ Opcode.all := by cases o <;> decide

theorem ModeTag.mem_all (t : ModeTag) : t ∈ ModeTag.all := by
  cases t with
  | memory m => cases m <;> decide
  | immediate => decide
  | registerA => decide
  | registerB => decide

/-- R7, R100: the byte of an opcode gives the opcode back. -/
theorem opcodeOf_opcodeByte (o : Opcode) : opcodeOf (cfg.opcodeByte o) = some o := by cases o <;> rfl

theorem opcodeForm_opcodeByte (o : Opcode) : opcodeForm (cfg.opcodeByte o) = some o.form := by
  rw [opcodeForm, opcodeOf_opcodeByte]; rfl

/-- R101: a byte that names an opcode is that opcode's. -/
theorem opcodeByte_of_opcodeOf {b : Byte} {o : Opcode} (h : opcodeOf b = some o) : cfg.opcodeByte o = b := by
  simpa using List.find?_some h

/-- R7, R96: the value of a tag gives the tag back. -/
theorem tagOf_modeTag (t : ModeTag) : tagOf (cfg.modeTag t).toNat = some t := by
  cases t with
  | memory m => cases m <;> rfl
  | immediate => rfl
  | registerA => rfl
  | registerB => rfl

/-- Every operand of a class decodes from its own bytes (R91, R92, R97). -/
theorem decodeOperand_encode {c : ModeClass} {op : Operand} (h : op.inClass c = true) (mk : Operand → Instr)
    (rest : List Byte) : decodeOperand c mk (op.encode ++ rest) = .instr (mk op) (1 + op.extraBytes) := by
  have key : ∀ (mb : Byte) (w : Word) (n : Nat), decodeMode mb w = some op →
      classify c mk mb w n = .instr (mk op) n := by
    intro mb w n hd
    simp [classify, hd, h]
  cases op with
  | immediate v =>
    rw [Operand.encode, List.cons_append, List.cons_append, List.cons_append, decodeOperand, if_neg (by decide)]
    exact key _ _ _ (by rw [Machine.hi_append_lo]; rfl)
  | registerA =>
    rw [Operand.encode, List.cons_append, decodeOperand.eq_def]
    exact key 0x08 0 2 rfl
  | registerB =>
    rw [Operand.encode, List.cons_append, decodeOperand.eq_def]
    exact key 0x09 0 2 rfl
  | memory m short addr =>
    rw [Operand.encode, List.cons_append, List.cons_append, List.cons_append, decodeOperand,
      if_neg (by cases m <;> cases short <;> decide)]
    exact key _ _ _ (by rw [Machine.hi_append_lo]; cases m <;> cases short <;> rfl)

theorem Operand.length_encode (op : Operand) : op.encode.length = op.extraBytes := by
  cases op <;> rfl

/-- R90: an instruction's bytes are as many as its length says. -/
theorem length_encode (i : Instr) : (encode i).length = i.length := by
  unfold encode Instr.length
  cases i.form with
  | none => rfl
  | some p => simp [Operand.length_encode, Nat.add_comm]

theorem decode_implied {b : Byte} {i : Instr} (h : opcodeForm b = some (.implied i)) (rest : List Byte) :
    decode (b :: rest) = .instr i 1 := by
  simp [decode, h]

theorem decode_withOperand {b : Byte} {c : ModeClass} {mk : Operand → Instr}
    (h : opcodeForm b = some (.withOperand c mk)) (rest : List Byte) :
    decode (b :: rest) = decodeOperand c mk rest := by
  simp [decode, h]

end Sys2Proof

namespace Sys2Proof.Laws.RoundTrip

/-- The instruction, if well formed, decodes from its own bytes, whatever follows them. -/
def Statement (i : Instr) : Prop :=
  i.wellFormed = true → ∀ rest, decode (encode i ++ rest) = .instr i i.length

/-- The one-byte instructions. -/
theorem of_implied {i : Instr} (hf : i.form = none) (hc : i.opcode.form = .implied i) :
    Statement i := by
  intro _ rest
  simp only [encode, hf, Instr.length, List.cons_append, List.nil_append]
  exact decode_implied (by rw [opcodeForm_opcodeByte, hc]) rest

/-- The instructions with an operand. -/
theorem of_operand {i : Instr} {c : ModeClass} {op : Operand} {mk : Operand → Instr} (hf : i.form = some (c, op))
    (hc : i.opcode.form = .withOperand c mk) (hi : mk op = i) : Statement i := by
  intro hw rest
  simp only [Instr.wellFormed, hf] at hw
  simp only [encode, hf, Instr.length, List.cons_append]
  rw [decode_withOperand (by rw [opcodeForm_opcodeByte, hc]), decodeOperand_encode hw, hi]

theorem noop : Statement .noop := of_implied rfl rfl

theorem loada (op : Operand) : Statement (.loada op) := of_operand rfl rfl rfl

theorem storea (op : Operand) : Statement (.storea op) := of_operand rfl rfl rfl

theorem loadb (op : Operand) : Statement (.loadb op) := of_operand rfl rfl rfl

theorem storeb (op : Operand) : Statement (.storeb op) := of_operand rfl rfl rfl

theorem loadx (op : Operand) : Statement (.loadx op) := of_operand rfl rfl rfl

theorem storex (op : Operand) : Statement (.storex op) := of_operand rfl rfl rfl

theorem loady (op : Operand) : Statement (.loady op) := of_operand rfl rfl rfl

theorem storey (op : Operand) : Statement (.storey op) := of_operand rfl rfl rfl

theorem addca (op : Operand) : Statement (.addca op) := of_operand rfl rfl rfl

theorem subca (op : Operand) : Statement (.subca op) := of_operand rfl rfl rfl

theorem multa (op : Operand) : Statement (.multa op) := of_operand rfl rfl rfl

theorem multua (op : Operand) : Statement (.multua op) := of_operand rfl rfl rfl

theorem diva (op : Operand) : Statement (.diva op) := of_operand rfl rfl rfl

theorem divua (op : Operand) : Statement (.divua op) := of_operand rfl rfl rfl

theorem anda (op : Operand) : Statement (.anda op) := of_operand rfl rfl rfl

theorem ora (op : Operand) : Statement (.ora op) := of_operand rfl rfl rfl

theorem xora (op : Operand) : Statement (.xora op) := of_operand rfl rfl rfl

theorem lsl (op : Operand) : Statement (.lsl op) := of_operand rfl rfl rfl

theorem lsr (op : Operand) : Statement (.lsr op) := of_operand rfl rfl rfl

theorem rol (op : Operand) : Statement (.rol op) := of_operand rfl rfl rfl

theorem ror (op : Operand) : Statement (.ror op) := of_operand rfl rfl rfl

theorem inca : Statement .inca := of_implied rfl rfl

theorem deca : Statement .deca := of_implied rfl rfl

theorem incb : Statement .incb := of_implied rfl rfl

theorem decb : Statement .decb := of_implied rfl rfl

theorem incx : Statement .incx := of_implied rfl rfl

theorem decx : Statement .decx := of_implied rfl rfl

theorem incy : Statement .incy := of_implied rfl rfl

theorem decy : Statement .decy := of_implied rfl rfl

theorem cmpa (op : Operand) : Statement (.cmpa op) := of_operand rfl rfl rfl

theorem cmpb (op : Operand) : Statement (.cmpb op) := of_operand rfl rfl rfl

theorem cmpx (op : Operand) : Statement (.cmpx op) := of_operand rfl rfl rfl

theorem cmpy (op : Operand) : Statement (.cmpy op) := of_operand rfl rfl rfl

theorem clc : Statement .clc := of_implied rfl rfl

theorem sec : Statement .sec := of_implied rfl rfl

theorem jmp (op : Operand) : Statement (.jmp op) := of_operand rfl rfl rfl

theorem brz (op : Operand) : Statement (.brz op) := of_operand rfl rfl rfl

theorem brnz (op : Operand) : Statement (.brnz op) := of_operand rfl rfl rfl

theorem brc (op : Operand) : Statement (.brc op) := of_operand rfl rfl rfl

theorem brnc (op : Operand) : Statement (.brnc op) := of_operand rfl rfl rfl

theorem jsr (op : Operand) : Statement (.jsr op) := of_operand rfl rfl rfl

theorem rts : Statement .rts := of_implied rfl rfl

theorem pha : Statement .pha := of_implied rfl rfl

theorem pla : Statement .pla := of_implied rfl rfl

theorem phb : Statement .phb := of_implied rfl rfl

theorem plb : Statement .plb := of_implied rfl rfl

theorem fadda (op : Operand) : Statement (.fadda op) := of_operand rfl rfl rfl

theorem fsuba (op : Operand) : Statement (.fsuba op) := of_operand rfl rfl rfl

theorem fmulta (op : Operand) : Statement (.fmulta op) := of_operand rfl rfl rfl

theorem fdiva (op : Operand) : Statement (.fdiva op) := of_operand rfl rfl rfl

theorem syscall (op : Operand) : Statement (.syscall op) := of_operand rfl rfl rfl

theorem halt : Statement .halt := of_implied rfl rfl

end Sys2Proof.Laws.RoundTrip
end

