-- ==== Sys2Proof/Tests/Slice0.lean ====
section
/-! SUPPORT. Tests: the checks of WellFormed, the decoding of a word of every constructor, one step of every instruction
on the vectors of spec/95_test_vectors.md (cited as T<n>), and a witness for the hypotheses of every statement. -/

namespace Sys2Proof.Tests

open Sys2Proof Sys2Proof.Machine Sys2Proof.Claims

/-! ## Configuration -/

theorem test_cfg_wellFormed : cfg.wellFormed = true := by decide

/-- R7: what the spec fixes of the maps, on the configuration itself: a short base that does not lie above every tag, or two
opcodes with one byte, makes it ill-formed. -/
theorem test_cfg_illFormed :
    (Cfg.wellFormed { cfg with shortBase := 0 }) = false
    ∧ (Cfg.wellFormed { cfg with opcodeByte := fun _ => 0x00 }) = false
    ∧ (Cfg.wellFormed { cfg with modeTag := fun _ => 0x00 }) = false := by decide

theorem test_signals_wellFormed : cfg.signalsWellFormed = true := by decide

theorem test_reset_memory_wf : State.reset.mem.wf := by decide

/-! ## WellFormed: an ill-formed term for each check of R98 -/

theorem test_wf_value_registerA : (Instr.loada .registerA).wellFormed = false := by decide

theorem test_wf_destination_immediate : (Instr.storea (.immediate 0x0005)).wellFormed = false := by decide

theorem test_wf_destination_registerA : (Instr.storex .registerA).wellFormed = false := by decide

theorem test_wf_rmw_immediate : (Instr.lsl (.immediate 0x0001)).wellFormed = false := by decide

theorem test_wf_rmw_short : (Instr.ror (.memory .absolute true 0x0200)).wellFormed = false := by decide

theorem test_wf_target_immediate : (Instr.jmp (.immediate 0x2610)).wellFormed = false := by decide

theorem test_wf_target_registers :
    (Instr.jsr .registerA).wellFormed = false ∧ (Instr.brz .registerB).wellFormed = false := by decide

theorem test_wf_target_indexed : (Instr.brz (.memory .xIndexed false 0x2610)).wellFormed = false := by decide

theorem test_wf_target_short : (Instr.brnc (.memory .absolute true 0x2610)).wellFormed = false := by decide

/-! ## Decoding: a word of every constructor, from R96 and R100 -/

theorem test_decode_control :
    decode [0x00] = .instr .noop 1 ∧ decode [0xFF] = .instr .halt 1 := by decide

theorem test_decode_loads :
    decode [0x01, 0x00, 0x02, 0x00] = .instr (.loada (.memory .absolute false 0x0200)) 4
    ∧ decode [0x03, 0x10, 0x02, 0x00] = .instr (.loadb (.memory .absolute true 0x0200)) 4
    ∧ decode [0x05, 0x01, 0x02, 0x00] = .instr (.loadx (.memory .xIndexed false 0x0200)) 4
    ∧ decode [0x07, 0x09] = .instr (.loady .registerB) 2 := by decide

theorem test_decode_stores :
    decode [0x02, 0x06, 0x02, 0xFE] = .instr (.storea (.memory .indexedIndirectX false 0x02FE)) 4
    ∧ decode [0x04, 0x04, 0x12, 0x34] = .instr (.storeb (.memory .indirectIndexedX false 0x1234)) 4
    ∧ decode [0x06, 0x09] = .instr (.storex .registerB) 2
    ∧ decode [0x08, 0x17, 0xAB, 0xCD] = .instr (.storey (.memory .indexedIndirectY true 0xABCD)) 4 := by decide

theorem test_decode_alu :
    decode [0x10, 0x03, 0x00, 0x03] = .instr (.addca (.immediate 0x0003)) 4
    ∧ decode [0x11, 0x02, 0x12, 0x34] = .instr (.subca (.memory .yIndexed false 0x1234)) 4
    ∧ decode [0x12, 0x09] = .instr (.multa .registerB) 2
    ∧ decode [0x13, 0x12, 0x12, 0x34] = .instr (.multua (.memory .yIndexed true 0x1234)) 4
    ∧ decode [0x14, 0x03, 0x80, 0x00] = .instr (.diva (.immediate 0x8000)) 4
    ∧ decode [0x15, 0x05, 0x12, 0x34] = .instr (.divua (.memory .indirectIndexedY false 0x1234)) 4 := by decide

theorem test_decode_logic :
    decode [0x18, 0x03, 0x0F, 0x0F] = .instr (.anda (.immediate 0x0F0F)) 4
    ∧ decode [0x19, 0x14, 0x12, 0x34] = .instr (.ora (.memory .indirectIndexedX true 0x1234)) 4
    ∧ decode [0x1A, 0x15, 0x12, 0x34] = .instr (.xora (.memory .indirectIndexedY true 0x1234)) 4 := by decide

theorem test_decode_shifts :
    decode [0x20, 0x08] = .instr (.lsl .registerA) 2
    ∧ decode [0x21, 0x09] = .instr (.lsr .registerB) 2
    ∧ decode [0x22, 0x07, 0x12, 0x34] = .instr (.rol (.memory .indexedIndirectY false 0x1234)) 4
    ∧ decode [0x23, 0x00, 0x02, 0x00] = .instr (.ror (.memory .absolute false 0x0200)) 4 := by decide

theorem test_decode_incDec :
    decode [0x28] = .instr .inca 1 ∧ decode [0x29] = .instr .deca 1 ∧ decode [0x2A] = .instr .incb 1
    ∧ decode [0x2B] = .instr .decb 1 ∧ decode [0x2C] = .instr .incx 1 ∧ decode [0x2D] = .instr .decx 1
    ∧ decode [0x2E] = .instr .incy 1 ∧ decode [0x2F] = .instr .decy 1 := by decide

theorem test_decode_compare :
    decode [0x30, 0x03, 0x00, 0x05] = .instr (.cmpa (.immediate 0x0005)) 4
    ∧ decode [0x31, 0x09] = .instr (.cmpb .registerB) 2
    ∧ decode [0x32, 0x11, 0x02, 0x00] = .instr (.cmpx (.memory .xIndexed true 0x0200)) 4
    ∧ decode [0x33, 0x16, 0x02, 0x00] = .instr (.cmpy (.memory .indexedIndirectX true 0x0200)) 4
    ∧ decode [0x38] = .instr .clc 1 ∧ decode [0x39] = .instr .sec 1 := by decide

theorem test_decode_transfer :
    decode [0x40, 0x00, 0x26, 0x10] = .instr (.jmp (.memory .absolute false 0x2610)) 4
    ∧ decode [0x41, 0x00, 0x26, 0x10] = .instr (.brz (.memory .absolute false 0x2610)) 4
    ∧ decode [0x42, 0x00, 0x26, 0x10] = .instr (.brnz (.memory .absolute false 0x2610)) 4
    ∧ decode [0x43, 0x00, 0x26, 0x10] = .instr (.brc (.memory .absolute false 0x2610)) 4
    ∧ decode [0x44, 0x00, 0x26, 0x10] = .instr (.brnc (.memory .absolute false 0x2610)) 4
    ∧ decode [0x48, 0x00, 0x26, 0x0B] = .instr (.jsr (.memory .absolute false 0x260B)) 4
    ∧ decode [0x49] = .instr .rts 1 := by decide

theorem test_decode_stack :
    decode [0x50] = .instr .pha 1 ∧ decode [0x51] = .instr .pla 1
    ∧ decode [0x52] = .instr .phb 1 ∧ decode [0x53] = .instr .plb 1 := by decide

theorem test_decode_fpu_syscall :
    decode [0x60, 0x03, 0x40, 0x00] = .instr (.fadda (.immediate 0x4000)) 4
    ∧ decode [0x61, 0x09] = .instr (.fsuba .registerB) 2
    ∧ decode [0x62, 0x00, 0x02, 0x00] = .instr (.fmulta (.memory .absolute false 0x0200)) 4
    ∧ decode [0x63, 0x03, 0x80, 0x00] = .instr (.fdiva (.immediate 0x8000)) 4
    ∧ decode [0x70, 0x03, 0x00, 0x13] = .instr (.syscall (.immediate 0x0013)) 4 := by decide

/-- T2, R101, R102: what does not decode. -/
theorem test_decode_rejects :
    decode [0xEE] = .unknownOpcode
    ∧ decode [0x01, 0x0A, 0x00, 0x00] = .illegalMode 4
    ∧ decode [0x01, 0x13, 0x00, 0x00] = .illegalMode 4
    ∧ decode [0x01, 0x19, 0x00, 0x00] = .illegalMode 4
    ∧ decode [0x01, 0x08] = .illegalCombination 2
    ∧ decode [0x20, 0x10, 0x02, 0x00] = .illegalCombination 4
    ∧ decode [0x40, 0x03, 0x26, 0x10] = .illegalCombination 4
    ∧ decode [0x01, 0x00, 0x26] = .truncated 3 := by decide

/-- The table word of R96's example numbering: the opcode in bits 7..0, the mode byte above it, absent bits zero. -/
theorem test_decodeTableWord :
    decodeTableWord 8 0x39 = some .sec
    ∧ decodeTableWord 16 0x0301 = some (.loada (.immediate 0))
    ∧ decodeTableWord 32 0x05000301 = some (.loada (.immediate 0x0005))
    ∧ decodeTableWord 8 0xEE = none := by decide

/-! ## One step -/

/-- The state with a byte string as the image. -/
def image (bytes : List Byte) (s : State) : State := { s with mem := s.mem.writeBytes 0x2600 bytes }

/-- The state with bytes stored from an address on. -/
def stored (a : Nat) (bytes : List Byte) (s : State) : State := { s with mem := s.mem.writeBytes a bytes }

/-- The outcome is a next state with this property. -/
def gives (r : Result) (p : State → Bool) : Bool :=
  match r with
  | .next t => p t
  | .fault _ => false
  | .refused _ => false

/-- The register file of the tests: A, B, X and Y, with STATUS from its byte. -/
def regs (a b x y : Word) (status : Byte) : State :=
  { State.reset with
    a := a
    b := b
    x := x
    y := y
    status := Status.ofByte status }

/-- Running, with this PC, A and STATUS. -/
def runs (pc a : Word) (status : Byte) (t : State) : Bool :=
  t.run == .running && t.pc == pc && t.a == a && t.status.toByte == status

/-- Aborted, with this kind and PC. -/
def aborts (kind : ErrorKind) (pc : Word) (t : State) : Bool :=
  t.run == .aborted kind pc t.status && t.pc == pc && t.status.h

/-- The word placed at the fetch address runs as the first instruction after reset. -/
theorem test_withFetchWord :
    gives (step (State.reset.withFetchWord 16 0x0301))
      (fun t => t == { State.reset.withFetchWord 16 0x0301 with pc := 0x2604 }) = true := by decide

/-- T21. -/
theorem test_step_loada :
    gives (step (image [0x01, 0x03, 0x00, 0x05] State.reset)) (runs 0x2604 0x0005 0x00) = true := by decide

/-- T2: the null guard. -/
theorem test_step_loada_nullGuard :
    gives (step (image [0x01, 0x00, 0x00, 0x01] State.reset)) (aborts .segmentationFault 0x2603) = true := by decide

/-- T2: a short access to the last data-stack byte is legal. -/
theorem test_step_loadb :
    gives (step (stored 0x23FF [0x7F] (image [0x03, 0x10, 0x23, 0xFF] State.reset)))
      (fun t => t.b == 0x007F && t.run == .running) = true := by decide

/-- R129 of the load table: an indirect-indexed load, `mem[0x0200..] = 12 34 56 78`, pointer 0x0200 at 0x0300, X = 2. -/
theorem test_step_loadx :
    gives (step (stored 0x0300 [0x02, 0x00] (stored 0x0200 [0x12, 0x34, 0x56, 0x78]
      (image [0x05, 0x04, 0x03, 0x00] (regs 0 0 2 0 0))))) (fun t => t.x == 0x5678) = true := by decide

/-- T2: no wrap of an effective address. -/
theorem test_step_loady_noWrap :
    gives (step (image [0x07, 0x01, 0xFF, 0xFF] (regs 0 0 2 0 0))) (aborts .segmentationFault 0x2603) = true := by
  decide

/-- T2: indexed-indirect store. -/
theorem test_step_storea :
    gives (step (stored 0x0300 [0x02, 0x00] (image [0x02, 0x06, 0x02, 0xFE] (regs 0xABCD 0 2 0 0))))
      (fun t => t.mem.readBytes 0x0200 2 == [0xAB, 0xCD] && t.pc == 0x2604) = true := by decide

/-- T2: a short store keeps the next byte. -/
theorem test_step_storea_short :
    gives (step (stored 0x0200 [0x12, 0x34] (image [0x02, 0x10, 0x02, 0x00] (regs 0xABCD 0 0 0 0))))
      (fun t => t.mem.readBytes 0x0200 2 == [0xCD, 0x34]) = true := by decide

/-- T25. -/
theorem test_step_storeb :
    gives (step (image [0x04, 0x00, 0x02, 0x00] (regs 0 0x1000 0 0 0)))
      (fun t => t.mem.readBytes 0x0200 2 == [0x10, 0x00]) = true := by decide

/-- T2. -/
theorem test_step_storex :
    gives (step (image [0x06, 0x09] (regs 0 0 2 0 0))) (fun t => t.b == 0x0002 && t.pc == 0x2602) = true := by decide

/-- R148 with the Y-indexed mode, by hand. -/
theorem test_step_storey :
    gives (step (image [0x08, 0x02, 0x02, 0x00] (regs 0 0 0 0x0010 0)))
      (fun t => t.mem.readBytes 0x0210 2 == [0x00, 0x10]) = true := by decide

/-- T3. -/
theorem test_step_addca_overflow :
    gives (step (image [0x10, 0x03, 0x00, 0x01] (regs 0x7FFF 0 0 0 0))) (runs 0x2604 0x8000 0xC0) = true := by decide

/-- T3: no V when a sign bit is set. -/
theorem test_step_addca_carry :
    gives (step (image [0x10, 0x03, 0xFF, 0xFF] (regs 0x8000 0 0 0 0))) (runs 0x2604 0x7FFF 0x01) = true := by decide

/-- T4. -/
theorem test_step_subca :
    gives (step (image [0x11, 0x03, 0x00, 0x08] (regs 0x0003 0 0 0 0))) (runs 0x2604 0xFFFA 0xC0) = true := by decide

/-- T4. -/
theorem test_step_subca_borrowZero :
    gives (step (image [0x11, 0x03, 0xFF, 0xFF] (regs 0x0000 0 0 0 0))) (runs 0x2604 0x0000 0x42) = true := by decide

/-- T6. -/
theorem test_step_multa :
    gives (step (image [0x12, 0x03, 0x00, 0x02] (regs 0xC000 0 0 0 0))) (runs 0x2604 0x8000 0xC0) = true := by decide

/-- T6: N although the product is zero. -/
theorem test_step_multa_zero :
    gives (step (image [0x12, 0x03, 0x00, 0x00] (regs 0xFFFF 0 0 0 0))) (runs 0x2604 0x0000 0x80) = true := by decide

/-- T6, S6. -/
theorem test_step_multua :
    gives (step (image [0x13, 0x03, 0x00, 0x02] (regs 0xFFFF 0 0 0 0))) (runs 0x2604 0xFFFF 0x40) = true := by decide

/-- T7. -/
theorem test_step_diva :
    gives (step (image [0x14, 0x03, 0x00, 0x02] (regs 0xFFF9 0 0 0 0xC3)))
      (fun t => runs 0x2604 0xFFFD 0x00 t && t.b == 0xFFFF) = true := by decide

/-- T24, S7: unhandled. -/
theorem test_step_diva_zero :
    gives (step (image [0x14, 0x03, 0x00, 0x00] (regs 0x0064 0 0 0 0)))
      (fun t => aborts .arithmeticFault 0x2600 t && t.a == 0x0064) = true := by decide

/-- T24: handled; the handler's address is in slot 3. -/
theorem test_step_divua_zero_handled :
    gives (step (stored 0x0008 [0x26, 0x11] (image [0x15, 0x03, 0x00, 0x00] State.reset)))
      (fun t => t.pc == 0x2611 && t.callSp == 0x25FD && t.mem.readBytes 0x25FE 2 == [0x00, 0x26]
        && t.run == .running) = true := by decide

/-- T7. -/
theorem test_step_divua :
    gives (step (image [0x15, 0x03, 0x00, 0x10] (regs 0xFFFF 0 0 0 0)))
      (fun t => t.a == 0x0FFF && t.b == 0x000F) = true := by decide

/-- T8. -/
theorem test_step_anda :
    gives (step (image [0x18, 0x03, 0x00, 0xFF] (regs 0xFF00 0 0 0 0))) (runs 0x2604 0x0000 0x02) = true := by decide

/-- T8. -/
theorem test_step_ora :
    gives (step (image [0x19, 0x03, 0x80, 0x00] (regs 0x0001 0 0 0 0))) (runs 0x2604 0x8001 0x80) = true := by decide

/-- T8. -/
theorem test_step_xora :
    gives (step (image [0x1A, 0x03, 0xFF, 0xFF] (regs 0x0F0F 0 0 0 0x01))) (runs 0x2604 0xF0F0 0x81) = true := by
  decide

/-- T8. -/
theorem test_step_lsl :
    gives (step (stored 0x0202 [0xC0, 0x00] (image [0x20, 0x01, 0x02, 0x00] (regs 0 0 2 0 0))))
      (fun t => t.mem.readBytes 0x0202 2 == [0x80, 0x00] && t.status.toByte == 0x81) = true := by decide

/-- T8. -/
theorem test_step_lsr :
    gives (step (image [0x21, 0x08] (regs 0x0001 0 0 0 0))) (runs 0x2602 0x0000 0x03) = true := by decide

/-- T8. -/
theorem test_step_rol :
    gives (step (image [0x22, 0x08] (regs 0x8001 0 0 0 0x01))) (runs 0x2602 0x0003 0x01) = true := by decide

/-- T8. -/
theorem test_step_ror :
    gives (step (stored 0x0200 [0x00, 0x01] (image [0x23, 0x00, 0x02, 0x00] (regs 0 0 0 0 0x01))))
      (fun t => t.mem.readBytes 0x0200 2 == [0x80, 0x00] && t.status.toByte == 0x81) = true := by decide

/-- T8. -/
theorem test_step_ror_registerB :
    gives (step (image [0x23, 0x09] (regs 0 0x0001 0 0 0)))
      (fun t => t.b == 0x0000 && t.status.toByte == 0x03) = true := by decide

/-- T8. -/
theorem test_step_inca :
    gives (step (image [0x28] (regs 0x7FFF 0 0 0 0))) (runs 0x2601 0x8000 0x80) = true := by decide

/-- T8. -/
theorem test_step_deca :
    gives (step (image [0x29] (regs 0x0000 0 0 0 0))) (runs 0x2601 0xFFFF 0x80) = true := by decide

/-- T26. -/
theorem test_step_incb :
    gives (step (image [0x2A] State.reset)) (fun t => t.b == 0x0001 && t.a == 0 && t.status.toByte == 0x00) = true := by
  decide

/-- T8. -/
theorem test_step_decb :
    gives (step (image [0x2B] (regs 0 0x8000 0 0 0))) (fun t => t.b == 0x7FFF && t.status.toByte == 0x00) = true := by
  decide

/-- R191, by hand: the wrap leaves C alone. -/
theorem test_step_incx :
    gives (step (image [0x2C] (regs 0 0 0xFFFF 0 0))) (fun t => t.x == 0x0000 && t.status.toByte == 0x02) = true := by
  decide

/-- T8. -/
theorem test_step_decx :
    gives (step (image [0x2D] (regs 0 0 0x0001 0 0x01)))
      (fun t => t.x == 0x0000 && t.status.toByte == 0x03) = true := by decide

/-- T8. -/
theorem test_step_incy :
    gives (step (image [0x2E] (regs 0 0 0 0x0010 0))) (fun t => t.y == 0x0011 && t.status.toByte == 0x00) = true := by
  decide

/-- R191, by hand. -/
theorem test_step_decy :
    gives (step (image [0x2F] (regs 0 0 0 0x0000 0))) (fun t => t.y == 0xFFFF && t.status.toByte == 0x80) = true := by
  decide

/-- T8: an unsigned compare that keeps N and V. -/
theorem test_step_cmpa :
    gives (step (image [0x30, 0x03, 0x00, 0x01] (regs 0xFFFF 0 0 0 0xC0))) (runs 0x2604 0xFFFF 0xC1) = true := by
  decide

/-- R201, by hand: a register compared with itself. -/
theorem test_step_cmpb :
    gives (step (image [0x31, 0x09] (regs 0 0x1234 0 0 0)))
      (fun t => t.b == 0x1234 && t.status.toByte == 0x03) = true := by decide

/-- T8. -/
theorem test_step_cmpx :
    gives (step (stored 0x0200 [0x00, 0x02] (image [0x32, 0x00, 0x02, 0x00] (regs 0 0 2 0 0))))
      (fun t => t.x == 0x0002 && t.status.toByte == 0x03) = true := by decide

/-- R201, by hand: below clears Z and C. -/
theorem test_step_cmpy :
    gives (step (image [0x33, 0x03, 0x00, 0x08] (regs 0 0 0 0x0005 0x03)))
      (fun t => t.y == 0x0005 && t.status.toByte == 0x00) = true := by decide

/-- T8. -/
theorem test_step_clc : gives (step (image [0x38] (regs 0 0 0 0 0xC3))) (runs 0x2601 0 0xC2) = true := by decide

/-- T8. -/
theorem test_step_sec : gives (step (image [0x39] State.reset)) (runs 0x2601 0 0x01) = true := by decide

/-- T9. -/
theorem test_step_jmp : gives (step (image [0x40, 0x00, 0x26, 0x10] State.reset)) (runs 0x2610 0 0) = true := by decide

/-- T9. -/
theorem test_step_jmp_zero : gives (step (image [0x40, 0x00, 0x00, 0x00] State.reset)) (runs 0x0000 0 0) = true := by
  decide

/-- T9. -/
theorem test_step_brz_taken :
    gives (step (image [0x41, 0x00, 0x26, 0x10] (regs 0 0 0 0 0x02))) (runs 0x2610 0 0x02) = true := by decide

/-- T9: the mode is checked although the branch is not taken. -/
theorem test_step_brz_illegal :
    gives (step (image [0x41, 0x01, 0x26, 0x10] State.reset)) (aborts .illegalInstruction 0x2603) = true := by decide

/-- T9. -/
theorem test_step_brnz : gives (step (image [0x42, 0x00, 0x26, 0x10] State.reset)) (runs 0x2610 0 0) = true := by
  decide

/-- T9. -/
theorem test_step_brc : gives (step (image [0x43, 0x00, 0x26, 0x10] State.reset)) (runs 0x2604 0 0) = true := by decide

/-- T9. -/
theorem test_step_brnc : gives (step (image [0x44, 0x00, 0x26, 0x10] State.reset)) (runs 0x2610 0 0) = true := by
  decide

/-- T9, T23. -/
theorem test_step_jsr :
    gives (step (stored 0x2605 [0x48, 0x00, 0x26, 0x0B] { State.reset with pc := 0x2605 }))
      (fun t => t.pc == 0x260B && t.callSp == 0x25FD && t.mem.readBytes 0x25FE 2 == [0x08, 0x26]) = true := by decide

/-- T10: with a full call stack a handler does not help. -/
theorem test_step_jsr_full :
    gives (step (stored 0x000A [0x26, 0x10] (image [0x48, 0x00, 0x26, 0x00] { State.reset with callSp := 0x2401 })))
      (aborts .stackFault 0x2603) = true := by decide

/-- T9. -/
theorem test_step_rts :
    gives (step (stored 0x25FE [0x08, 0x26] (image [0x49] { State.reset with callSp := 0x25FD })))
      (fun t => t.pc == 0x2609 && t.callSp == 0x25FF) = true := by decide

/-- T9. -/
theorem test_step_rts_empty : gives (step (image [0x49] State.reset)) (aborts .stackFault 0x2600) = true := by decide

/-- T10. -/
theorem test_step_pha :
    gives (step (image [0x50] (regs 0x1234 0 0 0 0)))
      (fun t => t.sp == 0x23FD && t.mem.readBytes 0x23FE 2 == [0x34, 0x12]) = true := by decide

/-- T10: no room, and nothing written. -/
theorem test_step_phb_full :
    gives (step (image [0x52] { State.reset with b := 0x1111, sp := 0x2001 }))
      (fun t => aborts .stackFault 0x2600 t && t.sp == 0x2001 && t.mem.read 0x2001 == 0) = true := by decide

/-- T10. -/
theorem test_step_pla_empty : gives (step (image [0x51] State.reset)) (aborts .stackFault 0x2600) = true := by decide

/-- T23. -/
theorem test_step_plb :
    gives (step (stored 0x23FE [0x34, 0x12] (image [0x53] { State.reset with sp := 0x23FD })))
      (fun t => t.b == 0x1234 && t.sp == 0x23FF) = true := by decide

/-- T13. -/
theorem test_step_fadda : step (image [0x60, 0x03, 0x40, 0x00] (regs 0x3C00 0 0 0 0))
    = .next { image [0x60, 0x03, 0x40, 0x00] (regs 0x3C00 0 0 0 0) with
        a := (Config.fp16 .fadd 0x3C00 0x4000).1
        status := Status.zero.setNvzc (Config.fp16 .fadd 0x3C00 0x4000).2
        pc := 0x2604 } := rfl

/-- T13, R226. -/
theorem test_step_fmulta : step (image [0x62, 0x09] (regs 0x3C00 0x4000 0 0 0))
    = .next { image [0x62, 0x09] (regs 0x3C00 0x4000 0 0 0) with
        a := (Config.fp16 .fmult 0x3C00 0x4000).1
        status := Status.zero.setNvzc (Config.fp16 .fmult 0x3C00 0x4000).2
        pc := 0x2602 } := rfl

/-- T13, R225. -/
theorem test_step_fsuba : step (image [0x61, 0x09] (regs 0x3C00 0x4000 0 0 0))
    = .next { image [0x61, 0x09] (regs 0x3C00 0x4000 0 0 0) with
        a := (Config.fp16 .fsub 0x3C00 0x4000).1
        status := Status.zero.setNvzc (Config.fp16 .fsub 0x3C00 0x4000).2
        pc := 0x2602 } := rfl

/-- T13: division by minus zero. -/
theorem test_step_fdiva_zero :
    gives (step (image [0x63, 0x03, 0x80, 0x00] (regs 0x3C00 0 0 0 0)))
      (fun t => aborts .arithmeticFault 0x2600 t && t.a == 0x3C00) = true := by decide

/-- T12, T29. -/
theorem test_step_readLine :
    gives (step (image [0x70, 0x03, 0x00, 0x13]
      { State.reset with b := 0x0100, answers := [.line [0x68, 0x69, 0x21]] }))
      (fun t => t.a == 0x0004 && t.mem.readBytes 0x0100 4 == [0x68, 0x69, 0x21, 0x00] && t.answers == []) = true := by
  decide

/-- T12. -/
theorem test_step_print :
    gives (step (stored 0x0200 [0x61, 0x62, 0x63] (image [0x70, 0x03, 0x00, 0x14] (regs 3 0x0200 0 0 0))))
      (fun t => t.out == [.str [0x61, 0x62, 0x63]]) = true := by decide

/-- T11: first fit. -/
theorem test_step_allocate :
    gives (step (image [0x70, 0x03, 0x00, 0x21]
      { State.reset with a := 0x000B, heap := [{ start := 0x100A, size := 5 }] }))
      (fun t => t.b == 0x100F && t.a == 0x000B) = true := by decide

/-- T11: reallocation moves the block. -/
theorem test_step_reallocate :
    gives (step (image [0x70, 0x03, 0x00, 0x22]
      { State.reset with
        a := 0x0011
        b := 0x1000
        heap := [{ start := 0x1000, size := 10 }, { start := 0x1010, size := 5 }] }))
      (fun t => t.b == 0x1015 && t.heap == [{ start := 0x1010, size := 5 }, { start := 0x1015, size := 17 }]) = true := by
  decide

/-- T11. -/
theorem test_step_free_unknown :
    gives (step (image [0x70, 0x03, 0x00, 0x20] { State.reset with b := 0x1000 }))
      (aborts .unknownHeapAddress 0x2603) = true := by decide

/-- T11. -/
theorem test_step_syscall_unknown :
    gives (step (image [0x70, 0x03, 0x00, 0x99] State.reset)) (aborts .systemFault 0x2603) = true := by decide

/-- T21: the cycle of HALT. -/
theorem test_step_halt :
    gives (step (image [0xFF] State.reset))
      (fun t => t.run == .halted && t.pc == 0x2601 && t.status.toByte == 0x10) = true := by decide

/-- T14: NOOP, which a zero byte is. -/
theorem test_step_noop : gives (step State.reset) (fun t => t == { State.reset with pc := 0x2601 }) = true := by decide

/-- T14. -/
theorem test_step_unassigned :
    gives (step (image [0xEE] State.reset)) (aborts .illegalInstruction 0x2600) = true := by decide

/-- T14. -/
theorem test_step_fetch_outside :
    gives (step { State.reset with pc := 0xF000 }) (aborts .segmentationFault 0xF000) = true := by decide

/-- T14. -/
theorem test_step_kill :
    gives (step { State.reset with requests := [{ kill := true, reset := true }] }) (aborts .kill 0x2600) = true := by
  decide

/-- T14. -/
theorem test_step_reset :
    gives (step { State.reset with
        a := 0x1234
        pc := 0x2610
        sp := 0x23FB
        callSp := 0x25FD
        status := Status.ofByte 0x03
        heap := [{ start := 0x1000, size := 10 }]
        requests := [{ kill := false, reset := true }] })
      (fun t => t == { State.reset with a := 0x1234 }) = true := by decide

/-- The construction of a stream fails for this reason. -/
def failsWith (stream : List Byte) (e : ConstructionError) : Bool :=
  match construct stream with
  | .error e' => e' == e
  | .ok _ => false

/-- T14: the four streams that do not construct. -/
theorem test_construct_errors :
    failsWith [0x10, 0, 0, 0, 0] .emptyProgram = true
    ∧ failsWith [0x20, 0, 0, 0, 1, 0xFF] .incompatibleWordsize = true
    ∧ failsWith [0x10, 0, 0, 0xCA, 0x01] .oversizedProgram = true
    ∧ failsWith [0x10, 0, 0, 0, 2, 0xFF] .truncatedStream = true := by decide

/-- T21: the image stream of Program 1. -/
theorem test_construct :
    (match construct [0x10, 0x00, 0x00, 0x00, 0x09, 0x01, 0x03, 0x00, 0x05, 0x10, 0x03, 0x00, 0x03, 0xFF] with
      | .error _ => false
      | .ok t => t == image [0x01, 0x03, 0x00, 0x05, 0x10, 0x03, 0x00, 0x03, 0xFF] State.reset) = true := by decide

/-! ## Witnesses: a state and operands that meet the hypotheses of each statement, clause by clause -/

theorem guest_of {a n : Nat} (h : allValid validGuest a n = true) : guestRange a n := (allValid_guest_iff a n).1 h

theorem notGuest_of {a n : Nat} (h : allValid validGuest a n = false) : ¬ guestRange a n := by
  rw [← allValid_guest_iff, h]; simp

/-- The boundaries of the guest-valid addresses (R65): below them, at them, and across them. -/
theorem witness_guest_boundaries :
    guestRange 0x0002 1 ∧ guestRange 0x23FF 1 ∧ guestRange 0xF000 1 ∧ guestRange 0xFFFF 1
    ∧ guestRange 0x0002 2 ∧ guestRange 0x23FE 2 ∧ guestRange 0xF000 2 ∧ guestRange 0xFFFE 2
    ∧ ¬ guestRange 0x0001 1 ∧ ¬ guestRange 0x2400 1 ∧ ¬ guestRange 0xEFFF 1 ∧ ¬ guestRange 0x10000 1
    ∧ ¬ guestRange 0x0001 2 ∧ ¬ guestRange 0x23FF 2 ∧ ¬ guestRange 0xEFFF 2 ∧ ¬ guestRange 0xFFFF 2 :=
  ⟨guest_of (by decide), guest_of (by decide), guest_of (by decide), guest_of (by decide), guest_of (by decide),
    guest_of (by decide), guest_of (by decide), guest_of (by decide), notGuest_of (by decide), notGuest_of (by decide),
    notGuest_of (by decide), notGuest_of (by decide), notGuest_of (by decide), notGuest_of (by decide),
    notGuest_of (by decide), notGuest_of (by decide)⟩

theorem executes_reset : executes State.reset := ⟨rfl, rfl⟩

theorem executes_image (bytes : List Byte) : executes (image bytes State.reset) := ⟨rfl, rfl⟩

/-- The hypotheses of DecodeOfEncodeIsIdentity. -/
theorem witness_DecodeOfEncodeIsIdentity :
    (Instr.loada (.immediate 0xFFFF)).wellFormed = true
    ∧ (Instr.storey (.memory .indexedIndirectY true 0x0000)).wellFormed = true
    ∧ (Instr.lsl .registerA).wellFormed = true ∧ Instr.halt.wellFormed = true := by decide

/-- The hypothesis of EncodeOfDecodeIsIdentity, at the three lengths. -/
theorem witness_EncodeOfDecodeIsIdentity :
    decode [0xFF, 0x00] = .instr .halt 1 ∧ decode [0x23, 0x09, 0xFF] = .instr (.ror .registerB) 2
    ∧ decode [0x01, 0x17, 0xFF, 0xFF, 0x00] = .instr (.loada (.memory .indexedIndirectY true 0xFFFF)) 4 := by decide

/-- The hypotheses of UnassignedOpcodesAreIllegal, and the bounds of the list. -/
theorem witness_UnassignedOpcodesAreIllegal :
    executes (image [0xEE] State.reset) ∧ programByte (image [0xEE] State.reset).pc.toNat
    ∧ unassignedOpcode ((image [0xEE] State.reset).mem.read (image [0xEE] State.reset).pc.toNat).toNat
    ∧ unassignedOpcode 0x09 ∧ unassignedOpcode 0xFE ∧ ¬ unassignedOpcode 0x08 ∧ ¬ unassignedOpcode 0xFF := by
  refine ⟨executes_image _, ?_, ?_, ?_, ?_, ?_, ?_⟩
  · unfold programByte; decide
  all_goals (unfold unassignedOpcode; decide)

/-- The hypothesis of the second clause of SeventeenModeBytesAreLegal, at the highest and the lowest mode byte. -/
theorem witness_SeventeenModeBytesAreLegal :
    decodeMode 0x17 0x1234 = some (.memory .indexedIndirectY true 0x1234)
    ∧ decodeMode 0x00 0x1234 = some (.memory .absolute false 0x1234) := by decide

/-- The hypotheses of IllegalModeBytesRaise: LOADA with mode byte 0x0A, and with register-A mode. -/
theorem witness_IllegalModeBytesRaise :
    (∀ k, k < 4 → programByte ((image [0x01, 0x0A] State.reset).pc.toNat + k))
    ∧ opcodeForm ((image [0x01, 0x0A] State.reset).mem.read 0x2600) = some (.withOperand .value .loada)
    ∧ (∀ w op, decodeMode ((image [0x01, 0x0A] State.reset).mem.read 0x2601) w = some op → op.inClass .value = false)
    ∧ ∀ w op, decodeMode ((image [0x01, 0x08] State.reset).mem.read 0x2601) w = some op → op.inClass .value = false := by
  refine ⟨fun k hk => ?_, rfl, fun w op h => ?_, fun w op h => ?_⟩
  · have : (image [0x01, 0x0A] State.reset).pc.toNat = 0x2600 := rfl
    unfold programByte
    omega
  · have h : (none : Option Operand) = some op := h
    cases h
  · have h : some Operand.registerA = some op := h
    cases h
    rfl

/-- The hypothesis of IllFormedInstructionsRaise, in every class. -/
theorem witness_IllFormedInstructionsRaise :
    (Instr.loada .registerA).wellFormed = false ∧ (Instr.storea (.immediate 0)).wellFormed = false
    ∧ (Instr.lsl (.memory .absolute true 0)).wellFormed = false ∧ (Instr.jmp .registerB).wellFormed = false := by decide

/-- The hypotheses of StepRunsTheDecodedInstruction: a running, an aborting and a waiting instruction. -/
theorem witness_StepRunsTheDecodedInstruction :
    decode (fetchBytes (image [0x28] State.reset).mem 4 0x2600) = .instr .inca 1
    ∧ gives (exec .inca (takeRequest (image [0x28] State.reset))) (fun t => t.run == .running) = true
    ∧ decode (fetchBytes (image [0x49] State.reset).mem 4 0x2600) = .instr .rts 1
    ∧ gives (exec .rts (takeRequest (image [0x49] State.reset))) (fun t => t.run != .running) = true
    ∧ decode (fetchBytes (image [0x70, 0x03, 0x00, 0x13] State.reset).mem 4 0x2600)
      = .instr (.syscall (.immediate 0x0013)) 4 := by decide

/-- The fault clause of StepRunsTheDecodedInstruction and the second case of EveryInstructionCompletes. -/
theorem witness_awaitingLine :
    exec (.syscall (.immediate 0x0013)) { State.reset with answers := [.never] } = .fault .awaitingLine := rfl

/-- The hypotheses of StepRunsTheEncodedInstruction. -/
theorem witness_StepRunsTheEncodedInstruction :
    executes (image [0x28] State.reset) ∧ Instr.inca.wellFormed = true
    ∧ bytesAt (image [0x28] State.reset).mem (image [0x28] State.reset).pc.toNat (encode .inca)
    ∧ ∀ k, k < (encode .inca).length → programByte ((image [0x28] State.reset).pc.toNat + k) := by
  refine ⟨executes_image _, rfl, fun k hk => ?_, fun k hk => ?_⟩
  · have hk : k < 1 := hk
    obtain rfl : k = 0 := by omega
    rfl
  · have hk : k < 1 := hk
    obtain rfl : k = 0 := by omega
    unfold programByte; decide

/-- The hypotheses of FetchOutsideTheImageAborts: PC beside the region, and an operand that crosses its end at each of
the three bytes. -/
theorem witness_FetchOutsideTheImageAborts :
    (executes { State.reset with pc := 0x25FF } ∧ ¬ programByte 0x25FF)
    ∧ (executes { State.reset with pc := 0xF000 } ∧ ¬ programByte 0xF000)
    ∧ (executes { stored 0xEFFF [0x01] State.reset with pc := 0xEFFF } ∧ programByte 0xEFFF
      ∧ opcodeForm ((stored 0xEFFF [0x01] State.reset).mem.read 0xEFFF) = some (.withOperand .value .loada))
    ∧ (executes { stored 0xEFFE [0x01, 0x03] State.reset with pc := 0xEFFE } ∧ programByte 0xEFFE
      ∧ opcodeForm ((stored 0xEFFE [0x01, 0x03] State.reset).mem.read 0xEFFE) = some (.withOperand .value .loada)
      ∧ (stored 0xEFFE [0x01, 0x03] State.reset).mem.read 0xEFFF ≠ 0x08
      ∧ (stored 0xEFFE [0x01, 0x03] State.reset).mem.read 0xEFFF ≠ 0x09)
    ∧ (executes { stored 0xEFFD [0x01, 0x03] State.reset with pc := 0xEFFD } ∧ programByte 0xEFFD
      ∧ opcodeForm ((stored 0xEFFD [0x01, 0x03] State.reset).mem.read 0xEFFD) = some (.withOperand .value .loada)
      ∧ (stored 0xEFFD [0x01, 0x03] State.reset).mem.read 0xEFFE ≠ 0x08
      ∧ (stored 0xEFFD [0x01, 0x03] State.reset).mem.read 0xEFFE ≠ 0x09) := by
  refine ⟨⟨⟨rfl, rfl⟩, ?_⟩, ⟨⟨rfl, rfl⟩, ?_⟩, ⟨⟨rfl, rfl⟩, ?_, rfl⟩, ⟨⟨rfl, rfl⟩, ?_, rfl, by decide, by decide⟩,
    ⟨rfl, rfl⟩, ?_, rfl, by decide, by decide⟩ <;> unfold programByte <;> decide

/-- The hypotheses of TerminalRunsHaveNoStep. -/
theorem witness_TerminalRunsHaveNoStep :
    ({ State.reset with run := .halted } : State).run = .halted
    ∧ ({ State.reset with run := .aborted .kill 0x2600 Status.zero } : State).run
      = .aborted .kill 0x2600 Status.zero := ⟨rfl, rfl⟩

/-- The hypotheses of KillRequestAborts. -/
theorem witness_KillRequestAborts :
    (nextRequest { State.reset with requests := [{ kill := true, reset := true }] }).kill = true
    ∧ State.reset.run = .running := ⟨rfl, rfl⟩

/-- The hypotheses of ResetRequestReinitialises. -/
theorem witness_ResetRequestReinitialises :
    nextRequest { State.reset with requests := [{ kill := false, reset := true }] } = { kill := false, reset := true }
    ∧ ({ State.reset with run := .halted } : State).run ≠ .running := ⟨rfl, by decide⟩

/-- The hypotheses of AbortsArePrecise: a load of the null guard. -/
theorem witness_AbortsArePrecise :
    gives (exec (.loada (.memory .absolute false 0x0000)) State.reset)
      (fun t => t.run == .aborted .segmentationFault 0x2603 { Status.zero with h := true }) = true
    ∧ State.reset.run = .running := by decide

/-- The hypotheses of TrapEntry: a zero vector, a full call stack, and room. -/
theorem witness_TrapEntry :
    (State.reset.mem.read 0x0006 ++ State.reset.mem.read 0x0007 : Word) = 0
    ∧ ((stored 0x0006 [0x26, 0x0F] State.reset).mem.read 0x0006
        ++ (stored 0x0006 [0x26, 0x0F] State.reset).mem.read 0x0007 : Word) = 0x260F
    ∧ ({ State.reset with callSp := 0x2401 } : State).callSp.toNat < 0x2402
    ∧ 0x2402 ≤ ({ State.reset with callSp := 0x2403 } : State).callSp.toNat
    ∧ State.reset.run = .running ∧ State.reset.status.h = false := by decide

/-- The hypotheses of EffectiveAddresses: a valid and an invalid pointer. -/
theorem witness_EffectiveAddresses :
    guestRange (0xFFFE : Word).toNat 2 ∧ ¬ guestRange (0xFFFF : Word).toNat 2
    ∧ guestRange ((0x02FE : Word).toNat + (regs 0 0 2 0 0).x.toNat) 2
    ∧ ¬ guestRange ((0xFFFF : Word).toNat + (regs 0 0 2 0 0).x.toNat) 2
    ∧ guestRange ((0x02FE : Word).toNat + (regs 0 0 0 2 0).y.toNat) 2
    ∧ ¬ guestRange ((0xFFFF : Word).toNat + (regs 0 0 0 2 0).y.toNat) 2 :=
  ⟨guest_of (by decide), notGuest_of (by decide), guest_of (by decide), notGuest_of (by decide), guest_of (by decide),
    notGuest_of (by decide)⟩

/-- The hypotheses of LoadOperandValues, StoresWriteTheirAddress and FaultingStoresWriteNothing: an address whose byte is
valid and whose word is not, one whose word is valid, one that is invalid, and a pointer that is. -/
theorem witness_operand_addresses :
    effectiveAddress .absolute 0x23FF State.reset = .ok 0x23FF ∧ guestRange 0x23FF 1 ∧ ¬ guestRange 0x23FF 2
    ∧ effectiveAddress .absolute 0x23FE State.reset = .ok 0x23FE ∧ guestRange 0x23FE 2
    ∧ effectiveAddress .xIndexed 0xFFFF (regs 0 0 2 0 0) = .ok 0x10001 ∧ ¬ guestRange 0x10001 1
    ∧ effectiveAddress .indirectIndexedX 0x2600 State.reset = .error .segmentation :=
  ⟨rfl, guest_of (by decide), notGuest_of (by decide), rfl, guest_of (by decide), rfl, notGuest_of (by decide), rfl⟩

/-- The hypotheses of OperandFaultsComeFirst. -/
theorem witness_OperandFaultsComeFirst :
    (Instr.addca (.memory .absolute false 0)).form = some (.value, .memory .absolute false 0)
    ∧ resolveLoad (.memory .absolute false 0) State.reset = .error .segmentation
    ∧ resolveLoad .registerA State.reset = .error .illegalInstruction := ⟨rfl, rfl, rfl⟩

/-- An operand that resolves: the hypothesis of LoadsFillTheirRegister, LogicalOperations, Comparisons and
HalfPrecisionOperations, and of the ALU statements; one whose divisor is zero; and one that fails. -/
theorem witness_operand_values :
    resolveLoad (.immediate 0x0003) State.reset = .ok 0x0003
    ∧ resolveLoad .registerB (regs 0 0xFFFF 0 0 0) = .ok 0xFFFF
    ∧ resolveLoad (.memory .absolute true 0x0002) State.reset = .ok 0x0000
    ∧ (0x0003 : Word) ≠ 0 ∧ (0x0003 : Word) ≠ 0x8000
    ∧ resolveLoad (.immediate 0x0000) State.reset = .ok 0
    ∧ resolveLoad (.memory .absolute false 0x2600) State.reset = .error .segmentation :=
  ⟨rfl, rfl, rfl, by decide, by decide, rfl, rfl⟩

/-- The hypotheses of AddWithCarry, on T3 (8000 + FFFF). -/
theorem witness_AddWithCarry :
    resolveLoad (.immediate 0xFFFF) (regs 0x8000 0 0 0 0) = .ok 0xFFFF
    ∧ 0x17FFF = (regs 0x8000 0 0 0 0).a.toNat + (0xFFFF : Word).toNat + (regs 0x8000 0 0 0 0).status.c.toNat
    ∧ (0x7FFF : Word).toNat = 0x17FFF % 2 ^ 16
    ∧ resolveLoad (.memory .absolute false 0) (regs 0x8000 0 0 0 0) = .error .segmentation :=
  ⟨rfl, by decide, by decide, rfl⟩

/-- The hypotheses of SubtractWithBorrow, on T4 (0000 - FFFF with a borrow). -/
theorem witness_SubtractWithBorrow :
    resolveLoad (.immediate 0xFFFF) (regs 0x0000 0 0 0 0) = .ok 0xFFFF
    ∧ (-0x10000 : Int) = (regs 0x0000 0 0 0 0).a.toNat - (0xFFFF : Word).toNat
      - (1 - (regs 0x0000 0 0 0 0).status.c.toNat)
    ∧ ((0x0000 : Word).toNat : Int) = (-0x10000) % 2 ^ 16 := ⟨rfl, by decide, by decide⟩

/-- The hypotheses of UnsignedMultiply, on T6: 00FF * 0101 fits and 0100 * 0100 does not. -/
theorem witness_UnsignedMultiply :
    resolveLoad (.immediate 0x0101) (regs 0x00FF 0 0 0 0) = .ok 0x0101
    ∧ (regs 0x00FF 0 0 0 0).a.toNat * (0x0101 : Word).toNat < 2 ^ 16
    ∧ resolveLoad (.immediate 0x0100) (regs 0x0100 0 0 0 0) = .ok 0x0100
    ∧ 2 ^ 16 ≤ (regs 0x0100 0 0 0 0).a.toNat * (0x0100 : Word).toNat := ⟨rfl, by decide, rfl, by decide⟩

/-- The hypotheses of SignedMultiply, UnsignedDivide, SignedDivide and ZeroDivisorRewinds: 8000 by FFFF, by zero and by
the two float zeros. -/
theorem witness_divisors :
    resolveLoad (.immediate 0xFFFF) (regs 0x8000 0 0 0 0) = .ok 0xFFFF ∧ (0xFFFF : Word) ≠ 0
    ∧ resolveLoad (.immediate 0x0000) (regs 0x8000 0 0 0 0) = .ok 0
    ∧ resolveLoad (.immediate 0x8000) (regs 0x8000 0 0 0 0) = .ok 0x8000 := ⟨rfl, by decide, rfl, rfl⟩

/-- The hypothesis of SubtractionUndoesAddition. -/
theorem witness_SubtractionUndoesAddition :
    gives (exec (.addca (.immediate 0x0FFF)) (regs 0x1234 0 0 0 0)) (fun t => t.a == 0x2233) = true := by decide

/-- The hypotheses of the memory clauses of ShiftsAndRotates. -/
theorem witness_ShiftsAndRotates :
    effectiveAddress .xIndexed 0x0200 (regs 0 0 2 0 0) = .ok 0x0202 ∧ guestRange 0x0202 2
    ∧ effectiveAddress .absolute 0xFFFF State.reset = .ok 0xFFFF ∧ ¬ guestRange 0xFFFF 2
    ∧ effectiveAddress .indexedIndirectY 0x0000 State.reset = .error .segmentation :=
  ⟨rfl, guest_of (by decide), rfl, notGuest_of (by decide), rfl⟩

/-- The hypotheses of ReadLineStoresTheLine: a host that never answers, a short line and one longer than the buffer, a valid and an invalid place. -/
theorem witness_ReadLineStoresTheLine :
    resolveLoad (.immediate 0x0013) { State.reset with b := 0x0100, answers := [.line [0x68]] } = .ok 0x0013
    ∧ nextAnswer { State.reset with b := 0x0100, answers := [.line [0x68]] } = .line [0x68]
    ∧ resolveLoad (.immediate 0x0013) { State.reset with answers := [.never] } = .ok 0x0013
    ∧ nextAnswer { State.reset with answers := [.never] } = .never
    ∧ 1 = min ([0x68] : List Byte).length 255 ∧ guestRange 0x0100 2
    ∧ 255 = min (List.replicate 300 (0x41 : Byte)).length 255 ∧ guestRange 0x0100 256
    ∧ ¬ guestRange 0x0000 2 :=
  ⟨rfl, rfl, rfl, rfl, rfl, guest_of (by decide), by rw [List.length_replicate]; rfl,
    fun k hk => by unfold guestByte; omega, notGuest_of (by decide)⟩

/-- The hypotheses of PrintAppendsOneEvent: an empty range, a valid one and an invalid one. -/
theorem witness_PrintAppendsOneEvent :
    ((0x0014 : Word), OutEvent.str) ∈ [((0x0014 : Word), OutEvent.str), (0x0015, OutEvent.hex)]
    ∧ resolveLoad (.immediate 0x0015) State.reset = .ok 0x0015
    ∧ guestRange 0x25FF 0 ∧ guestRange 0x0200 3 ∧ ¬ guestRange 0x23FF 2 :=
  ⟨by simp, rfl, guest_of (by decide), guest_of (by decide), notGuest_of (by decide)⟩

/-- The heap of T11. -/
def heapT11 : Heap := [{ start := 0x1000, size := 10 }, { start := 0x1010, size := 5 }]

/-- The only objects of the heap of T11. -/
theorem mem_heapT11 {o : Block} (h : o ∈ heapT11) :
    o = { start := 0x1000, size := 10 } ∨ o = { start := 0x1010, size := 5 } := by
  simpa [heapT11] using h

/-- What fits in the heap of T11. -/
theorem fits_heapT11 (n q : Nat) :
    fits heapT11 n q ↔ 0x1000 ≤ q ∧ q + n ≤ 0x2000 ∧ (q + n ≤ 0x1000 ∨ 0x100A ≤ q) ∧ (q + n ≤ 0x1010 ∨ 0x1015 ≤ q) := by
  unfold fits apart heapT11
  simp [show cfg.heapFloor = 0x1000 from rfl, show cfg.heapCeil = 0x2000 from rfl]

/-- The hypotheses of AllocationIsFirstFit and AllocateCallDelivers: a request that first fits in the gap (6 bytes), one
that first fits behind (7 bytes), and one that fits nowhere. -/
theorem witness_AllocationIsFirstFit :
    heapT11.ok = true
    ∧ (fits heapT11 6 0x100A ∧ ∀ q, fits heapT11 6 q → 0x100A ≤ q)
    ∧ (fits heapT11 7 0x1015 ∧ ∀ q, fits heapT11 7 q → 0x1015 ≤ q)
    ∧ (∀ q, ¬ fits heapT11 0x0FF0 q)
    ∧ resolveLoad (.immediate 0x0021) { State.reset with heap := heapT11, a := 6 } = .ok 0x0021 := by
  refine ⟨by decide, ⟨?_, fun q h => ?_⟩, ⟨?_, fun q h => ?_⟩, fun q h => ?_, rfl⟩
  all_goals rw [fits_heapT11] at *; omega

/-- The hypotheses of FreeRemovesOneBlock: an address that starts a block and one inside it. -/
theorem witness_FreeRemovesOneBlock :
    { start := 0x1010, size := 5 } ∈ heapT11 ∧ (∀ o, o ∈ heapT11 → o.start ≠ 0x1011)
    ∧ resolveLoad (.immediate 0x0020) { State.reset with heap := heapT11 } = .ok 0x0020 := by
  refine ⟨by decide, fun o h => ?_, rfl⟩
  rcases mem_heapT11 h with rfl | rfl <;> simp

/-- The hypotheses of ReallocateCall, clause by clause, on the heap of T11: no such block; not larger; growing into the
gap exactly and one byte more; the last block up to the ceiling exactly and one byte more; a move that fits and one that
does not. -/
theorem witness_ReallocateCall :
    heapT11.ok = true ∧ resolveLoad (.immediate 0x0022) State.reset = .ok 0x0022
    ∧ resolveLoad (.immediate 0x0023) State.reset = .ok 0x0023
    ∧ (∀ o, o ∈ heapT11 → o.start ≠ 0x1234)
    ∧ heapT11 = [] ++ { start := 0x1000, size := 10 } :: { start := 0x1010, size := 5 } :: []
    ∧ heapT11 = [{ start := 0x1000, size := 10 }] ++ [{ start := 0x1010, size := 5 }]
    ∧ 0x1000 + 16 ≤ 0x1010 ∧ 0x1010 < 0x1000 + 17
    ∧ 0x1010 + 0x0FF0 ≤ 0x2000 ∧ 0x2000 < 0x1010 + 0x0FF1
    ∧ (fits heapT11 17 0x1015 ∧ ∀ q, fits heapT11 17 q → 0x1015 ≤ q)
    ∧ ∀ q, ¬ fits heapT11 0x0FF0 q := by
  refine ⟨by decide, rfl, rfl, fun o h => ?_, rfl, rfl, by decide, by decide, by decide, by decide,
    ⟨?_, fun q h => ?_⟩, fun q h => ?_⟩
  · rcases mem_heapT11 h with rfl | rfl <;> simp
  all_goals rw [fits_heapT11] at *; omega

/-- The hypotheses of UnknownSyscallRaisesSystemFault: a number whose low byte is a syscall's. -/
theorem witness_UnknownSyscallRaisesSystemFault :
    resolveLoad (.immediate 0x0113) State.reset = .ok 0x0113
    ∧ (0x0113 : Word).toNat ∉ [0x0013, 0x0014, 0x0015, 0x0020, 0x0021, 0x0022, 0x0023] := ⟨rfl, by decide⟩

/-- The hypotheses of the stack statements at their bounds: room for exactly one push, none; one word to pull, none. -/
theorem witness_stack_bounds :
    0x2002 ≤ ({ State.reset with sp := 0x2003 } : State).sp.toNat ∧ (0x2001 : Word).toNat < 0x2002
    ∧ 0x2000 ≤ (0x23FD : Word).toNat ∧ (0x23FD : Word).toNat + 2 ≤ 0x23FF ∧ 0x23FF < State.reset.sp.toNat + 2
    ∧ 0x2402 ≤ (0x2403 : Word).toNat ∧ (0x2401 : Word).toNat < 0x2402
    ∧ 0x2400 ≤ (0x25FD : Word).toNat ∧ (0x25FD : Word).toNat + 2 ≤ 0x25FF
    ∧ 0x25FF < State.reset.callSp.toNat + 2 := by decide

/-- The hypotheses of DataStackIsLastInFirstOut: two words pushed. -/
theorem witness_DataStackIsLastInFirstOut :
    State.reset.sp = 0x23FF
    ∧ (match pushAll [0x1111, 0x2222] State.reset with
        | .ok t => t.sp == 0x23FB
        | .error _ => false) = true := by decide

/-- The hypothesis of the run clause of NoopAndHalt. -/
theorem witness_NoopAndHalt : State.reset.run = .running := rfl

/-- The invariant holds of a machine with an image: the hypotheses of StepKeepsTheInvariant, ProgramImageNeverChanges and
CallStackIsClosedToTheGuest, on a state whose step is STOREA $0200. -/
theorem witness_Invariant :
    Invariant (image [0x02, 0x00, 0x02, 0x00] State.reset)
    ∧ gives (step (image [0x02, 0x00, 0x02, 0x00] State.reset)) (fun t => t.callSp == 0x25FF) = true := by
  refine ⟨⟨?_, ?_, ⟨rfl, rfl⟩, ?_, ?_, rfl, ⟨rfl, rfl, rfl⟩, rfl⟩, by decide⟩
  · exact Memory.wf_writeBytes (by decide) _ _
  · exact Memory.inRange_writeBytes (m := State.reset.mem) (by decide) _ _ (by decide)
  · show legalSp 0x23FF
    decide
  · show legalCallSp 0x25FF
    decide

/-- The second clause of CallStackIsClosedToTheGuest: a reset, an RTS, a JSR and a trap entry each move CALL_SP; and the
bounds of the third and fourth. -/
theorem witness_CallStackIsClosedToTheGuest :
    gives (step { State.reset with callSp := 0x25FD, requests := [{ kill := false, reset := true }] })
      (fun t => t.callSp == 0x25FF) = true
    ∧ gives (step { image [0x49] State.reset with callSp := 0x25FD }) (fun t => t.callSp == 0x25FF) = true
    ∧ gives (step (image [0x48, 0x00, 0x26, 0x0B] State.reset)) (fun t => t.callSp == 0x25FD) = true
    ∧ gives (step (stored 0x0006 [0x26, 0x0F] (image [0xEE] State.reset)))
      (fun t => t.callSp == 0x25FD && t.pc == 0x260F) = true
    ∧ legalCallSp 0x25FD ∧ 1 < Width.word.bytes ∧ 0x2400 ≤ 0x23FF + 1 ∧ 0x25FF + 0 ≤ 0x25FF := by decide

/-- The hypotheses of ConstructionLoadsTheImage: the five failing streams of T14 and R345, and one that constructs. -/
theorem witness_ConstructionLoadsTheImage :
    ([0x10, 0, 0, 0] : List Byte).length < 5 ∧ ([0x20, 0, 0, 0, 1, 0xFF] : List Byte).getD 0 0 ≠ 0x10
    ∧ 0xCA00 < 0xCA01 ∧ ([0x10, 0, 0, 0, 2, 0xFF] : List Byte).length < 5 + 2
    ∧ 5 + 1 ≤ ([0x10, 0, 0, 0, 1, 0xFF] : List Byte).length
    ∧ ([0x10, 0, 0, 0, 1, 0xFF] : List Byte).getD 0 0 = 0x10 := by decide

/-- The hypotheses of RegisterWriters and FlagWriters: instructions that change a register, and ones that change a flag. -/
theorem witness_RegisterWriters :
    gives (exec .inca State.reset) (fun t => t.a != State.reset.a && t.status.z == State.reset.status.z) = true
    ∧ gives (exec .decb State.reset) (fun t => t.b != State.reset.b && t.status.n != State.reset.status.n) = true
    ∧ gives (exec (.loadx (.immediate 1)) State.reset) (fun t => t.x != State.reset.x) = true
    ∧ gives (exec .incy State.reset) (fun t => t.y != State.reset.y) = true
    ∧ gives (exec .sec State.reset) (fun t => t.status.c != State.reset.status.c) = true
    ∧ gives (exec .halt State.reset) (fun t => t.status.h != State.reset.status.h) = true
    ∧ gives (exec (.multua (.immediate 2)) (regs 0xFFFF 0 0 0 0)) (fun t => t.status.v) = true
    ∧ gives (exec (.cmpa (.immediate 0)) State.reset) (fun t => t.status.z) = true := by decide

/-- The hypotheses of StackHeapAndMemoryWriters. -/
theorem witness_StackHeapAndMemoryWriters :
    gives (exec (.jsr (.memory .absolute false 0x260B)) State.reset) (fun t => t.callSp == 0x25FD) = true
    ∧ gives (exec .rts { State.reset with callSp := 0x25FD }) (fun t => t.callSp == 0x25FF) = true
    ∧ gives (exec .pla (stored 0x000A [0x26, 0x0F] State.reset)) (fun t => t.callSp == 0x25FD && t.pc == 0x260E) = true
    ∧ gives (exec .pha (regs 0x1234 0 0 0 0)) (fun t => t.sp != 0x23FF && t.mem != []) = true
    ∧ gives (exec (.syscall (.immediate 0x0021)) (regs 1 0 0 0 0)) (fun t => t.heap != []) = true
    ∧ gives (exec (.syscall (.immediate 0x0014)) State.reset) (fun t => t.out != []) = true
    ∧ gives (exec (.storea (.memory .absolute false 0x0200)) (regs 0x1234 0 0 0 0)) (fun t => t.mem != []) = true := by
  decide

end Sys2Proof.Tests
end

section
/-! Every step keeps the invariant (R34, R38, R39, R42, R43, R61, R313): what a step can do, what keeps the invariant, and
the two together. -/

namespace Sys2Proof.Machine

/-! ## What a step can do -/

/-- R280: a cycle ends an instruction that was fetched and executed, or the signal of bytes that are no instruction
(R69, R101, R102), raised with PC moved over some of them. -/
theorem cycle_cases {s t : State} (h : cycle s = .next t) :
    (∃ i n u, fetchDecode s = .instr i n ∧ exec i s = .next u ∧ t = endCycle u)
      ∨ ∃ sg k, sg ≠ .reset ∧ t = endCycle (raise sg (s.advance k)) := by
  have hreject : ∀ sg k, sg ≠ .reset → Host.Outcome.next (endCycle (raise sg (s.advance k))) = (.next t : Result) →
      ∃ sg k, sg ≠ .reset ∧ t = endCycle (raise sg (s.advance k)) := by
    intro sg k hs h
    injection h with h
    exact ⟨sg, k, hs, h.symm⟩
  unfold cycle at h
  split at h
  · next i n hd =>
    cases he : exec i s with
    | next u =>
      rw [he] at h
      injection h with h
      exact .inl ⟨i, n, u, hd, he, h.symm⟩
    | fault e => rw [he] at h; cases h
    | refused e => rw [he] at h; cases h
  · have h0 : s.advance 0 = s := by simp [State.advance]
    exact .inr (hreject .illegalInstruction 0 (by simp) (h0.symm ▸ h))
  · exact .inr (hreject .illegalInstruction _ (by simp) h)
  · exact .inr (hreject .illegalInstruction _ (by simp) h)
  · exact .inr (hreject .segmentation _ (by simp) h)

/-- R43, R280, R312: only a Running machine steps; it takes a Kill, takes a Reset, or runs a cycle. -/
theorem step_cases {s t : State} (h : step s = .next t) :
    s.run = .running
      ∧ (((nextRequest s).kill = true ∧ t = abort .kill (takeRequest s))
        ∨ ((nextRequest s).kill = false ∧ (nextRequest s).reset = true ∧ t = resetSignal (takeRequest s))
        ∨ ((nextRequest s).kill = false ∧ (nextRequest s).reset = false ∧ cycle (takeRequest s) = .next t)) := by
  unfold step at h
  split at h
  · cases h
  · cases h
  · next hr =>
    refine ⟨hr, ?_⟩
    split at h
    · next hk =>
      injection h with h
      exact .inl ⟨hk, h.symm⟩
    · next hk =>
      have hk : (nextRequest s).kill = false := by simpa using hk
      split at h
      · next hreset =>
        injection h with h
        exact .inr (.inl ⟨hk, hreset, h.symm⟩)
      · next hreset =>
        exact .inr (.inr ⟨hk, by simpa using hreset, h⟩)

/-- A cycle ends one of the thirteen effects; rejected bytes have the effect of a signal. -/
theorem cycle_effect {s t : State} (h : cycle s = .next t) : ∃ i u, Effect i s u ∧ t = endCycle u := by
  rcases cycle_cases h with ⟨i, n, u, -, he, rfl⟩ | ⟨sg, k, hs, rfl⟩
  · exact ⟨i, u, exec_effect he, rfl⟩
  · exact ⟨.noop, _, effect_raise hs (fetched_pc s _), rfl⟩

/-! ## Memory -/

/-- The three clauses of the invariant about memory. -/
structure Memory.Sound (m : Memory) : Prop where
  canonical : m.wf
  inRange : m.inRange
  nullGuard : m.read cfg.nullLo = 0 ∧ m.read cfg.nullHi = 0

theorem Invariant.soundMemory {s : State} (hi : Invariant s) : s.mem.Sound := ⟨hi.canonical, hi.inRange, hi.nullGuard⟩

/-- R61: a write above the null guard and inside the address space keeps the memory clauses. -/
theorem Memory.Sound.write {m : Memory} (hm : m.Sound) {a : Nat} (v : Byte) (h2 : 2 ≤ a) (ha : a < 0x10000) :
    (m.write a v).Sound where
  canonical := Memory.wf_write hm.canonical a v
  inRange := Memory.inRange_write hm.inRange v ha
  nullGuard := by
    have hlo : cfg.nullLo ≠ a := by simp only [cfg]; omega
    have hhi : cfg.nullHi ≠ a := by simp only [cfg]; omega
    rw [Memory.read_write_other m v hlo, Memory.read_write_other m v hhi]
    exact hm.nullGuard

/-- R65: the guest's addresses lie above the null guard and inside the address space. -/
theorem guestByte_bounds {a : Nat} (h : Claims.guestByte a) : 2 ≤ a ∧ a < 0x10000 := by
  unfold Claims.guestByte at h
  omega

theorem Memory.Sound.setValue {m : Memory} (hm : m.Sound) {a : Nat} (v : Word) {w : Width}
    (g : Claims.guestRange a w.bytes) : (m.setValue a v w).Sound := by
  cases w with
  | byte =>
    obtain ⟨h2, ha⟩ := guestByte_bounds (g 0 (by decide))
    exact hm.write _ h2 ha
  | word =>
    obtain ⟨h2, ha⟩ := guestByte_bounds (g 0 (by decide))
    obtain ⟨h2', ha'⟩ := guestByte_bounds (g 1 (by decide))
    exact (hm.write _ h2 ha).write _ h2' ha'

theorem Memory.Sound.writeBytes {m : Memory} (hm : m.Sound) {a : Nat} {bytes : List Byte}
    (g : Claims.guestRange a bytes.length) : (m.writeBytes a bytes).Sound := by
  induction bytes generalizing m a with
  | nil => exact hm
  | cons v rest ih =>
    obtain ⟨h2, ha⟩ := guestByte_bounds (g 0 (by simp))
    refine ih (hm.write v h2 ha) fun k hk => ?_
    rw [Nat.add_assoc, Nat.add_comm 1 k]
    exact g (k + 1) (by simpa using hk)

theorem Memory.Sound.copy {m : Memory} (hm : m.Sound) {dst src n : Nat} (h2 : 2 ≤ dst) (hd : dst + n ≤ 0x10000) :
    (m.copy dst src n).Sound := by
  induction n generalizing m dst src with
  | zero => exact hm
  | succ n ih => exact ih (hm.write _ h2 (by omega)) (by omega) (by omega)

theorem Memory.Sound.pushed {m : Memory} (hm : m.Sound) {ptr : Word} (v : Word) (h3 : 3 ≤ ptr.toNat) :
    (pushedMemory m ptr v).Sound := by
  have := ptr.isLt
  exact (hm.write _ (by omega) this).write _ (by omega) (by omega)

/-! ## Stack pointers -/

theorem toNat_sub_two {p : Word} (h : 2 ≤ p.toNat) : (p - 2).toNat = p.toNat - 2 := by bv_omega

theorem toNat_add_two {p : Word} (h : p.toNat + 2 < 0x10000) : (p + 2).toNat = p.toNat + 2 := by bv_omega

theorem legalSp_iff {p : Word} : legalSp p ↔ 0x2000 ≤ p.toNat ∧ p.toNat ≤ 0x23FF ∧ p.toNat % 2 = 1 := Iff.rfl

theorem legalCallSp_iff {p : Word} : legalCallSp p ↔ 0x2400 ≤ p.toNat ∧ p.toNat ≤ 0x25FF ∧ p.toNat % 2 = 1 := Iff.rfl

/-- R266: a push with room keeps SP legal. -/
theorem legalSp_sub_two {p : Word} (h : legalSp p) (room : 0x2002 ≤ p.toNat) : legalSp (p - 2) := by
  rw [legalSp_iff] at h ⊢
  rw [toNat_sub_two (by omega)]
  omega

/-- R267: a pull below the top keeps SP legal. -/
theorem legalSp_add_two {p : Word} (h : legalSp p) (room : p.toNat + 2 ≤ 0x23FF) : legalSp (p + 2) := by
  rw [legalSp_iff] at h ⊢
  rw [toNat_add_two (by omega)]
  omega

/-- R268: a call with room keeps CALL_SP legal. -/
theorem legalCallSp_sub_two {p : Word} (h : legalCallSp p) (room : 0x2402 ≤ p.toNat) : legalCallSp (p - 2) := by
  rw [legalCallSp_iff] at h ⊢
  rw [toNat_sub_two (by omega)]
  omega

/-- R269: a return below the top keeps CALL_SP legal. -/
theorem legalCallSp_add_two {p : Word} (h : legalCallSp p) (room : p.toNat + 2 ≤ 0x25FF) : legalCallSp (p + 2) := by
  rw [legalCallSp_iff] at h ⊢
  rw [toNat_add_two (by omega)]
  omega

/-! ## The invariant through each update -/

theorem Invariant.withMemory {s : State} (hi : Invariant s) {m : Memory} (hm : m.Sound) :
    Invariant { s with mem := m } :=
  { hi with canonical := hm.canonical, inRange := hm.inRange, nullGuard := hm.nullGuard }

theorem Invariant.withSp {s : State} (hi : Invariant s) {p : Word} (hp : legalSp p) : Invariant { s with sp := p } :=
  { hi with sp := hp }

theorem Invariant.withCallSp {s : State} (hi : Invariant s) {p : Word} (hp : legalCallSp p) :
    Invariant { s with callSp := p } :=
  { hi with callSp := hp }

theorem Invariant.withHeap {s : State} (hi : Invariant s) {h : Heap} (hh : h.ok = true) :
    Invariant { s with heap := h } :=
  { hi with heap := hh }

theorem Invariant.takeRequest {s : State} (hi : Invariant s) : Invariant (takeRequest s) := { hi with }

/-- R268: a return address pushed where there is room. -/
theorem Invariant.pushCall {s : State} (hi : Invariant s) (v : Word) (room : 0x2402 ≤ s.callSp.toNat) :
    Invariant { s with callSp := s.callSp - 2, mem := pushedMemory s.mem s.callSp v } :=
  (hi.withMemory (hi.soundMemory.pushed v (by omega))).withCallSp (legalCallSp_sub_two hi.callSp room)

/-- R43: a Running machine has H clear. -/
theorem Invariant.h_clear {s : State} (hi : Invariant s) (hr : s.run = .running) : s.status.h = false := by
  have h := hi.run
  rwa [runConsistent, hr] at h

/-- The invariant of a Running machine says nothing of what a quiet effect may change. -/
theorem Invariant.quiet {s t : State} (hi : Invariant s) (hr : s.run = .running) (q : Quiet s t) : Invariant t where
  canonical := q.mem ▸ hi.canonical
  inRange := q.mem ▸ hi.inRange
  nullGuard := q.mem ▸ hi.nullGuard
  sp := q.sp ▸ hi.sp
  callSp := q.callSp ▸ hi.callSp
  heap := q.heap ▸ hi.heap
  reserved := by rw [q.u, q.i, q.f]; exact hi.reserved
  run := by
    have ht : t.run = .running := q.run.trans hr
    simp only [runConsistent, ht, q.h, hi.h_clear hr]

/-- R283: HALT sets H and the end of its cycle stops the machine. -/
theorem Invariant.halt {s : State} (hi : Invariant s) (hr : s.run = .running) :
    Invariant (endCycle { s with status := { s.status with h := true } }) := by
  rw [endCycle_running (s := { s with status := { s.status with h := true } }) hr]
  exact { hi with run := rfl }

/-- R304: an abort sets H and reports the PC and STATUS it leaves. -/
theorem Invariant.abort {s : State} (hi : Invariant s) (kind : ErrorKind) : Invariant (abort kind s) :=
  { hi with run := ⟨rfl, rfl, rfl⟩ }

/-- R280: the end of a cycle only moves PC and ends a run that H has ended. -/
theorem Invariant.endCycle {s : State} (hi : Invariant s) : Invariant (endCycle s) := by
  cases hr : s.run with
  | running =>
    have hh := hi.h_clear hr
    rw [endCycle_running hr, hh]
    exact { hi with run := hh }
  | halted => rwa [endCycle_halted hr]
  | aborted kind pc status => rwa [endCycle_aborted hr]

/-- R342: a reset gives STATUS, the stack pointers and the heap their initial values. -/
theorem Invariant.resetSignal {s : State} (hi : Invariant s) (hr : s.run = .running) :
    Invariant (resetSignal s) where
  canonical := hi.canonical
  inRange := hi.inRange
  nullGuard := hi.nullGuard
  sp := by rw [resetSignal_sp]; decide
  callSp := by rw [resetSignal_callSp]; decide
  heap := rfl
  reserved := ⟨rfl, rfl, rfl⟩
  run := by
    simp only [runConsistent, resetSignal_run, hr]
    rfl

/-- Every effect, followed by the end of the cycle, keeps the invariant. -/
theorem Effect.keeps_invariant {i : Instr} {s u : State} (hi : Invariant s) (hr : s.run = .running)
    (e : Effect i s u) : Invariant (Machine.endCycle u) := by
  cases e with
  | quiet q => exact (hi.quiet hr q).endCycle
  | halt => exact hi.halt hr
  | stored ea v w g q => exact ((hi.withMemory (hi.soundMemory.setValue v g)).quiet hr q).endCycle
  | pushed v room q =>
    have hm := hi.soundMemory.pushed (ptr := s.sp) v (by omega)
    exact (((hi.withMemory hm).withSp (legalSp_sub_two hi.sp room)).quiet hr q).endCycle
  | pulled room q => exact ((hi.withSp (legalSp_add_two hi.sp room)).quiet hr q).endCycle
  | called op jsr v room q => exact ((hi.pushCall v room).quiet hr q).endCycle
  | trapped target v handler pc room q => exact ((hi.pushCall v room).quiet hr q).endCycle
  | returned rts room q => exact ((hi.withCallSp (legalCallSp_add_two hi.callSp room)).quiet hr q).endCycle
  | line a bytes g q => exact ((hi.withMemory (hi.soundMemory.writeBytes g)).quiet hr q).endCycle
  | printed event q =>
    have ho : Invariant { s with out := s.out ++ [event] } := { hi with }
    exact (ho.quiet hr q).endCycle
  | heap h ok q => exact ((hi.withHeap (ok hi.heap)).quiet hr q).endCycle
  | moved h dst src n ok q =>
    obtain ⟨hok, hlo, hup⟩ := ok hi.heap
    simp only [cfg] at hlo hup
    have hm : (s.mem.copy dst src n).Sound := hi.soundMemory.copy (by omega) (by omega)
    exact (((hi.withMemory hm).withHeap hok).quiet hr q).endCycle
  | aborted kind f => exact ((hi.quiet hr f.quiet).abort kind).endCycle

/-- Settles O54: a Kill is an abort, a Reset restores the initial values, and a cycle is one of the thirteen effects and
its end. -/
theorem stepKeepsTheInvariant : Obligations.StepKeepsTheInvariant := by
  intro s t hi h
  obtain ⟨hr, ⟨-, rfl⟩ | ⟨-, -, rfl⟩ | ⟨-, -, hc⟩⟩ := step_cases h
  · exact hi.takeRequest.abort .kill
  · exact hi.takeRequest.resetSignal hr
  · obtain ⟨i, u, e, rfl⟩ := cycle_effect hc
    exact e.keeps_invariant hi.takeRequest hr

/-- Settles O11: R43's terminal states are the two branches of a step that answer a fault. -/
theorem terminalRunsHaveNoStep : Obligations.TerminalRunsHaveNoStep := by
  refine ⟨fun s hr => ?_, fun s kind pc status hr => ?_⟩
  · simp only [step, hr]
  · simp only [step, hr]

end Sys2Proof.Machine
end

section
/-! Which instruction can write which part of the state (R32, R37 to R39, R42, R44, R67): a table of every instruction's
own writes, the proof that an instruction writes nothing else, and the statements read off the table. -/

namespace Sys2Proof.Machine

/-! ## The table -/

/-- The parts of the state whose writers the rules name. -/
inductive Part where
  | a
  | b
  | x
  | y
  | n
  | v
  | u
  | h
  | i
  | f
  | z
  | c
  | sp
  | callSp
  | mem
  | heap
  | out

/-- Two states agree in a part. -/
def Part.Same (s t : State) : Part → Prop
  | .a => t.a = s.a
  | .b => t.b = s.b
  | .x => t.x = s.x
  | .y => t.y = s.y
  | .n => t.status.n = s.status.n
  | .v => t.status.v = s.status.v
  | .u => t.status.u = s.status.u
  | .h => t.status.h = s.status.h
  | .i => t.status.i = s.status.i
  | .f => t.status.f = s.status.f
  | .z => t.status.z = s.status.z
  | .c => t.status.c = s.status.c
  | .sp => t.sp = s.sp
  | .callSp => t.callSp = s.callSp
  | .mem => t.mem = s.mem
  | .heap => t.heap = s.heap
  | .out => t.out = s.out

/-- The part a register is. -/
def regPart : Reg → Part
  | .a => .a
  | .b => .b
  | .x => .x
  | .y => .y

/-- R125: what a store writes. -/
def storeParts : Operand → List Part
  | .registerB => [.b]
  | .memory _ _ _ => [.mem]
  | .immediate _ => []
  | .registerA => []

/-- R126: where a shift writes its result. -/
def locationParts : Operand → List Part
  | .registerA => [.a]
  | .registerB => [.b]
  | .memory _ _ _ => [.mem]
  | .immediate _ => []

/-- What the system calls write. -/
abbrev syscallParts : List Part := [.a, .b, .mem, .heap, .out]

/-- R32, R37, R38, R42, R44, R67: what each instruction writes itself. The calls, returns and signals are told apart in
`Writes`. -/
@[simp] def writtenParts : Instr → List Part
  | .noop | .jmp _ | .brz _ | .brnz _ | .brc _ | .brnc _ | .jsr _ | .rts => []
  | .loada _ => [.a]
  | .loadb _ => [.b]
  | .loadx _ => [.x]
  | .loady _ => [.y]
  | .storea op | .storeb op | .storex op | .storey op => storeParts op
  | .addca _ | .subca _ | .multa _ | .multua _ | .fadda _ | .fsuba _ | .fmulta _ | .fdiva _ => [.a, .n, .v, .z, .c]
  | .diva _ | .divua _ => [.a, .b, .n, .v, .z, .c]
  | .anda _ | .ora _ | .xora _ | .inca | .deca => [.a, .n, .z]
  | .incb | .decb => [.b, .n, .z]
  | .incx | .decx => [.x, .n, .z]
  | .incy | .decy => [.y, .n, .z]
  | .lsl op | .lsr op | .rol op | .ror op => [.n, .z, .c] ++ locationParts op
  | .cmpa _ | .cmpb _ | .cmpx _ | .cmpy _ => [.z, .c]
  | .clc | .sec => [.c]
  | .pha | .phb => [.sp, .mem]
  | .pla => [.a, .sp]
  | .plb => [.b, .sp]
  | .syscall _ => syscallParts
  | .halt => [.h]

@[simp] theorem mem_storeParts {p : Part} {op : Operand} :
    p ∈ storeParts op ↔ (p = .b ∧ op = .registerB) ∨ (p = .mem ∧ ∃ m short addr, op = .memory m short addr) := by
  cases op <;> simp [storeParts]

@[simp] theorem mem_locationParts {p : Part} {op : Operand} :
    p ∈ locationParts op ↔ (p = .a ∧ op = .registerA) ∨ (p = .b ∧ op = .registerB)
      ∨ (p = .mem ∧ ∃ m short addr, op = .memory m short addr) := by
  cases op <;> simp [locationParts]

/-! ## Agreement outside a list of parts -/

/-- Two states agree in every part outside a list. -/
def SameExcept (ps : List Part) (s t : State) : Prop := ∀ p, p ∈ ps ∨ p.Same s t

theorem Part.Same.trans {p : Part} {s u t : State} (h : p.Same s u) (k : p.Same u t) : p.Same s t := by
  cases p <;> exact Eq.trans k h

theorem SameExcept.trans {ps : List Part} {s u t : State} (h : SameExcept ps s u) (k : SameExcept ps u t) :
    SameExcept ps s t := fun p =>
  (h p).elim .inl fun hs => (k p).imp_right hs.trans

theorem SameExcept.mono {ps qs : List Part} {s t : State} (h : SameExcept ps s t) (hq : ps ⊆ qs) :
    SameExcept qs s t := fun p => (h p).imp_left (@hq p)

theorem sameExcept_refl (ps : List Part) (s : State) : SameExcept ps s s := fun p => .inr (by cases p <;> rfl)

/-- What a signal is raised on agrees with the instruction's state in every part. -/
theorem Fetched.same {s u : State} (f : Fetched s u) (ps : List Part) : SameExcept ps s u := by
  have q := f.quiet
  intro p
  right
  cases p with
  | a => exact f.a
  | b => exact f.b
  | x => exact f.x
  | y => exact f.y
  | n => exact congrArg Status.n f.status
  | v => exact congrArg Status.v f.status
  | u => exact q.u
  | h => exact q.h
  | i => exact q.i
  | f => exact q.f
  | z => exact congrArg Status.z f.status
  | c => exact congrArg Status.c f.status
  | sp => exact q.sp
  | callSp => exact q.callSp
  | mem => exact q.mem
  | heap => exact q.heap
  | out => exact q.out

theorem SameExcept.of_consume {ps : List Part} {op : Operand} {s t : State} (h : SameExcept ps (consume op s) t) :
    SameExcept ps s t :=
  ((fetched_consume op s).same ps).trans h

/-! ## The updates of the state -/

theorem sameExcept_setReg (r : Reg) (v : Word) (s : State) : SameExcept [regPart r] s (s.setReg r v) := by
  intro p
  cases r <;> cases p <;> simp [Part.Same, regPart]

theorem sameExcept_writeZN (r : Reg) (v : Word) (s : State) : SameExcept [regPart r, .n, .z] s (writeZN r v s) := by
  intro p
  cases r <;> cases p <;> simp [Part.Same, regPart, writeZN]

theorem sameExcept_writeAccumulator (v : Word) (k : Nvzc) (s : State) :
    SameExcept [.a, .n, .v, .z, .c] s (writeAccumulator v k s) := by
  intro p
  cases p <;> simp [Part.Same]

/-- R166, R167: a division writes the quotient to A and the remainder to B. -/
theorem sameExcept_divide (v w : Word) (k : Nvzc) (s : State) :
    SameExcept [.a, .b, .n, .v, .z, .c] s { writeAccumulator v k s with b := w } := by
  intro p
  cases p <;> simp [Part.Same]

theorem sameExcept_setCompare (v w : Word) (s : State) :
    SameExcept [.z, .c] s { s with status := s.status.setCompare v w } := by
  intro p
  cases p <;> simp [Part.Same]

theorem sameExcept_setC (carry : Bool) (s : State) : SameExcept [.c] s { s with status := s.status.setC carry } := by
  intro p
  cases p <;> simp [Part.Same]

theorem sameExcept_setH (s : State) : SameExcept [.h] s { s with status := { s.status with h := true } } := by
  intro p
  cases p <;> simp [Part.Same]

theorem sameExcept_abort (kind : ErrorKind) (s : State) : SameExcept [.h] s (abort kind s) := by
  intro p
  cases p <;> simp [Part.Same]

/-- R268, R306: a return address pushed, and PC loaded. -/
theorem sameExcept_call (pc callSp : Word) (m : Memory) (s : State) :
    SameExcept [.callSp, .mem] s { s with pc := pc, callSp := callSp, mem := m } := by
  intro p
  cases p <;> simp [Part.Same]

/-- R269: a return address popped into PC. -/
theorem sameExcept_return (pc callSp : Word) (s : State) :
    SameExcept [.callSp] s { s with pc := pc, callSp := callSp } := by
  intro p
  cases p <;> simp [Part.Same]

theorem sameExcept_goTo (target : Word) (ps : List Part) (s : State) : SameExcept ps s (goTo target s) :=
  (fetched_pc s (target - 1)).same ps

theorem sameExcept_push (sp : Word) (m : Memory) (s : State) :
    SameExcept [.sp, .mem] s { s with sp := sp, mem := m } := by
  intro p
  cases p <;> simp [Part.Same]

theorem sameExcept_pull (r : Reg) (v sp : Word) (s : State) :
    SameExcept [regPart r, .sp] s (State.setReg { s with sp := sp } r v) := by
  intro p
  cases r <;> cases p <;> simp [Part.Same, regPart]

/-- R185: the flags a shift sets after writing its location. -/
theorem sameExcept_shiftFlags (v : Word) (carry : Bool) (ps : List Part) (s : State) :
    SameExcept ([.n, .z, .c] ++ ps) s { s with status := (s.status.setZN v).setC carry } := by
  intro p
  cases p <;> simp [Part.Same]

/-- R125: a store that completes writes its destination alone. -/
theorem resolveStore_same {v : Word} {op : Operand} {s t : State} (h : resolveStore v op s = .ok t) :
    SameExcept (storeParts op) s t := by
  cases op with
  | immediate w => cases h
  | registerA => cases h
  | registerB =>
    injection h with h
    exact h ▸ sameExcept_setReg .b v s
  | memory m short addr =>
    simp only [resolveStore] at h
    split at h
    · cases h
    · split at h
      · cases h
      · injection h with h
        subst h
        intro p
        cases p <;> simp [Part.Same, storeParts]

/-- R126: a shift writes the location its operand resolves to. -/
theorem writeLocation_same {op : Operand} {loc : Location} {v : Word} {s u t : State}
    (hl : resolveLocation op s = .ok loc) (h : writeLocation loc v u = .ok t) :
    SameExcept (locationParts op) u t := by
  cases op with
  | immediate w => cases hl
  | registerA =>
    injection hl with hl
    subst hl
    injection h with h
    exact h ▸ sameExcept_setReg .a v u
  | registerB =>
    injection hl with hl
    subst hl
    injection h with h
    exact h ▸ sameExcept_setReg .b v u
  | memory m short addr =>
    obtain ⟨ea, rfl⟩ : ∃ ea, loc = .word ea := by
      cases short with
      | true => cases hl
      | false =>
        simp only [resolveLocation, Bool.false_eq_true, if_false] at hl
        cases he : effectiveAddress m addr s with
        | error sg => rw [he] at hl; cases hl
        | ok ea => rw [he] at hl; injection hl with hl; exact ⟨ea, hl.symm⟩
    simp only [writeLocation] at h
    split at h
    · cases h
    · injection h with h
      subst h
      intro p
      cases p <;> simp [Part.Same, locationParts]

/-! ## The heap calls -/

theorem deliver_same (r : Option Nat) (m : Memory) (h : Heap) (s : State) :
    SameExcept syscallParts s (deliver r { s with mem := m, heap := h }) := by
  intro p
  cases r <;> cases p <;> simp [Part.Same, deliver]

theorem allocateInto_same (size : Nat) (s : State) : SameExcept syscallParts s (allocateInto size s) := by
  unfold allocateInto
  split
  · exact deliver_same none s.mem s.heap s
  · next address h _ => exact deliver_same (some address) s.mem h s

theorem moveBlock_same {o : Block} {n : Nat} {s t : State} (h : moveBlock o n s = .ok t) :
    SameExcept syscallParts s t := by
  unfold moveBlock at h
  split at h
  · injection h with h
    exact h ▸ deliver_same none s.mem s.heap s
  · split at h
    · injection h with h
      exact h ▸ deliver_same _ _ _ s
    · cases h

theorem reallocate_same {address n : Nat} {create : Bool} {s t : State} (h : reallocate address n create s = .ok t) :
    SameExcept syscallParts s t := by
  have hdeliver : ∀ r heap, (.ok (deliver r { s with heap := heap }) : Except Signal State) = .ok t →
      SameExcept syscallParts s t := by
    intro r heap h
    injection h with h
    exact h ▸ deliver_same r s.mem heap s
  unfold reallocate at h
  split at h
  · cases create with
    | true =>
      injection h with h
      exact h ▸ allocateInto_same n s
    | false => exact hdeliver none s.heap h
  · split at h
    · exact hdeliver _ s.heap h
    · split at h
      · split at h
        · exact hdeliver _ _ h
        · exact moveBlock_same h
      · split at h
        · exact hdeliver _ _ h
        · exact hdeliver none s.heap h

/-! ## What an instruction writes -/

/-- What an instruction can write: its own parts when it completes, the halt flag when it aborts (R304), the call stack
when it pushes a return address (R291, R306), and CALL_SP when it returns (R292). -/
inductive Writes (i : Instr) (s t : State) : Prop where
  | own (same : SameExcept (writtenParts i) s t)
  | aborts (run : ∃ kind pc status, t.run = .aborted kind pc status) (same : SameExcept [.h] s t)
  | calls (who : (∃ op, i = .jsr op) ∨ Claims.isHandler s.mem (t.pc + 1)) (lower : t.callSp = s.callSp - 2)
      (same : SameExcept [.callSp, .mem] s t)
  | returns (rts : i = .rts) (higher : t.callSp = s.callSp + 2) (same : SameExcept [.callSp] s t)

/-- Why a part has changed. -/
theorem Writes.of_changed {i : Instr} {s t : State} {p : Part} (w : Writes i s t) (hne : ¬ p.Same s t) :
    p ∈ writtenParts i
      ∨ (p = .h ∧ ∃ kind pc status, t.run = .aborted kind pc status)
      ∨ (p ∈ [.callSp, .mem] ∧ t.callSp = s.callSp - 2
        ∧ ((∃ op, i = .jsr op) ∨ Claims.isHandler s.mem (t.pc + 1)))
      ∨ (p = .callSp ∧ i = .rts ∧ t.callSp = s.callSp + 2) := by
  cases w with
  | own same => exact .inl ((same p).resolve_right hne)
  | aborts run same => exact .inr (.inl ⟨List.mem_singleton.1 ((same p).resolve_right hne), run⟩)
  | calls who lower same => exact .inr (.inr (.inl ⟨(same p).resolve_right hne, lower, who⟩))
  | returns rts higher same =>
    exact .inr (.inr (.inr ⟨List.mem_singleton.1 ((same p).resolve_right hne), rts, higher⟩))

/-- The parts that only a completed instruction writes are in its row of the table. -/
theorem Writes.mem_writtenParts {i : Instr} {s t : State} {p : Part} (w : Writes i s t)
    (hp : p ∉ [.h, .callSp, .mem]) (hne : ¬ p.Same s t) : p ∈ writtenParts i := by
  rcases w.of_changed hne with hw | ⟨rfl, -⟩ | ⟨hm, -⟩ | ⟨rfl, -⟩
  · exact hw
  · simp at hp
  · exact absurd (List.mem_cons_of_mem _ hm) hp
  · simp at hp

/-- A part outside the row stays, the parts of aborts, calls and returns apart. -/
theorem Writes.same {i : Instr} {s t : State} {p : Part} (w : Writes i s t) (hp : p ∉ [.h, .callSp, .mem])
    (hr : p ∉ writtenParts i) : p.Same s t :=
  by_contra fun hne => hr (w.mem_writtenParts hp hne)

section
variable {i : Instr} {s u t : State}

theorem writes_abort (f : Fetched s u) (kind : ErrorKind) : Writes i s (abort kind u) :=
  .aborts ⟨_, _, _, rfl⟩ ((f.same _).trans (sameExcept_abort kind u))

/-- R303: a signal other than Reset aborts or enters a handler. -/
theorem writes_raise {sg : Signal} (hs : sg ≠ .reset) (f : Fetched s u) : Writes i s (raise sg u) := by
  rcases raise_cases hs u with ⟨kind, h⟩ | ⟨-, v, hv, h⟩
  · rw [h]
    exact writes_abort f kind
  · rw [h]
    refine .calls (.inr ?_) ?_ ((f.same _).trans (sameExcept_call _ _ _ u))
    · rw [f.quiet.mem] at hv
      simpa using hv
    · simp [f.quiet.callSp]

theorem writes_orRaise {α : Type} {r : Except Signal α} {k : α → Result} (f : Fetched s u)
    (hr : ∀ sg, r = .error sg → sg ≠ .reset) (hk : ∀ v, r = .ok v → k v = .next t → Writes i s t)
    (h : orRaise r u k = .next t) : Writes i s t := by
  cases r with
  | error sg =>
    injection h with h
    exact h ▸ writes_raise (hr sg rfl) f
  | ok v => exact hk v rfl h

theorem writes_withValue {op : Operand} {k : Word → State → Result}
    (hk : ∀ v, k v (consume op s) = .next t → Writes i s t) (h : withValue op s k = .next t) : Writes i s t :=
  writes_orRaise (fetched_consume op s) (fun _ => resolveLoad_not_reset) (fun v _ => hk v) h

theorem writes_withTarget {op : Operand} {k : Word → State → Result}
    (hk : ∀ v, k v (consume op s) = .next t → Writes i s t) (h : withTarget op s k = .next t) : Writes i s t :=
  writes_orRaise (fetched_consume op s) (fun _ he => by simp [resolveTarget_error he]) (fun v _ => hk v) h

/-- An instruction that changes its state by one update. -/
theorem writes_update (hu : SameExcept (writtenParts i) s u) (h : Host.Outcome.next u = (.next t : Result)) :
    Writes i s t := by
  injection h with h
  exact h ▸ .own hu

/-- A class-L instruction that changes its state by one update that its value selects. -/
theorem writes_valueUpdate {op : Operand} {g : Word → State → State}
    (hg : ∀ v u, SameExcept (writtenParts i) u (g v u))
    (h : withValue op s (fun v u => .next (g v u)) = .next t) : Writes i s t := by
  refine writes_withValue (fun v hv => ?_) h
  injection hv with hv
  exact hv ▸ .own (hg v _).of_consume

/-- R166, R167, R168, R227: the divides raise a signal on a zero divisor and else make one update. -/
theorem writes_divide {op : Operand} {zero : Word → Prop} [DecidablePred zero] {g : Word → State → State}
    (hg : ∀ v u, SameExcept (writtenParts i) u (g v u))
    (h : withValue op s (fun v u => if zero v then zeroDivisor s.pc u else .next (g v u)) = .next t) :
    Writes i s t := by
  refine writes_withValue (fun v hv => ?_) h
  split at hv
  · injection hv with hv
    exact hv ▸ writes_raise (by simp) (fetched_pc s s.pc)
  · injection hv with hv
    exact hv ▸ .own (hg v _).of_consume

theorem writes_branchIf {taken : Bool} {op : Operand} (h : branchIf taken op s = .next t) : Writes i s t := by
  refine writes_withTarget (fun v hv => ?_) h
  injection hv with hv
  refine hv ▸ .own (SameExcept.of_consume (op := op) ?_)
  cases taken with
  | true => exact sameExcept_goTo v _ _
  | false => exact sameExcept_refl _ _

theorem writes_storeRegister {r : Reg} {op : Operand} (hi : writtenParts i = storeParts op)
    (h : storeRegister r op s = .next t) : Writes i s t := by
  refine writes_orRaise (fetched_consume op s)
    (fun sg he => by rcases resolveStore_error he with rfl | rfl <;> simp) (fun v hv hn => ?_) h
  injection hn with hn
  subst hn
  refine .own ?_
  rw [hi]
  exact (resolveStore_same hv).of_consume

theorem readLocation_not_reset {loc : Location} {sg : Signal} (h : readLocation loc s = .error sg) : sg ≠ .reset := by
  cases loc with
  | registerA => cases h
  | registerB => cases h
  | word ea => exact memRead_not_reset h

theorem writeLocation_not_reset {loc : Location} {v : Word} {sg : Signal} (h : writeLocation loc v s = .error sg) :
    sg ≠ .reset := by
  cases loc with
  | registerA => cases h
  | registerB => cases h
  | word ea =>
    by_cases g : Claims.guestRange ea Width.word.bytes
    · rw [writeLocation, memWrite_ok v s.mem g] at h
      cases h
    · rw [writeLocation, memWrite_error v s.mem g] at h
      injection h with h
      simp [← h]

theorem writes_shiftLocation {f : Word → Bool → Word × Bool} {op : Operand}
    (hi : writtenParts i = [.n, .z, .c] ++ locationParts op) (h : shiftLocation f op s = .next t) :
    Writes i s t := by
  have fc := fetched_consume op s
  refine writes_orRaise fc (fun sg he => by rcases resolveLocation_error he with rfl | rfl <;> simp)
    (fun loc hl h => ?_) h
  refine writes_orRaise fc (fun _ => readLocation_not_reset) (fun v _ h => ?_) h
  refine writes_orRaise fc (fun _ => writeLocation_not_reset) (fun w hw h => ?_) h
  injection h with h
  subst h
  refine .own ?_
  rw [hi]
  have hloc := (writeLocation_same hl hw).mono (List.subset_append_right [.n, .z, .c] _)
  exact (hloc.trans (sameExcept_shiftFlags _ _ _ w)).of_consume

theorem writes_pushRegister {r : Reg} (hi : writtenParts i = [.sp, .mem]) (h : pushRegister r s = .next t) :
    Writes i s t := by
  by_cases room : 0x2002 ≤ s.sp.toNat
  · rw [pushRegister, pushData_ok _ room] at h
    injection h with h
    exact h ▸ .own (hi ▸ sameExcept_push _ _ s)
  · rw [pushRegister, pushData_full _ (by omega)] at h
    injection h with h
    exact h ▸ writes_raise (by simp) (fetched_refl s)

theorem writes_pullRegister {r : Reg} (hi : writtenParts i = [regPart r, .sp]) (h : pullRegister r s = .next t) :
    Writes i s t := by
  rw [pullRegister, popData] at h
  cases hp : pop cfg.stackTop s.sp s.mem with
  | error sg =>
    rw [hp] at h
    injection h with h
    exact h ▸ writes_raise (pop_error hp) (fetched_refl s)
  | ok q =>
    rw [hp] at h
    injection h with h
    exact h ▸ .own (hi ▸ sameExcept_pull r _ _ s)

theorem writes_jsr {op : Operand} (h : execJsr op s = .next t) : Writes (.jsr op) s t := by
  refine writes_withTarget (fun v hv => ?_) h
  by_cases room : 0x2402 ≤ s.callSp.toNat
  · rw [pushCall_ok _ (by rw [consume_callSp]; exact room)] at hv
    injection hv with hv
    exact hv ▸ .calls (.inl ⟨op, rfl⟩) rfl (sameExcept_call _ _ _ s)
  · rw [pushCall_full _ (by rw [consume_callSp]; omega)] at hv
    injection hv with hv
    exact hv ▸ writes_raise (by simp) (fetched_consume op s)

theorem writes_returnFromCall (s : State) : Writes .rts s (returnFromCall s) := by
  rw [returnFromCall, popCall]
  cases hp : pop cfg.callTop s.callSp s.mem with
  | error sg => exact writes_raise (pop_error hp) (fetched_refl s)
  | ok q =>
    obtain ⟨-, hq, -⟩ := pop_inv (v := q.1) (q := q.2) hp
    exact .returns rfl hq (sameExcept_return _ _ s)

/-- R238, R240: a line read is stored and counted in A, or its place is rejected. -/
theorem writes_readLine (hi : writtenParts i = syscallParts) (f : Fetched s u) (h : readLine u = .next t) :
    Writes i s t := by
  unfold readLine at h
  split at h
  · cases h
  · have f' := fetched_takeAnswer f
    unfold storeLine at h
    split at h
    · injection h with h
      subst h
      refine .own (hi ▸ (f'.same _).trans fun p => ?_)
      cases p <;> simp [Part.Same]
    · injection h with h
      exact h ▸ writes_raise (by simp) f'

theorem writes_printBytes {event : List Byte → OutEvent} (hi : writtenParts i = syscallParts) (f : Fetched s u)
    (h : printBytes event u = .next t) : Writes i s t := by
  unfold printBytes at h
  split at h
  · injection h with h
    subst h
    refine .own (hi ▸ (f.same _).trans fun p => ?_)
    cases p <;> simp [Part.Same]
  · injection h with h
    exact h ▸ writes_raise (by simp) f

theorem writes_freeBlock (hi : writtenParts i = syscallParts) (f : Fetched s u) (h : freeBlock u = .next t) :
    Writes i s t := by
  unfold freeBlock at h
  split at h
  · injection h with h
    subst h
    refine .own (hi ▸ (f.same _).trans fun p => ?_)
    cases p <;> simp [Part.Same]
  · injection h with h
    exact h ▸ writes_abort f _

theorem writes_reallocate {address n : Nat} {create : Bool} (hi : writtenParts i = syscallParts) (f : Fetched s u)
    (h : orRaise (reallocate address n create u) u .next = .next t) : Writes i s t := by
  refine writes_orRaise f (fun _ => reallocate_error) (fun v hv hn => ?_) h
  injection hn with hn
  exact hn ▸ .own (hi ▸ (f.same _).trans (reallocate_same hv))

/-- R236, R237: the seven system calls, and the numbers that are none. -/
theorem writes_systemCall {n : Word} (hi : writtenParts i = syscallParts) (f : Fetched s u)
    (h : systemCall n u = .next t) : Writes i s t := by
  unfold systemCall at h
  split at h
  · exact writes_readLine hi f h
  split at h
  · exact writes_printBytes hi f h
  split at h
  · exact writes_printBytes hi f h
  split at h
  · exact writes_freeBlock hi f h
  split at h
  · injection h with h
    exact h ▸ .own (hi ▸ (f.same _).trans (allocateInto_same _ u))
  split at h
  · exact writes_reallocate hi f h
  split at h
  · exact writes_reallocate hi f h
  · injection h with h
    exact h ▸ writes_raise (by simp) f

/-- Every instruction writes its row of the table, aborts, pushes a return address or returns. -/
theorem exec_writes (h : exec i s = .next t) : Writes i s t := by
  cases i with
  | noop => exact writes_update (sameExcept_refl _ s) h
  | loada op => exact writes_valueUpdate (fun v u => sameExcept_setReg .a v u) h
  | storea op => exact writes_storeRegister rfl h
  | loadb op => exact writes_valueUpdate (fun v u => sameExcept_setReg .b v u) h
  | storeb op => exact writes_storeRegister rfl h
  | loadx op => exact writes_valueUpdate (fun v u => sameExcept_setReg .x v u) h
  | storex op => exact writes_storeRegister rfl h
  | loady op => exact writes_valueUpdate (fun v u => sameExcept_setReg .y v u) h
  | storey op => exact writes_storeRegister rfl h
  | addca op => exact writes_valueUpdate (fun v u => sameExcept_writeAccumulator _ _ u) h
  | subca op => exact writes_valueUpdate (fun v u => sameExcept_writeAccumulator _ _ u) h
  | multa op => exact writes_valueUpdate (fun v u => sameExcept_writeAccumulator _ _ u) h
  | multua op => exact writes_valueUpdate (fun v u => sameExcept_writeAccumulator _ _ u) h
  | diva op =>
    exact writes_divide (fun v u => sameExcept_divide (sdivQuotient u.a v) (sdivRemainder u.a v) divFlags u) h
  | divua op =>
    exact writes_divide (fun v u => sameExcept_divide (udivQuotient u.a v) (udivRemainder u.a v) divFlags u) h
  | anda op => exact writes_valueUpdate (fun v u => sameExcept_writeZN .a _ u) h
  | ora op => exact writes_valueUpdate (fun v u => sameExcept_writeZN .a _ u) h
  | xora op => exact writes_valueUpdate (fun v u => sameExcept_writeZN .a _ u) h
  | lsl op => exact writes_shiftLocation rfl h
  | lsr op => exact writes_shiftLocation rfl h
  | rol op => exact writes_shiftLocation rfl h
  | ror op => exact writes_shiftLocation rfl h
  | inca => exact writes_update (sameExcept_writeZN .a _ s) h
  | deca => exact writes_update (sameExcept_writeZN .a _ s) h
  | incb => exact writes_update (sameExcept_writeZN .b _ s) h
  | decb => exact writes_update (sameExcept_writeZN .b _ s) h
  | incx => exact writes_update (sameExcept_writeZN .x _ s) h
  | decx => exact writes_update (sameExcept_writeZN .x _ s) h
  | incy => exact writes_update (sameExcept_writeZN .y _ s) h
  | decy => exact writes_update (sameExcept_writeZN .y _ s) h
  | cmpa op => exact writes_valueUpdate (fun v u => sameExcept_setCompare _ _ u) h
  | cmpb op => exact writes_valueUpdate (fun v u => sameExcept_setCompare _ _ u) h
  | cmpx op => exact writes_valueUpdate (fun v u => sameExcept_setCompare _ _ u) h
  | cmpy op => exact writes_valueUpdate (fun v u => sameExcept_setCompare _ _ u) h
  | clc => exact writes_update (sameExcept_setC false s) h
  | sec => exact writes_update (sameExcept_setC true s) h
  | jmp op => exact writes_branchIf h
  | brz op => exact writes_branchIf h
  | brnz op => exact writes_branchIf h
  | brc op => exact writes_branchIf h
  | brnc op => exact writes_branchIf h
  | jsr op => exact writes_jsr h
  | rts =>
    injection h with h
    exact h ▸ writes_returnFromCall s
  | pha => exact writes_pushRegister rfl h
  | pla => exact writes_pullRegister rfl h
  | phb => exact writes_pushRegister rfl h
  | plb => exact writes_pullRegister rfl h
  | fadda op => exact writes_valueUpdate (fun v u => sameExcept_writeAccumulator _ _ u) h
  | fsuba op => exact writes_valueUpdate (fun v u => sameExcept_writeAccumulator _ _ u) h
  | fmulta op => exact writes_valueUpdate (fun v u => sameExcept_writeAccumulator _ _ u) h
  | fdiva op => exact writes_divide (fun v u => sameExcept_writeAccumulator _ _ u) h
  | syscall op => exact writes_withValue (fun v hv => writes_systemCall rfl (fetched_consume op s) hv) h
  | halt => exact writes_update (sameExcept_setH s) h

end

/-! ## The statements -/

/-- R37, R39: no instruction's row names U, I, F or CALL_SP. -/
theorem not_mem_writtenParts {p : Part} (hp : p ∈ [.u, .i, .f, .callSp]) (i : Instr) : p ∉ writtenParts i := by
  simp only [List.mem_cons, List.not_mem_nil, or_false] at hp
  rcases hp with rfl | rfl | rfl | rfl <;> cases i <;> simp

/-- Settles O58: a changed register stands in the instruction's row of the table. -/
theorem registerWriters : Obligations.RegisterWriters := by
  intro i s t h
  have row := fun p => (exec_writes h).mem_writtenParts (p := p)
  refine ⟨fun hne => ?_, fun hne => ?_, fun hne => ?_, fun hne => ?_⟩
  · have ha := row .a (by simp) hne
    revert ha
    cases i <;> simp
  · have hb := row .b (by simp) hne
    revert hb
    cases i <;> simp
  · have hx := row .x (by simp) hne
    revert hx
    cases i <;> simp
  · have hy := row .y (by simp) hne
    revert hy
    cases i <;> simp

/-- Settles O59: no row names U, I or F; H changes by the row of HALT or by an abort; and a changed arithmetic flag stands
in the instruction's row. -/
theorem flagWriters : Obligations.FlagWriters := by
  intro i s t h
  have w := exec_writes h
  have row := fun p => w.mem_writtenParts (p := p)
  have reserved : ∀ p ∈ [Part.u, .i, .f], p ∉ writtenParts i := fun p hp =>
    not_mem_writtenParts (List.mem_append_left [.callSp] hp) i
  refine ⟨w.same (p := .u) (by simp) (reserved _ (by simp)), w.same (p := .i) (by simp) (reserved _ (by simp)),
    w.same (p := .f) (by simp) (reserved _ (by simp)), fun hne => ?_, fun hne => ?_, fun hne => ?_, fun hne => ?_,
    fun hne => ?_⟩
  · rcases w.of_changed (p := .h) hne with hh | ⟨-, hrun⟩ | ⟨hh, -⟩ | ⟨hh, -⟩
    · left
      revert hh
      cases i <;> simp
    · exact .inr hrun
    · simp at hh
    · cases hh
  · have hv := row .v (by simp) hne
    revert hv
    cases i <;> simp
  · have hn := row .n (by simp) hne
    revert hn
    cases i <;> simp
  · have hc := row .c (by simp) hne
    revert hc
    cases i <;> simp
  · have hz := row .z (by simp) hne
    revert hz
    cases i <;> simp

/-- Settles O60: the table for SP, the heap list and the output; CALL_SP stands in no row, so it moves by a return address
pushed or popped; and memory changes by the row or by that push. -/
theorem stackHeapAndMemoryWriters : Obligations.StackHeapAndMemoryWriters := by
  intro i s t h
  have w := exec_writes h
  have row := fun p => w.mem_writtenParts (p := p)
  refine ⟨fun hne => ?_, fun hne => ?_, fun hne => ?_, fun hne => ?_⟩
  · have hsp := row .sp (by simp) hne
    revert hsp
    cases i <;> simp
  · rcases w.of_changed (p := .callSp) hne with hp | ⟨hp, -⟩ | ⟨-, lower, who⟩ | ⟨-, rts, higher⟩
    · exact absurd hp (not_mem_writtenParts (by simp) i)
    · cases hp
    · exact .inr ⟨lower, who⟩
    · exact .inl ⟨rts, higher⟩
  · have hsys : .heap ∈ writtenParts i ∨ .out ∈ writtenParts i := hne.imp (row .heap (by simp)) (row .out (by simp))
    revert hsys
    cases i <;> simp
  · rcases w.of_changed (p := .mem) hne with hm | ⟨hm, -⟩ | ⟨-, lower, -⟩ | ⟨hm, -⟩
    · right
      revert hm
      cases i <;> simp
    · cases hm
    · exact .inl lower
    · cases hm

end Sys2Proof.Machine
end

section
/-! Memory as the guest, the fetch and a step see it (R65 to R69, R77): guest accesses, fetches that run into the end of
the program region, and what no effect can write. -/

namespace Sys2Proof.Machine

/-! ## Guest accesses -/

theorem hiByte_toNat (v : Word) : (hiByte v).toNat = v.toNat / 256 := by
  have hv := v.isLt
  simp only [hiByte, BitVec.toNat_ofNat]
  omega

theorem loByte_toNat (v : Word) : (loByte v).toNat = v.toNat % 256 := BitVec.toNat_ofNat ..

theorem Memory.toNat_value_byte (m : Memory) (a : Nat) : (m.value a .byte).toNat = (m.read a).toNat :=
  BitVec.toNat_setWidth_of_le (by decide)

/-- Settles O17: an access is the value or the store at the address when its range is the guest's, and Segmentation
otherwise; the rest is what a stored value reads as. -/
theorem guestAccessRules : Obligations.GuestAccessRules := by
  refine ⟨fun a m g => memRead_ok m g, fun a m g => ⟨_, memRead_ok m g, m.toNat_value_byte a⟩,
    fun a v m g => ⟨_, memWrite_ok v m g, ?hi, ?lo, fun x hx => m.read_setValue_outside v .word hx⟩,
    fun a v m g => ⟨_, memWrite_ok v m g, ?byte, fun x hx => m.read_setValue_outside v .byte hx⟩,
    fun w a v m g => ⟨memRead_error m g, memWrite_error v m g⟩⟩
  case hi => rw [Memory.read_setValue_hi, hiByte_toNat]
  case lo => rw [Memory.read_setValue_lo, loByte_toNat]
  case byte => rw [Memory.read_setValue_byte, loByte_toNat]

/-! ## Fetching up to the end of the program region -/

/-- R69: a fetch inside the program region reads the byte and goes on. -/
theorem fetchBytes_succ {p : Word} (m : Memory) (n : Nat) (h : Claims.programByte p.toNat) :
    fetchBytes m (n + 1) p = m.read p.toNat :: fetchBytes m n (p + 1) := by
  simp only [fetchBytes, progFetch, if_pos ((inProgram_iff _).2 h)]

/-- R69: a fetch outside the program region reads nothing. -/
theorem fetchBytes_outside {p : Word} (m : Memory) (n : Nat) (h : ¬ Claims.programByte p.toNat) :
    fetchBytes m n p = [] := by
  cases n with
  | zero => rfl
  | succ n => simp only [fetchBytes, progFetch, if_neg (mt (inProgram_iff _).1 h)]

/-- R69: a fetch that runs into the end of the program region gives the bytes up to it. -/
theorem fetchBytes_to_end {p : Word} (m : Memory) {n k : Nat} (hp : 0x2600 ≤ p.toNat) (hk : k ≤ n)
    (hend : p.toNat + k = 0xF000) : fetchBytes m n p = m.readBytes p.toNat k := by
  induction k generalizing n p with
  | zero => exact fetchBytes_outside m n (by unfold Claims.programByte; omega)
  | succ k ih =>
    obtain ⟨n, rfl⟩ : ∃ j, n = j + 1 := ⟨n - 1, by omega⟩
    have hnext : (p + 1).toNat = p.toNat + 1 := by bv_omega
    rw [fetchBytes_succ m n (by unfold Claims.programByte; omega), ih (by omega) (by omega) (by omega), hnext]
    rfl

/-- R92: after a mode byte that is not a register mode, an operand needs three bytes, the mode byte among them. -/
theorem decodeOperand_truncated (c : ModeClass) (mk : Operand → Instr) {bytes : List Byte} (hlen : bytes.length < 3)
    (hmode : ∀ mb ∈ bytes.head?, mb ≠ 0x08 ∧ mb ≠ 0x09) :
    decodeOperand c mk bytes = .truncated (bytes.length + 1) := by
  have hword : ∀ mb ∈ bytes.head?, ¬ (mb == cfg.modeTag .registerA || mb == cfg.modeTag .registerB) = true :=
    fun mb hmb => by simpa [cfg, defaultModeTag] using hmode mb hmb
  match bytes with
  | [] => rfl
  | [mb] => exact if_neg (hword mb rfl)
  | [mb, hi] => exact if_neg (hword mb rfl)
  | _ :: _ :: _ :: rest =>
    simp only [List.length_cons] at hlen
    omega

/-- R280: a step with no host request is a cycle. -/
theorem step_of_executes {s : State} (h : Claims.executes s) : step s = cycle (takeRequest s) := by
  obtain ⟨hrun, hreq⟩ := h
  simp [step, hrun, hreq]

/-- R308: a cycle that lacks a byte of its instruction aborts with PC at that byte. -/
theorem cycle_truncated {s : State} {k : Nat} (h : fetchDecode s = .truncated k) :
    cycle s = .next (abort .segmentationFault (s.advance k)) := by
  simp only [cycle, h, rejected, raise_segmentation, endCycle_aborted (abort_run _ _)]

/-- R69, R308: an instruction with an operand whose bytes run into the end of the program region lacks the byte after
it. -/
theorem fetchDecode_to_end {s : State} {c : ModeClass} {mk : Operand → Instr} {k : Nat}
    (hpc : 0x2600 ≤ s.pc.toNat) (hform : opcodeForm (s.mem.read s.pc.toNat) = some (.withOperand c mk))
    (h1 : 1 ≤ k) (h3 : k ≤ 3) (hend : s.pc.toNat + k = 0xF000)
    (hmode : k = 1 ∨ (s.mem.read (s.pc.toNat + 1) ≠ 0x08 ∧ s.mem.read (s.pc.toNat + 1) ≠ 0x09)) :
    fetchDecode s = .truncated k := by
  obtain ⟨j, rfl⟩ : ∃ j, k = j + 1 := ⟨k - 1, by omega⟩
  have hhead : ∀ mb ∈ (s.mem.readBytes (s.pc.toNat + 1) j).head?, mb ≠ 0x08 ∧ mb ≠ 0x09 := by
    cases j with
    | zero => simp [Memory.readBytes]
    | succ j => simpa [Memory.readBytes] using hmode
  rw [fetchDecode, fetchBytes_to_end s.mem hpc (by omega) hend, Memory.readBytes, decode_withOperand hform,
    decodeOperand_truncated c mk (by rw [Memory.length_readBytes]; omega) hhead, Memory.length_readBytes]

/-- Settles O10: the bytes fetched are none, or those up to the end of the region, so the decoder lacks the byte at PC
or the byte past the end, and the cycle aborts there. -/
theorem fetchOutsideTheImageAborts : Obligations.FetchOutsideTheImageAborts := by
  refine ⟨fun s he hpc => ?_, fun kind s => rfl, fun s c mk k he hpc hform h1 h3 hend hmode => ?_⟩
  · have hd : fetchDecode (takeRequest s) = .truncated 0 := congrArg decode (fetchBytes_outside s.mem 4 hpc)
    rw [step_of_executes he, cycle_truncated hd]
    simp [abort, State.advance, takeRequest]
  · have hd : fetchDecode (takeRequest s) = .truncated k := fetchDecode_to_end hpc.1 hform h1 h3 hend hmode
    have hstop : s.pc + BitVec.ofNat 16 k = 0xF000 := by bv_omega
    rw [step_of_executes he, cycle_truncated hd]
    simp only [abort, State.advance, takeRequest, hstop]

/-! ## What no effect can write -/

/-- R65: a byte the guest may not touch lies outside every range it may. -/
theorem outside_of_guestRange {a n x : Nat} (g : Claims.guestRange a n) (hx : ¬ Claims.guestByte x) :
    x < a ∨ a + n ≤ x := by
  by_contra h
  have hin := g (x - a) (by omega)
  rw [show a + (x - a) = x by omega] at hin
  exact hx hin

theorem Memory.read_pushedMemory_other (m : Memory) {ptr : Word} (v : Word) {x : Nat}
    (h : x < ptr.toNat - 1 ∨ ptr.toNat < x) : (pushedMemory m ptr v).read x = m.read x := by
  rw [pushedMemory, Memory.read_write_other _ _ (by omega), Memory.read_write_other _ _ (by omega)]

/-- R65, R253, R266: a byte the guest may not touch changes only where an effect pushes a return address. The data stack
and the heap lie among the guest's bytes. -/
theorem Effect.read_eq_or_pushedCall {i : Instr} {s t : State} {x : Nat} (hi : Invariant s) (e : Effect i s t)
    (hx : ¬ Claims.guestByte x) :
    t.mem.read x = s.mem.read x
      ∨ (t.callSp = s.callSp - 2 ∧ ∃ v, t.mem = pushedMemory s.mem s.callSp v) := by
  have low : x < 0x0002 ∨ 0x23FF < x := by
    unfold Claims.guestByte at hx
    omega
  cases e with
  | quiet q => exact .inl (by rw [q.mem])
  | halt => exact .inl rfl
  | stored ea v w g q =>
    left
    rw [q.mem]
    exact Memory.read_setValue_outside _ _ _ (outside_of_guestRange g hx)
  | pushed v room q =>
    left
    obtain ⟨-, hsp, -⟩ := legalSp_iff.1 hi.sp
    rw [q.mem]
    exact Memory.read_pushedMemory_other _ _ (by omega)
  | pulled room q => exact .inl (by rw [q.mem])
  | called op jsr v room q => exact .inr ⟨q.callSp, v, q.mem⟩
  | trapped target v handler pc room q => exact .inr ⟨q.callSp, v, q.mem⟩
  | returned rts room q => exact .inl (by rw [q.mem])
  | line a bytes g q =>
    left
    have hout := outside_of_guestRange g hx
    rw [q.mem, Memory.read_writeBytes, if_neg (by omega)]
  | printed event q => exact .inl (by rw [q.mem])
  | heap h ok q => exact .inl (by rw [q.mem])
  | moved h dst src n ok q =>
    left
    obtain ⟨-, hlo, hup⟩ := ok hi.heap
    simp only [cfg] at hlo hup
    rw [q.mem]
    exact Memory.read_copy_outside _ _ _ _ (by omega)
  | aborted kind f => exact .inl (by rw [abort_mem, f.quiet.mem])

/-- R77: the program region is closed to the guest and apart from the call stack. -/
theorem Effect.read_programByte {i : Instr} {s t : State} {a : Nat} (hi : Invariant s) (e : Effect i s t)
    (ha : Claims.programByte a) : t.mem.read a = s.mem.read a := by
  obtain ⟨hlo, hup⟩ := ha
  have hclosed : ¬ Claims.guestByte a := by
    unfold Claims.guestByte
    omega
  rcases e.read_eq_or_pushedCall hi hclosed with h | ⟨-, v, h⟩
  · exact h
  · obtain ⟨-, htop, -⟩ := legalCallSp_iff.1 hi.callSp
    rw [h]
    exact Memory.read_pushedMemory_other _ _ (by omega)

/-- Settles O55: a Kill and a Reset write no memory, and a cycle is one of the thirteen effects and its end. -/
theorem programImageNeverChanges : Obligations.ProgramImageNeverChanges := by
  intro s t a hi h ha
  obtain ⟨-, ⟨-, rfl⟩ | ⟨-, -, rfl⟩ | ⟨-, -, hc⟩⟩ := step_cases h
  · rfl
  · rfl
  · obtain ⟨i, u, e, rfl⟩ := cycle_effect hc
    rw [endCycle_mem, e.read_programByte hi.takeRequest ha, takeRequest_mem]

end Sys2Proof.Machine
end

section
/-! The encoding (R90 to R103): what an opcode byte and a mode byte say, the two round trips between instructions and their
bytes, the steps on bytes that are no instruction, and the meaning of an operand outside its class. -/

namespace Sys2Proof

/-! ## The opcode map -/

/-- An instruction without an operand is what its opcode announces. -/
theorem Instr.opcode_form_of_form_none {i : Instr} (h : i.form = none) : i.opcode.form = .implied i := by
  cases i <;> cases h <;> rfl

/-- An instruction with an operand is what its opcode announces, applied to the operand. -/
theorem Instr.opcode_form_of_form_some {i : Instr} {c : ModeClass} {op : Operand} (h : i.form = some (c, op)) :
    ∃ mk, i.opcode.form = .withOperand c mk ∧ mk op = i := by
  cases i <;> cases h <;> exact ⟨_, rfl, rfl⟩

/-- What an opcode announces has that opcode, and no operand if the opcode announces none. -/
theorem Opcode.of_form_implied {o : Opcode} {i : Instr} (h : o.form = .implied i) :
    i.form = none ∧ i.opcode = o := by
  cases o <;> cases h <;> exact ⟨rfl, rfl⟩

/-- What an opcode announces has that opcode, and the operand it is applied to. -/
theorem Opcode.of_form_withOperand {o : Opcode} {c : ModeClass} {mk : Operand → Instr}
    (h : o.form = .withOperand c mk) (op : Operand) : (mk op).form = some (c, op) ∧ (mk op).opcode = o := by
  cases o <;> cases h <;> exact ⟨rfl, rfl⟩

/-- R100: a byte that announces something is an opcode's. -/
theorem opcodeForm_some {b : Byte} {f : OpcodeForm} (h : opcodeForm b = some f) :
    ∃ o, cfg.opcodeByte o = b ∧ o.form = f := by
  obtain ⟨o, ho, hf⟩ := Option.map_eq_some_iff.1 h
  exact ⟨o, opcodeByte_of_opcodeOf ho, hf⟩

/-- R101: a byte announces nothing when it is no opcode's. -/
theorem opcodeForm_none_iff {b : Byte} : opcodeForm b = none ↔ ∀ o, cfg.opcodeByte o ≠ b := by
  simp [opcodeForm, opcodeOf, Opcode.mem_all]

/-- R100, R101: no opcode's byte is in the list of unassigned ones. -/
theorem opcodeByte_not_unassigned (o : Opcode) : ¬ Claims.unassignedOpcode (cfg.opcodeByte o).toNat := by
  unfold Claims.unassignedOpcode
  cases o <;> decide

/-- R100, R101: the list of unassigned bytes leaves out only opcodes' bytes. -/
theorem unassignedOpcode_of_ne {n : Nat} (h : ∀ o, (cfg.opcodeByte o).toNat ≠ n) (hn : n < 256) :
    Claims.unassignedOpcode n := by
  have hall : Opcode.all.Forall (fun o => (cfg.opcodeByte o).toNat ≠ n) :=
    List.forall_iff_forall_mem.2 fun o _ => h o
  simp only [Opcode.all, List.Forall, cfg, defaultOpcodeByte, BitVec.reduceToNat] at hall
  unfold Claims.unassignedOpcode
  omega

/-- R101: the bytes that announce nothing are the listed ones. -/
theorem opcodeForm_none_iff_unassigned {b : Byte} : opcodeForm b = none ↔ Claims.unassignedOpcode b.toNat := by
  rw [opcodeForm_none_iff]
  constructor
  · exact fun h => unassignedOpcode_of_ne (fun o ho => h o (BitVec.eq_of_toNat_eq ho)) b.isLt
  · rintro hu o rfl
    exact opcodeByte_not_unassigned o hu

theorem decodeOperand_ne_unknownOpcode (c : ModeClass) (mk : Operand → Instr) (bytes : List Byte) :
    decodeOperand c mk bytes ≠ .unknownOpcode := by
  have hclassify : ∀ mb w n, classify c mk mb w n ≠ .unknownOpcode := by
    intro mb w n
    unfold classify
    split
    · nofun
    · split <;> nofun
  unfold decodeOperand
  split
  · nofun
  · split
    · exact hclassify _ _ _
    · split
      · nofun
      · nofun
      · exact hclassify _ _ _

/-- R101: the opcode byte alone decides whether the decoder knows the instruction. -/
theorem decode_unknownOpcode_iff {b : Byte} {rest : List Byte} :
    decode (b :: rest) = .unknownOpcode ↔ opcodeForm b = none := by
  cases hf : opcodeForm b with
  | none => simp [decode, hf]
  | some f =>
    cases f with
    | implied i => simp [decode_implied hf]
    | withOperand c mk => simp [decode_withOperand hf, decodeOperand_ne_unknownOpcode]

/-! ## The mode byte -/

/-- R91: the bytes of the two register modes, which no operand word follows. -/
abbrev isRegisterMode (mb : Byte) : Bool := mb == cfg.modeTag .registerA || mb == cfg.modeTag .registerB

/-- R96: a value that names a tag is that tag's. -/
theorem modeTag_of_tagOf {n : Nat} {t : ModeTag} (h : tagOf n = some t) : (cfg.modeTag t).toNat = n := by
  simpa using List.find?_some h

/-- R97: a legal mode byte is the value of its tag, with the short base added in a short form. -/
theorem tag_of_decodeMode {mb : Byte} {w : Word} {op : Operand} (h : decodeMode mb w = some op) :
    ∃ (t : ModeTag) (short : Bool), short = decide (0x10 ≤ mb.toNat)
      ∧ (cfg.modeTag t).toNat = (if short then mb.toNat - 0x10 else mb.toNat) ∧ t.operand short w = some op := by
  obtain ⟨t, ht, hop⟩ := Option.bind_eq_some_iff.1 h
  exact ⟨t, _, rfl, modeTag_of_tagOf ht, hop⟩

/-- R92, R96, R97: an operand is encoded by the mode byte and the operand word it is decoded from, the word left out in a
register mode. -/
theorem encode_of_decodeMode {mb : Byte} {w : Word} {op : Operand} (h : decodeMode mb w = some op) :
    op.encode = mb :: if isRegisterMode mb then [] else [hiByte w, loByte w] := by
  obtain ⟨t, short, hshort, ht, hop⟩ := tag_of_decodeMode h
  cases short with
  | true =>
    have hle : 0x10 ≤ mb.toNat := of_decide_eq_true hshort.symm
    obtain rfl : mb = BitVec.ofNat 8 (cfg.shortBase + (cfg.modeTag t).toNat) := by
      rw [ht, show cfg.shortBase = 0x10 from rfl]
      simp [Nat.add_sub_cancel' hle]
    cases t with
    | immediate => cases hop
    | registerA => cases hop
    | registerB => cases hop
    | memory m => cases hop; cases m <;> rfl
  | false =>
    obtain rfl : mb = cfg.modeTag t := BitVec.eq_of_toNat_eq ht.symm
    cases t with
    | immediate => cases hop; rfl
    | registerA => cases hop; rfl
    | registerB => cases hop; rfl
    | memory m => cases hop; cases m <;> rfl

/-- R97: the seventeen legal mode bytes. -/
abbrev legalModeBytes : List Nat :=
  [0x00, 0x01, 0x02, 0x03, 0x04, 0x05, 0x06, 0x07, 0x08, 0x09, 0x10, 0x11, 0x12, 0x14, 0x15, 0x16, 0x17]

/-- R97: an operand's own mode byte is legal. -/
theorem Operand.mode_mem_legalModeBytes {op : Operand} {mb : Byte} {bytes : List Byte}
    (h : op.encode = mb :: bytes) : mb.toNat ∈ legalModeBytes := by
  cases op with
  | immediate v => cases h; decide
  | registerA => cases h; decide
  | registerB => cases h; decide
  | memory m short addr => cases h; cases m <;> cases short <;> decide

theorem decodeMode_ne_none_iff (mb : Byte) (w : Word) : decodeMode mb w ≠ none ↔ mb.toNat ∈ legalModeBytes := by
  constructor
  · intro h
    obtain ⟨op, hop⟩ := Option.ne_none_iff_exists'.1 h
    exact Operand.mode_mem_legalModeBytes (encode_of_decodeMode hop)
  · intro h
    have hlegal : legalModeBytes.all (fun n => (decodeMode (BitVec.ofNat 8 n) w).isSome) = true := rfl
    have hmb := List.all_eq_true.1 hlegal _ h
    rw [BitVec.ofNat_toNat, BitVec.setWidth_eq] at hmb
    exact Option.isSome_iff_ne_none.1 hmb

/-- R97: a memory operand has the operand word as its address, and the short flag and the tag of its mode byte. -/
theorem decodeMode_memory {mb : Byte} {w addr : Word} {m : MemMode} {short : Bool}
    (h : decodeMode mb w = some (.memory m short addr)) :
    addr = w ∧ short = decide (0x10 ≤ mb.toNat)
      ∧ (cfg.modeTag (.memory m)).toNat = if short then mb.toNat - 0x10 else mb.toNat := by
  obtain ⟨t, short', hshort, ht, hop⟩ := tag_of_decodeMode h
  cases t with
  | immediate => cases short' <;> cases hop
  | registerA => cases short' <;> cases hop
  | registerB => cases short' <;> cases hop
  | memory m' => cases hop; exact ⟨rfl, hshort, ht⟩

/-- Settles O5: a legal mode byte is the first byte of its operand's encoding; the rest evaluates the mode map. -/
theorem seventeenModeBytesAreLegal : Obligations.SeventeenModeBytesAreLegal := by
  refine ⟨decodeMode_ne_none_iff, fun mb w m short addr h => decodeMode_memory h, fun w => ?_⟩
  exact ⟨rfl, rfl, rfl, rfl, rfl, rfl, rfl, rfl, rfl, rfl, rfl, rfl, rfl, rfl, rfl, rfl, rfl⟩

/-! ## The two round trips -/

/-- Settles O2: an instruction has no operand or one, and its opcode announces which. -/
theorem decodeOfEncodeIsIdentity : Obligations.DecodeOfEncodeIsIdentity := by
  intro i rest hw
  rw [length_encode]
  cases hf : i.form with
  | none => exact Laws.RoundTrip.of_implied hf (Instr.opcode_form_of_form_none hf) hw rest
  | some p =>
    obtain ⟨mk, hc, hi⟩ := Instr.opcode_form_of_form_some (c := p.1) (op := p.2) hf
    exact Laws.RoundTrip.of_operand hf hc hi hw rest

theorem decodeOperand_register {mb : Byte} (h : isRegisterMode mb = true) (c : ModeClass) (mk : Operand → Instr)
    (rest : List Byte) : decodeOperand c mk (mb :: rest) = classify c mk mb 0 2 := if_pos h

theorem decodeOperand_word {mb : Byte} (h : ¬ isRegisterMode mb = true) (c : ModeClass) (mk : Operand → Instr)
    (hi lo : Byte) (rest : List Byte) : decodeOperand c mk (mb :: hi :: lo :: rest) = classify c mk mb (hi ++ lo) 4 :=
  if_neg h

/-- R102: a mode byte is accepted when it decodes to an operand of the class. -/
theorem classify_instr {c : ModeClass} {mk : Operand → Instr} {mb : Byte} {w : Word} {k n : Nat} {i : Instr}
    (h : classify c mk mb w k = .instr i n) :
    ∃ op, decodeMode mb w = some op ∧ op.inClass c = true ∧ i = mk op ∧ n = k := by
  unfold classify at h
  split at h
  · cases h
  · next op hop =>
    split at h
    · next hc => cases h; exact ⟨op, hop, hc, rfl, rfl⟩
    · cases h

theorem hiByte_append (hi lo : Byte) : hiByte (hi ++ lo) = hi := by
  have hlo := lo.isLt
  apply BitVec.eq_of_toNat_eq
  rw [Machine.hiByte_toNat, BitVec.toNat_append, ← Nat.shiftLeft_add_eq_or_of_lt hlo, Nat.shiftLeft_eq]
  omega

theorem loByte_append (hi lo : Byte) : loByte (hi ++ lo) = lo := by
  have hlo := lo.isLt
  apply BitVec.eq_of_toNat_eq
  rw [Machine.loByte_toNat, BitVec.toNat_append, ← Nat.shiftLeft_add_eq_or_of_lt hlo, Nat.shiftLeft_eq]
  omega

/-- R91, R102: an operand that decodes is of the class, and its encoding comes first in the bytes. -/
theorem decodeOperand_instr {c : ModeClass} {mk : Operand → Instr} {bytes : List Byte} {i : Instr} {n : Nat}
    (h : decodeOperand c mk bytes = .instr i n) :
    ∃ op, op.inClass c = true ∧ i = mk op ∧ n = op.encode.length + 1 ∧ op.encode <+: bytes := by
  match bytes with
  | [] => cases h
  | mb :: rest =>
    by_cases hmb : isRegisterMode mb = true
    · rw [decodeOperand_register hmb] at h
      obtain ⟨op, hop, hc, rfl, rfl⟩ := classify_instr h
      have henc : op.encode = [mb] := by rw [encode_of_decodeMode hop, if_pos hmb]
      exact ⟨op, hc, rfl, by rw [henc]; rfl, rest, by rw [henc]; rfl⟩
    · match rest with
      | [] => rw [decodeOperand, if_neg hmb] at h; cases h
      | [_] => rw [decodeOperand, if_neg hmb] at h; cases h
      | hi :: lo :: rest =>
        rw [decodeOperand_word hmb] at h
        obtain ⟨op, hop, hc, rfl, rfl⟩ := classify_instr h
        have henc : op.encode = [mb, hi, lo] := by
          rw [encode_of_decodeMode hop, if_neg hmb, hiByte_append, loByte_append]
        exact ⟨op, hc, rfl, by rw [henc]; rfl, rest, by rw [henc]; rfl⟩

/-- R91, R102: an instruction that decodes is well formed, and its encoding comes first in the bytes. -/
theorem decode_instr {bytes : List Byte} {i : Instr} {n : Nat} (h : decode bytes = .instr i n) :
    i.wellFormed = true ∧ (encode i).length = n ∧ encode i <+: bytes := by
  cases bytes with
  | nil => cases h
  | cons b rest =>
    cases hf : opcodeForm b with
    | none => rw [decode_unknownOpcode_iff.2 hf] at h; cases h
    | some f =>
      obtain ⟨o, rfl, ho⟩ := opcodeForm_some hf
      cases f with
      | implied j =>
        rw [decode_implied hf] at h
        cases h
        obtain ⟨hform, hopc⟩ := Opcode.of_form_implied ho
        have henc : encode i = [cfg.opcodeByte o] := by simp [encode, hform, hopc]
        exact ⟨by simp [Instr.wellFormed, hform], by rw [henc]; rfl, rest, by rw [henc]; rfl⟩
      | withOperand c mk =>
        rw [decode_withOperand hf] at h
        obtain ⟨op, hc, rfl, rfl, hpre⟩ := decodeOperand_instr h
        obtain ⟨hform, hopc⟩ := Opcode.of_form_withOperand ho op
        have henc : encode (mk op) = cfg.opcodeByte o :: op.encode := by simp [encode, hform, hopc]
        exact ⟨by simpa [Instr.wellFormed, hform] using hc, by rw [henc]; rfl, by
          rw [henc]; exact List.cons_prefix_cons.2 ⟨rfl, hpre⟩⟩

/-- Settles O3: the encoding is a prefix of the bytes, of the length the decoder answers. -/
theorem encodeOfDecodeIsIdentity : Obligations.EncodeOfDecodeIsIdentity := by
  intro bytes i n h
  obtain ⟨hw, rfl, hpre⟩ := decode_instr h
  exact ⟨hw, rfl, (List.prefix_iff_eq_take.1 hpre).symm⟩

/-! ## Written-out words -/

/-- One-byte instructions decode from a table of their opcode bytes. -/
theorem decode_implied_of_table {table : List (Byte × Instr)}
    (h : table.map (fun p => opcodeForm p.1) = table.map (fun p => some (.implied p.2))) :
    ∀ b i, (b, i) ∈ table → decode [b] = .instr i 1 :=
  fun b i hb => decode_implied (List.map_inj_left.1 h (b, i) hb) []

/-- Class-L instructions with an immediate operand decode from a table of their opcode bytes. -/
theorem decode_immediate_of_table {table : List (Byte × (Operand → Instr))}
    (h : table.map (fun p => opcodeForm p.1) = table.map (fun p => some (.withOperand .value p.2))) :
    ∀ b mk (hi lo : Byte), (b, mk) ∈ table → decode [b, 0x03, hi, lo] = .instr (mk (.immediate (hi ++ lo))) 4 :=
  fun b mk hi lo hb => decode_withOperand (List.map_inj_left.1 h (b, mk) hb) [0x03, hi, lo]

/-- Instructions of a class that accepts absolute mode decode with it from a table of their opcode bytes. -/
theorem decode_absolute_of_table {c : ModeClass} {table : List (Byte × (Operand → Instr))}
    (hc : ∀ w, (Operand.memory .absolute false w).inClass c = true)
    (h : table.map (fun p => opcodeForm p.1) = table.map (fun p => some (.withOperand c p.2))) :
    ∀ b mk (hi lo : Byte), (b, mk) ∈ table →
      decode [b, 0x00, hi, lo] = .instr (mk (.memory .absolute false (hi ++ lo))) 4 :=
  fun b mk hi lo hb => (decode_withOperand (List.map_inj_left.1 h (b, mk) hb) [0x00, hi, lo]).trans
    (if_pos (hc (hi ++ lo)))

/-- Settles O1: each table is the opcode map's on its bytes, and the written-out words evaluate. -/
theorem sampleWordsDecode : Obligations.SampleWordsDecode :=
  ⟨decode_implied_of_table rfl, decode_immediate_of_table rfl,
    decode_absolute_of_table (c := .destination) (fun _ => rfl) rfl,
    decode_absolute_of_table (c := .readModifyWrite) (fun _ => rfl) rfl,
    decode_absolute_of_table (c := .target) (fun _ => rfl) rfl, by decide⟩

end Sys2Proof

namespace Sys2Proof.Machine

/-! ## Bytes that are no instruction -/

/-- R69: a fetch whose bytes all lie in the program region reads them. -/
theorem fetchBytes_of_programByte {p : Word} (m : Memory) {n : Nat}
    (h : ∀ k, k < n → Claims.programByte (p.toNat + k)) : fetchBytes m n p = m.readBytes p.toNat n := by
  induction n generalizing p with
  | zero => rfl
  | succ n ih =>
    have h0 := h 0 (by omega)
    have hnext : (p + 1).toNat = p.toNat + 1 := by
      unfold Claims.programByte at h0
      bv_omega
    rw [fetchBytes_succ m n h0, Memory.readBytes, ← hnext]
    congr 1
    exact ih fun k hk => by
      rw [hnext, Nat.add_assoc, Nat.add_comm 1 k]
      exact h (k + 1) (by omega)

/-- R101: a cycle on an unassigned opcode raises the signal with PC at the opcode. -/
theorem cycle_unknownOpcode {s : State} (h : fetchDecode s = .unknownOpcode) :
    cycle s = .next (endCycle (raise .illegalInstruction s)) := by
  simp only [cycle, h, rejected]

/-- Settles O4: the opcode map leaves out exactly the listed bytes, and the cycle on one of them raises the signal. -/
theorem unassignedOpcodesAreIllegal : Obligations.UnassignedOpcodesAreIllegal := by
  refine ⟨fun b rest => decode_unknownOpcode_iff.trans opcodeForm_none_iff_unassigned, fun s he hpc hu => ?_⟩
  rw [step_of_executes he]
  refine cycle_unknownOpcode ?_
  rw [fetchDecode, takeRequest_mem, takeRequest_pc, fetchBytes_succ _ 3 hpc]
  exact decode_unknownOpcode_iff.2 (opcodeForm_none_iff_unassigned.2 hu)

/-- R102: a mode byte that decodes to no operand of the class is rejected, as illegal or as an illegal combination. -/
theorem classify_rejects {c : ModeClass} {mb : Byte} {w : Word}
    (h : ∀ op, decodeMode mb w = some op → op.inClass c = false) (mk : Operand → Instr) (n : Nat) :
    classify c mk mb w n = .illegalMode n ∨ classify c mk mb w n = .illegalCombination n := by
  unfold classify
  cases hd : decodeMode mb w with
  | none => exact .inl rfl
  | some op => exact .inr (by simp [h op hd])

/-- R102: a cycle on a rejected mode byte raises the signal with PC at the last byte consumed. -/
theorem cycle_illegal {s : State} {n : Nat}
    (h : fetchDecode s = .illegalMode n ∨ fetchDecode s = .illegalCombination n) :
    cycle s = .next (endCycle (raise .illegalInstruction (s.advance (n - 1)))) := by
  rcases h with h | h <;> simp only [cycle, h, rejected]

/-- Settles O6: the fetch reads all four bytes, and the decoder rejects the mode byte after the bytes it consumes. -/
theorem illegalModeBytesRaise : Obligations.IllegalModeBytesRaise := by
  intro s c mk he hpc hform hmode
  have hd : fetchDecode (takeRequest s) = decodeOperand c mk (s.mem.readBytes (s.pc.toNat + 1) 3) := by
    rw [fetchDecode, takeRequest_mem, takeRequest_pc, fetchBytes_of_programByte _ hpc]
    exact decode_withOperand hform _
  rw [step_of_executes he]
  by_cases hreg : isRegisterMode (s.mem.read (s.pc.toNat + 1)) = true
  · have hmb : s.mem.read (s.pc.toNat + 1) = 0x08 ∨ s.mem.read (s.pc.toNat + 1) = 0x09 := by
      simpa [isRegisterMode, cfg, defaultModeTag] using hreg
    rw [if_pos hmb]
    refine cycle_illegal (n := 2) ?_
    rw [hd, Memory.readBytes, decodeOperand_register hreg]
    exact classify_rejects (hmode 0) mk 2
  · have hmb : ¬ (s.mem.read (s.pc.toNat + 1) = 0x08 ∨ s.mem.read (s.pc.toNat + 1) = 0x09) := by
      simpa [isRegisterMode, cfg, defaultModeTag] using hreg
    rw [if_neg hmb]
    refine cycle_illegal (n := 4) ?_
    rw [hd]
    simp only [Memory.readBytes]
    rw [decodeOperand_word hreg]
    exact classify_rejects (hmode _) mk 4

/-! ## Operands outside the class -/

section
variable {i : Instr} {op : Operand} {s : State} {sg : Signal}

/-- R124, R128: a class-L instruction raises the signal of an operand that does not resolve. -/
theorem exec_of_resolveLoad_error (hf : i.form = some (.value, op)) (h : resolveLoad op (consume op s) = .error sg) :
    exec i s = .next (raise sg (consume op s)) := by
  cases i <;> cases hf <;> exact orRaise_error h _ _

/-- R125, R128: and so does a class-S instruction. -/
theorem exec_of_resolveStore_error (hf : i.form = some (.destination, op))
    (h : ∀ v, resolveStore v op (consume op s) = .error sg) : exec i s = .next (raise sg (consume op s)) := by
  cases i <;> cases hf <;> exact orRaise_error (h _) _ _

/-- R126, R128: and so does a class-M instruction. -/
theorem exec_of_resolveLocation_error (hf : i.form = some (.readModifyWrite, op))
    (h : resolveLocation op (consume op s) = .error sg) : exec i s = .next (raise sg (consume op s)) := by
  cases i <;> cases hf <;> exact orRaise_error h _ _

/-- R127, R128: and so does a class-T instruction. -/
theorem exec_of_resolveTarget_error (hf : i.form = some (.target, op)) (h : resolveTarget op = .error sg) :
    exec i s = .next (raise sg (consume op s)) := by
  cases i <;> cases hf <;> exact orRaise_error h _ _

end

/-- R124: class L leaves out register A. -/
theorem resolveLoad_outside_class {op : Operand} (h : op.inClass .value = false) (s : State) :
    resolveLoad op s = .error .illegalInstruction := by
  cases op with
  | registerA => rfl
  | immediate v => cases h
  | registerB => cases h
  | memory m short addr => cases h

/-- R125: class S leaves out the immediate form and register A. -/
theorem resolveStore_outside_class {op : Operand} (h : op.inClass .destination = false) (v : Word) (s : State) :
    resolveStore v op s = .error .illegalInstruction := by
  cases op with
  | immediate w => rfl
  | registerA => rfl
  | registerB => cases h
  | memory m short addr => cases h

/-- R126: class M leaves out the immediate and the short forms. -/
theorem resolveLocation_outside_class {op : Operand} (h : op.inClass .readModifyWrite = false) (s : State) :
    resolveLocation op s = .error .illegalInstruction := by
  cases op with
  | immediate w => rfl
  | registerA => cases h
  | registerB => cases h
  | memory m short addr =>
    cases short with
    | true => rfl
    | false => cases h

/-- R127: class T leaves out all but the full-word absolute form. -/
theorem resolveTarget_outside_class {op : Operand} (h : op.inClass .target = false) :
    resolveTarget op = .error .illegalInstruction := by
  cases hr : resolveTarget op with
  | error sg => rw [resolveTarget_error hr]
  | ok t =>
    obtain rfl := resolveTarget_ok hr
    cases h

/-- R102: whatever the class, an operand outside it raises IllegalInstruction once its bytes are consumed. -/
theorem exec_outside_class {i : Instr} {c : ModeClass} {op : Operand} (hf : i.form = some (c, op))
    (hc : op.inClass c = false) (s : State) : exec i s = .next (raise .illegalInstruction (consume op s)) := by
  cases c with
  | value => exact exec_of_resolveLoad_error hf (resolveLoad_outside_class hc _)
  | destination => exact exec_of_resolveStore_error hf fun v => resolveStore_outside_class hc v _
  | readModifyWrite => exact exec_of_resolveLocation_error hf (resolveLocation_outside_class hc _)
  | target => exact exec_of_resolveTarget_error hf (resolveTarget_outside_class hc)

/-- Settles O7: an ill-formed instruction has an operand outside its class, and its bytes are the opcode and the
operand's. -/
theorem illFormedInstructionsRaise : Obligations.IllFormedInstructionsRaise := by
  intro i s h
  cases hf : i.form with
  | none => simp [Instr.wellFormed, hf] at h
  | some p =>
    have hc : p.2.inClass p.1 = false := by simpa [Instr.wellFormed, hf] using h
    have hlen : i.length - 1 = p.2.extraBytes := by simp [Instr.length, hf]
    rw [exec_outside_class hf hc, consume_eq, hlen]

end Sys2Proof.Machine
end

section
/-! The addressing resolver (R123 to R128): the effective address of each memory tag, the value of a class-L operand, and
what a store does with a class-S operand. -/

namespace Sys2Proof.Machine

/-! ## The effective address -/

/-- R66: a word is big-endian. -/
theorem Memory.toNat_value_word (m : Memory) (a : Nat) :
    (m.value a .word).toNat = (m.read a).toNat * 256 + (m.read (a + 1)).toNat := by
  rw [Memory.value, BitVec.toNat_append, ← Nat.shiftLeft_add_eq_or_of_lt (m.read (a + 1)).isLt, Nat.shiftLeft_eq]

/-- R123: an address computed from a pointer that the guest may read. -/
theorem map_memRead_pointer {a : Nat} (m : Memory) (f : Nat → Nat) (g : Claims.guestRange a 2) :
    (memRead .word a m).map (fun p => f p.toNat)
      = .ok (f ((m.read a).toNat * 256 + (m.read (a + 1)).toNat)) := by
  rw [memRead_ok m g, Except.map, Memory.toNat_value_word]

/-- R123: no address comes from a pointer that the guest may not read. -/
theorem map_memRead_error {a : Nat} (m : Memory) (f : Word → Nat) (g : ¬ Claims.guestRange a 2) :
    (memRead .word a m).map f = .error .segmentation := by
  rw [memRead_error m g, Except.map]

/-- Settles O18: the direct tags are sums by definition; each indirect tag reads its pointer at the operand (then adds the
index) or at the indexed operand. -/
theorem effectiveAddresses : Obligations.EffectiveAddresses := by
  intro addr s
  refine ⟨rfl, rfl, rfl, fun g => ⟨?indirectIndexedX, ?indirectIndexedY⟩,
    fun g => ⟨map_memRead_error _ _ g, map_memRead_error _ _ g⟩, ?indexedIndirectX, ?indexedIndirectY,
    map_memRead_error _ _, map_memRead_error _ _⟩
  case indirectIndexedX => exact map_memRead_pointer s.mem (· + s.x.toNat) g
  case indirectIndexedY => exact map_memRead_pointer s.mem (· + s.y.toNat) g
  case indexedIndirectX => rintro q rfl g; exact map_memRead_pointer s.mem id g
  case indexedIndirectY => rintro q rfl g; exact map_memRead_pointer s.mem id g

/-! ## Memory operands -/

/-- R97: the short variants touch one byte, the others two. -/
theorem bytes_widthOf (short : Bool) : (widthOf short).bytes = if short then 1 else 2 := by
  cases short <;> rfl

section
variable {m : MemMode} {short : Bool} {addr : Word} {s : State} {ea : Nat} {sg : Signal}

/-- R124: a class-L memory operand is the guest read at its effective address. -/
theorem resolveLoad_memory (h : effectiveAddress m addr s = .ok ea) :
    resolveLoad (.memory m short addr) s = memRead (widthOf short) ea s.mem := by
  simp only [resolveLoad, h]

/-- R123, R124: the only signal of an effective address is the operand's. -/
theorem resolveLoad_memory_error (h : effectiveAddress m addr s = .error sg) :
    resolveLoad (.memory m short addr) s = .error .segmentation := by
  obtain rfl := effectiveAddress_error h
  simp only [resolveLoad, h]

/-- R125: a store to a memory operand is the guest write at its effective address. -/
theorem resolveStore_memory {v : Word} {mem' : Memory} (h : effectiveAddress m addr s = .ok ea)
    (hw : memWrite (widthOf short) ea v s.mem = .ok mem') :
    resolveStore v (.memory m short addr) s = .ok { s with mem := mem' } := by
  simp only [resolveStore, h, hw]

/-- R125: a store to an effective address that is not valid writes nothing. -/
theorem resolveStore_memory_invalid (v : Word) (h : effectiveAddress m addr s = .ok ea)
    (g : ¬ Claims.guestRange ea (widthOf short).bytes) :
    resolveStore v (.memory m short addr) s = .error .segmentation := by
  simp only [resolveStore, h, memWrite_error v s.mem g]

/-- R123, R125: and so does one without an effective address. -/
theorem resolveStore_memory_error (v : Word) (h : effectiveAddress m addr s = .error sg) :
    resolveStore v (.memory m short addr) s = .error .segmentation := by
  obtain rfl := effectiveAddress_error h
  simp only [resolveStore, h]

end

/-! ## Class-L operands -/

/-- Settles O19: the forms without an address are cases of the definition, and a memory form is the read at its effective
address, if it has one. -/
theorem loadOperandValues : Obligations.LoadOperandValues := by
  intro s
  refine ⟨fun v => rfl, rfl, rfl, fun m addr ea h g => ?word, fun m addr ea h g => ?byte,
    fun m short addr ea h g => ?invalid, fun m short addr sg h => resolveLoad_memory_error h⟩
  case word => exact (resolveLoad_memory h).trans (memRead_ok s.mem g)
  case byte => exact ⟨_, (resolveLoad_memory h).trans (memRead_ok s.mem g), s.mem.toNat_value_byte ea⟩
  case invalid =>
    rw [← bytes_widthOf] at g
    exact (resolveLoad_memory h).trans (memRead_error s.mem g)

/-- Settles O20: the operand's bytes are consumed, and resolving it does not depend on PC. -/
theorem operandFaultsComeFirst : Obligations.OperandFaultsComeFirst := by
  intro i op s sg hf h
  rw [← consume_eq]
  exact exec_of_resolveLoad_error hf ((resolveLoad_consume op op s).trans h)

/-! ## Stores -/

theorem storeOf_form (r : Reg) (op : Operand) : (Claims.storeOf r op).form = some (.destination, op) := by
  cases r <;> rfl

theorem exec_storeOf (r : Reg) (op : Operand) (s : State) : exec (Claims.storeOf r op) s = storeRegister r op s := by
  cases r <;> rfl

/-- R140, R145 to R148: a store whose operand resolves ends in the state that `ResolveStore` gives. -/
theorem exec_storeOf_ok {r : Reg} {op : Operand} {s t : State}
    (h : resolveStore (s.reg r) op (consume op s) = .ok t) : exec (Claims.storeOf r op) s = .next t :=
  (exec_storeOf r op s).trans (orRaise_ok h _ _)

/-- R125, R128: a store whose operand gives Segmentation aborts once the operand's bytes are consumed. -/
theorem exec_storeOf_segmentation {r : Reg} {op : Operand} {s : State}
    (h : ∀ v, resolveStore v op (consume op s) = .error .segmentation) :
    exec (Claims.storeOf r op) s = .next (abort .segmentationFault (Claims.pcPlus s op.extraBytes)) :=
  exec_of_resolveStore_error (storeOf_form r op) h

/-- R125: a store to a memory operand writes the register at its effective address and changes nothing else. -/
theorem exec_storeOf_memory {r : Reg} {m : MemMode} {short : Bool} {addr : Word} {s : State} {ea : Nat} {mem' : Memory}
    (h : effectiveAddress m addr s = .ok ea) (hw : memWrite (widthOf short) ea (s.reg r) s.mem = .ok mem') :
    exec (Claims.storeOf r (.memory m short addr)) s = .next { Claims.pcPlus s 3 with mem := mem' } :=
  exec_storeOf_ok (resolveStore_memory ((effectiveAddress_consume ..).trans h) hw)

/-- Settles O22: the store is the guest write at the effective address, and the rest is what a guest write does. -/
theorem storesWriteTheirAddress : Obligations.StoresWriteTheirAddress := by
  intro r m addr s ea h
  obtain ⟨-, -, write_word, write_byte, -⟩ := guestAccessRules
  refine ⟨fun g => ?word, fun g => ?byte⟩
  case word =>
    obtain ⟨mem', hw, hbytes⟩ := write_word ea (s.reg r) s.mem g
    exact ⟨mem', exec_storeOf_memory h hw, hbytes⟩
  case byte =>
    obtain ⟨mem', hw, hbytes⟩ := write_byte ea (s.reg r) s.mem g
    exact ⟨mem', exec_storeOf_memory h hw, hbytes⟩

/-- Settles O23: register B always resolves, to the state with B replaced. -/
theorem storesToRegisterB : Obligations.StoresToRegisterB := by
  intro r s
  have h : resolveStore (s.reg r) .registerB (consume .registerB s) = .ok { Claims.pcPlus s 1 with b := s.reg r } := rfl
  exact exec_storeOf_ok h

/-- Settles O24: the two illegal modes are outside class S, and a memory operand fails by its pointer or by its
destination. -/
theorem faultingStoresWriteNothing : Obligations.FaultingStoresWriteNothing := by
  intro r s
  refine ⟨fun v => exec_outside_class (storeOf_form r _) rfl s, exec_outside_class (storeOf_form r _) rfl s,
    fun m short addr ea h g => ?destination, fun m short addr sg h => ?pointer⟩
  case destination =>
    rw [← bytes_widthOf] at g
    exact exec_storeOf_segmentation fun v =>
      resolveStore_memory_invalid v ((effectiveAddress_consume ..).trans h) g
  case pointer =>
    exact exec_storeOf_segmentation fun v =>
      resolveStore_memory_error v ((effectiveAddress_consume ..).trans h)

end Sys2Proof.Machine
end

section
/-! Register loads (R140 to R144). -/

namespace Sys2Proof.Machine

/-- R31: a register write leaves everything but the four registers as it was. -/
theorem State.setReg_eq_of_registers (s : State) (r : Reg) (v : Word) :
    s.setReg r v = { s with
      a := (s.setReg r v).a, b := (s.setReg r v).b, x := (s.setReg r v).x, y := (s.setReg r v).y } := by
  cases r <;> rfl

theorem exec_loadOf (r : Reg) (op : Operand) (s : State) : exec (Claims.loadOf r op) s = loadRegister r op s := by
  cases r <;> rfl

/-- R140: a load whose operand resolves writes the value to its register, PC at the last byte. -/
theorem exec_loadOf_ok {op : Operand} {s : State} {v : Word} (r : Reg) (h : resolveLoad op s = .ok v) :
    exec (Claims.loadOf r op) s = .next ((Claims.pcPlus s op.extraBytes).setReg r v) := by
  rw [exec_loadOf, loadRegister, withValue_ok h, consume_eq]

/-- Settles O21: the load is one register write on the state with PC moved, so the rest is what a register write does. -/
theorem loadsFillTheirRegister : Obligations.LoadsFillTheirRegister := by
  intro r op s v h
  refine ⟨_, exec_loadOf_ok r h, ?written, fun q hq => ?others, State.setReg_eq_of_registers ..⟩
  case written => rw [State.reg_setReg, if_pos rfl]
  case others =>
    have moved_keeps : (Claims.pcPlus s op.extraBytes).reg q = s.reg q := by cases q <;> rfl
    rw [State.reg_setReg, if_neg hq, moved_keeps]

end Sys2Proof.Machine
end

section
/-! Integer ALU values and flags (R160 to R170): the stored results and the flags of the definitions as arithmetic of
naturals and integers, apart from the machine. -/

namespace Sys2Proof.Machine

/-! ## The sign bit -/

/-- R8: bit 15 is the sign bit. -/
theorem msb_eq_bit15 (w : Word) : w.msb = w.getLsbD 15 := w.msb_eq_getLsbD_last

/-- R9: zero has a clear sign bit, so the test for zero never decides N. -/
theorem nonzero_and_bit15 (w : Word) : (w != 0 && w.getLsbD 15) = w.getLsbD 15 := by
  by_cases h : w = 0
  · rw [h]; decide
  · rw [bne_iff_ne.2 h, Bool.true_and]

theorem toNat_pos {w : Word} (h : w ≠ 0) : 0 < w.toNat :=
  Nat.pos_of_ne_zero fun h0 => h (BitVec.eq_of_toNat_eq h0)

/-- R8: `neg16` is the negation of words. -/
theorem ofNat_two_pow_sub (w : Word) : BitVec.ofNat 16 (2 ^ 16 - w.toNat) = -w :=
  BitVec.eq_of_toNat_eq (by rw [BitVec.toNat_ofNat, BitVec.toNat_neg])

/-! ## Sum and difference -/

theorem toNat_addResult (a right : Word) (cin : Bool) :
    (addResult a right cin).toNat = (a.toNat + right.toNat + cin.toNat) % 2 ^ 16 := BitVec.toNat_ofNat ..

/-- R162: the flags of ADDCA by bit 15 of the operands and of the result. -/
theorem addFlags_eq (a right : Word) (cin : Bool) :
    addFlags a right cin =
      { n := (addResult a right cin).getLsbD 15
        v := !a.getLsbD 15 && !right.getLsbD 15 && (addResult a right cin).getLsbD 15
        z := decide (addResult a right cin = 0)
        c := decide (0xFFFF < a.toNat + right.toNat + cin.toNat) } := by
  simp only [addFlags, msb_eq_bit15, nonzero_and_bit15]
  rfl

/-- R163: the model's shifted difference exceeds the exact one by 2^16. -/
theorem subWide_eq (a right : Word) (cin : Bool) :
    (subWide a right cin : Int) = a.toNat - right.toNat - (1 - cin.toNat) + 2 ^ 16 := by
  have hright := right.isLt
  rw [subWide]
  omega

theorem toNat_subResult (a right : Word) (cin : Bool) :
    ((subResult a right cin).toNat : Int) = (a.toNat - right.toNat - (1 - cin.toNat)) % 2 ^ 16 := by
  have hwide := subWide_eq a right cin
  rw [subResult, BitVec.toNat_ofNat]
  omega

/-- R163: V and C of SUBCA by the sign of the exact difference. -/
theorem subFlags_eq (a right : Word) (cin : Bool) {d : Int} (hd : d = a.toNat - right.toNat - (1 - cin.toNat)) :
    subFlags a right cin =
      { n := (subResult a right cin).getLsbD 15
        v := decide (d < 0)
        z := decide (subResult a right cin = 0)
        c := decide (0 ≤ d) } := by
  have hwide := subWide_eq a right cin
  have borrow : subWide a right cin < 0x10000 ↔ d < 0 := by omega
  have noBorrow : 0x10000 ≤ subWide a right cin ↔ 0 ≤ d := by omega
  simp only [subFlags, msb_eq_bit15, nonzero_and_bit15, borrow, noBorrow]
  rfl

/-- R170: a sum, less the same operand, is off by the two carries and the one borrow. -/
theorem toNat_subResult_addResult (a right : Word) (c c' : Bool) :
    ((subResult (addResult a right c) right c').toNat : Int) = (a.toNat + c.toNat + c'.toNat - 1) % 2 ^ 16 := by
  rw [toNat_subResult, toNat_addResult]
  omega

/-! ## Products -/

theorem mulResult_eq (a right : Word) : mulResult a right = a * right :=
  BitVec.eq_of_toNat_eq (by rw [mulResult, BitVec.toNat_ofNat, BitVec.toNat_mul])

/-- R164: the divide-back check fails exactly for a product that needs more than 16 bits. -/
theorem mulOverflows_eq (a right : Word) : mulOverflows a right = decide (2 ^ 16 ≤ a.toNat * right.toNat) := by
  by_cases hzero : right = 0
  · rw [hzero]; rfl
  have hpos := toNat_pos hzero
  rw [mulOverflows, bne_iff_ne.2 hzero, Bool.true_and, mulResult, BitVec.toNat_ofNat]
  by_cases hfit : a.toNat * right.toNat < 2 ^ 16
  · rw [Nat.mod_eq_of_lt hfit, Nat.mul_div_cancel _ hpos, bne_self_eq_false, decide_eq_false (Nat.not_le.2 hfit)]
  · have hcut : a.toNat * right.toNat % 2 ^ 16 < a.toNat * right.toNat := by omega
    have hback := (Nat.div_lt_iff_lt_mul hpos).2 hcut
    rw [bne_iff_ne.2 hback.ne, decide_eq_true (Nat.not_lt.1 hfit)]

theorem toNat_mulResult {a right : Word} (h : a.toNat * right.toNat < 2 ^ 16) :
    (mulResult a right).toNat = a.toNat * right.toNat := by
  rw [mulResult, BitVec.toNat_ofNat, Nat.mod_eq_of_lt h]

theorem magnitude_eq_abs (w : Word) : magnitude w = w.abs := by
  rw [magnitude, ofNat_two_pow_sub]
  rfl

/-- R8: also for 0x8000, whose magnitude as an unsigned word is 2^15. -/
theorem toNat_magnitude (w : Word) : (magnitude w).toNat = w.toInt.natAbs := by
  rw [magnitude_eq_abs, BitVec.toNat_abs, BitVec.toInt_eq_msb_cond]
  have hlt := w.isLt
  split <;> omega

/-- R165: negating as the signs say makes the product of the magnitudes the product of the words. -/
theorem smulResult_eq (a right : Word) : smulResult a right = BitVec.ofInt 16 (a.toInt * right.toInt) := by
  rw [BitVec.ofInt_mul, BitVec.ofInt_toInt, BitVec.ofInt_toInt, smulResult, ofNat_two_pow_sub, smulMagnitude,
    mulResult_eq, magnitude_eq_abs, magnitude_eq_abs, BitVec.abs, BitVec.abs]
  cases a.msb <;> cases right.msb <;> simp

/-- R165: a set sign bit and a failed divide-back check together say that the magnitudes' product needs more than 15
bits. -/
theorem smulFlags_eq (a right : Word) :
    smulFlags a right =
      { n := a.getLsbD 15 != right.getLsbD 15
        v := decide (2 ^ 15 ≤ a.toInt.natAbs * right.toInt.natAbs)
        z := false
        c := false } := by
  have hsign : (smulMagnitude a right).msb = decide (2 ^ 15 ≤ a.toInt.natAbs * right.toInt.natAbs % 2 ^ 16) := by
    rw [BitVec.msb_eq_decide, smulMagnitude, mulResult, BitVec.toNat_ofNat, toNat_magnitude, toNat_magnitude]
  have hbits : ∀ p : Nat, (2 ^ 15 ≤ p % 2 ^ 16 ∨ 2 ^ 16 ≤ p) ↔ 2 ^ 15 ≤ p := by omega
  rw [smulFlags, hsign, mulOverflows_eq, toNat_magnitude, toNat_magnitude, ← Bool.decide_or,
    decide_eq_decide.2 (hbits _), msb_eq_bit15, msb_eq_bit15]

/-! ## Quotients and remainders -/

theorem toNat_udivQuotient (a right : Word) : (udivQuotient a right).toNat = a.toNat / right.toNat := by
  rw [udivQuotient, BitVec.toNat_ofNat, Nat.mod_eq_of_lt ((Nat.div_le_self ..).trans_lt a.isLt)]

theorem toNat_udivRemainder (a right : Word) : (udivRemainder a right).toNat = a.toNat % right.toNat := by
  rw [udivRemainder, BitVec.toNat_ofNat, Nat.mod_eq_of_lt ((Nat.mod_le ..).trans_lt a.isLt)]

end Sys2Proof.Machine
end

section
/-! The integer ALU's instructions (R160 to R171, R228): what each does with a resolved operand, and the obligations
about them. -/

namespace Sys2Proof.Machine

/-! ## One equation per instruction -/

section
variable {op : Operand} {s : State} {right : Word}

/-- R162: ADDCA on an operand that resolves. -/
theorem exec_addca_ok (h : resolveLoad op s = .ok right) :
    exec (.addca op) s = .next
      (writeAccumulator (addResult s.a right s.status.c) (addFlags s.a right s.status.c) (consume op s)) := by
  simp [exec, execAddca, withValue_ok h]

/-- R163: SUBCA on an operand that resolves. -/
theorem exec_subca_ok (h : resolveLoad op s = .ok right) :
    exec (.subca op) s = .next
      (writeAccumulator (subResult s.a right s.status.c) (subFlags s.a right s.status.c) (consume op s)) := by
  simp [exec, execSubca, withValue_ok h]

/-- R164: MULTUA on an operand that resolves. -/
theorem exec_multua_ok (h : resolveLoad op s = .ok right) :
    exec (.multua op) s = .next (writeAccumulator (if mulOverflows s.a right then s.a else mulResult s.a right)
      (mulFlags s.a right) (consume op s)) := by
  simp only [exec, execMultua, withValue_ok h]
  rfl

/-- R165: MULTA on an operand that resolves. -/
theorem exec_multa_ok (h : resolveLoad op s = .ok right) :
    exec (.multa op) s = .next
      (writeAccumulator (smulResult s.a right) (smulFlags s.a right) (consume op s)) := by
  simp [exec, execMulta, withValue_ok h]

/-- R166: DIVUA on a divisor that is not zero. -/
theorem exec_divua_ok (h : resolveLoad op s = .ok right) (hz : right ≠ 0) :
    exec (.divua op) s = .next { writeAccumulator (udivQuotient s.a right) divFlags (consume op s) with
      b := udivRemainder s.a right } := by
  simp only [exec, execDivua, withValue_ok h, if_neg hz, consume_a]

/-- R167: DIVA on a divisor that is not zero. -/
theorem exec_diva_ok (h : resolveLoad op s = .ok right) (hz : right ≠ 0) :
    exec (.diva op) s = .next { writeAccumulator (sdivQuotient s.a right) divFlags (consume op s) with
      b := sdivRemainder s.a right } := by
  simp only [exec, execDiva, withValue_ok h, if_neg hz, consume_a]

/-- R168, R228: the rewind undoes the move of PC over the operand, and nothing else has changed by then. -/
theorem zeroDivisor_consume (op : Operand) (s : State) :
    zeroDivisor s.pc (consume op s) = .next (raise .arithmeticFault s) := rfl

theorem exec_divua_zero (h : resolveLoad op s = .ok 0) : exec (.divua op) s = .next (raise .arithmeticFault s) := by
  simp [exec, execDivua, withValue_ok h, zeroDivisor_consume]

theorem exec_diva_zero (h : resolveLoad op s = .ok 0) : exec (.diva op) s = .next (raise .arithmeticFault s) := by
  simp [exec, execDiva, withValue_ok h, zeroDivisor_consume]

theorem exec_fdiva_zero (h : resolveLoad op s = .ok right) (hz : isFloatZero right = true) :
    exec (.fdiva op) s = .next (raise .arithmeticFault s) := by
  simp [exec, execFdiva, withValue_ok h, zeroDivisor_consume, hz]

end

/-! ## The obligations -/

/-- Settles O25: the stored word is the one with the sum's remainder, and its flags are those of `addFlags_eq`. -/
theorem addWithCarry : Obligations.AddWithCarry := by
  refine ⟨fun op => rfl, ?resolved, fun op s sg => operandFaultsComeFirst _ op s sg rfl⟩
  rintro op s right h wide res rfl hres
  obtain rfl : res = addResult s.a right s.status.c :=
    BitVec.eq_of_toNat_eq (hres.trans (toNat_addResult ..).symm)
  rw [exec_addca_ok h, addFlags_eq]
  rfl

/-- Settles O26: likewise with the difference's remainder and the flags of `subFlags_eq`. -/
theorem subtractWithBorrow : Obligations.SubtractWithBorrow := by
  refine ⟨fun op => rfl, ?resolved, fun op s sg => operandFaultsComeFirst _ op s sg rfl⟩
  intro op s right h d res hd hres
  obtain rfl : res = subResult s.a right s.status.c :=
    BitVec.eq_of_toNat_eq (Int.ofNat_inj.1 (hres.trans (hd ▸ (toNat_subResult ..).symm)))
  rw [exec_subca_ok h, subFlags_eq _ _ _ hd]
  rfl

/-- Settles O27: the overflow check of the truncated product decides whether the exact product fits. -/
theorem unsignedMultiply : Obligations.UnsignedMultiply := by
  refine ⟨fun op => rfl, fun op s right h hfit => ?fits, fun op s right h hwide => ?overflows,
    fun op s sg => operandFaultsComeFirst _ op s sg rfl⟩
  case fits =>
    have hv : mulOverflows s.a right = false := by rw [mulOverflows_eq, decide_eq_false (Nat.not_le.2 hfit)]
    refine ⟨mulResult s.a right, toNat_mulResult hfit, ?_⟩
    rw [exec_multua_ok h, mulFlags, hv]
    rfl
  case overflows =>
    have hv : mulOverflows s.a right = true := by rw [mulOverflows_eq, decide_eq_true hwide]
    rw [exec_multua_ok h, mulFlags, hv]
    rfl

/-- Settles O28: the stored product and the flags are those of `smulResult_eq` and `smulFlags_eq`. -/
theorem signedMultiply : Obligations.SignedMultiply := by
  refine ⟨fun op => rfl, fun op s right h => ?resolved, fun op s sg => operandFaultsComeFirst _ op s sg rfl⟩
  rw [exec_multa_ok h, smulResult_eq, smulFlags_eq]
  rfl

/-- Settles O29: the quotient and the remainder of naturals, neither of which exceeds the dividend. -/
theorem unsignedDivide : Obligations.UnsignedDivide := by
  refine ⟨fun op => rfl, fun op s right h hz => ?resolved, fun op s => exec_divua_zero,
    fun op s sg => operandFaultsComeFirst _ op s sg rfl⟩
  refine ⟨udivQuotient s.a right, udivRemainder s.a right, ?equation, ?bound, exec_divua_ok h hz⟩
  case equation => rw [toNat_udivQuotient, toNat_udivRemainder, Nat.div_add_mod']
  case bound => rw [toNat_udivRemainder]; exact Nat.mod_lt _ (toNat_pos hz)

/-- Settles O30: division of integers that rounds toward zero; its remainder follows the dividend's sign. -/
theorem signedDivide : Obligations.SignedDivide := by
  refine ⟨fun op => rfl, fun op s right h hz => ?resolved, fun op s => exec_diva_zero,
    fun op s sg => operandFaultsComeFirst _ op s sg rfl⟩
  have hright : right.toInt ≠ 0 := fun h0 => hz (BitVec.eq_of_toInt_eq h0)
  refine ⟨s.a.toInt.tdiv right.toInt, s.a.toInt.tmod right.toInt, (Int.tdiv_mul_add_tmod ..).symm, ?bound,
    Int.tmod_nonneg _, fun hneg => ?negative, exec_diva_ok h hz⟩
  case bound =>
    rw [Int.natAbs_tmod]
    exact Nat.mod_lt _ (Int.natAbs_pos.2 hright)
  case negative =>
    have := Int.tmod_nonneg right.toInt (Int.neg_nonneg.2 hneg)
    rwa [Int.neg_tmod, Int.neg_nonneg] at this

/-- Settles O31: each divide tests its divisor before anything but PC has moved. -/
theorem zeroDivisorRewinds : Obligations.ZeroDivisorRewinds := by
  intro op s right h
  refine ⟨?integer, ?float⟩
  case integer =>
    rintro rfl
    exact ⟨exec_diva_zero h, exec_divua_zero h⟩
  case float =>
    rintro (rfl | rfl)
    · exact exec_fdiva_zero h rfl
    · exact exec_fdiva_zero h rfl

/-- Settles O32: with complementary carries the three corrections cancel, with equal ones they are `2c - 1`. -/
theorem subtractionUndoesAddition : Obligations.SubtractionUndoesAddition := by
  intro right s t ht
  rw [exec_addca_ok (right := right) rfl] at ht
  cases ht
  refine ⟨⟨_, exec_subca_ok (right := right) rfl, ?complementary⟩, ⟨_, exec_subca_ok (right := right) rfl, ?same⟩⟩
  case complementary =>
    have key := toNat_subResult_addResult s.a right s.status.c (!s.status.c)
    have hc : (!s.status.c).toNat + s.status.c.toNat = 1 := by cases s.status.c <;> rfl
    have ha := s.a.isLt
    exact BitVec.eq_of_toNat_eq (Int.ofNat_inj.1 (key.trans (by omega)))
  case same =>
    have key := toNat_subResult_addResult s.a right s.status.c s.status.c
    exact key.trans (by congr 1; omega)

end Sys2Proof.Machine
end

section
/-! Logic, shifts and rotates, increments and decrements, comparisons and carry control (R180 to R209): the values and
flags of the definitions as operations on bit vectors, one equation per shared operation, and the obligations. -/

namespace Sys2Proof.Machine

/-! ## Flags and values -/

/-- R9: `SetZN` by bit 15. -/
theorem Status.setZN_eq_zn (t : Status) (r : Word) : t.setZN r = Claims.zn t r := by
  rw [Status.setZN, msb_eq_bit15, nonzero_and_bit15]
  rfl

/-- R186: doubling is the left shift. -/
theorem ofNat_toNat_mul_two (t : Word) : BitVec.ofNat 16 (t.toNat * 2) = t <<< 1 :=
  BitVec.eq_of_toNat_eq (by rw [BitVec.toNat_ofNat, BitVec.toNat_shiftLeft, Nat.shiftLeft_eq, Nat.pow_one])

/-- R187: halving is the right shift. -/
theorem ofNat_toNat_div_two (t : Word) : BitVec.ofNat 16 (t.toNat / 2) = t >>> 1 :=
  BitVec.eq_of_toNat_eq (by
    rw [BitVec.toNat_ofNat, BitVec.toNat_ushiftRight, Nat.shiftRight_eq_div_pow, Nat.pow_one,
      Nat.mod_eq_of_lt ((Nat.div_le_self ..).trans_lt t.isLt)])

theorem shiftLeft_eq (t : Word) (cin : Bool) : shiftLeft t cin = (t <<< 1, t.getLsbD 15) := by
  rw [shiftLeft, ofNat_toNat_mul_two]

theorem shiftRight_eq (t : Word) (cin : Bool) : shiftRight t cin = (t >>> 1, t.getLsbD 0) := by
  rw [shiftRight, ofNat_toNat_div_two]

/-- Adding a carry at a clear bit position sets that bit. -/
theorem add_carry_eq_or {w : Word} {i : Nat} (clear : w.getLsbD i = false) (cin : Bool) :
    w + BitVec.ofNat 16 (cin.toNat * 2 ^ i) = w ||| (if cin then BitVec.twoPow 16 i else 0) := by
  cases cin with
  | false => simp
  | true =>
    have disjoint : w &&& BitVec.twoPow 16 i = 0 := by simp [BitVec.and_twoPow, clear]
    have carry_bit : BitVec.ofNat 16 (2 ^ i) = BitVec.twoPow 16 i :=
      BitVec.eq_of_toNat_eq ((BitVec.toNat_ofNat ..).trans (BitVec.toNat_twoPow ..).symm)
    rw [if_pos rfl, ← BitVec.add_eq_or_of_and_eq_zero _ _ disjoint, Bool.toNat_true, Nat.one_mul, carry_bit]

/-- R188: the carry enters at bit 0, which the shift has cleared. -/
theorem rotateLeft_eq (t : Word) (cin : Bool) :
    rotateLeft t cin = ((t <<< 1) ||| (if cin then 0x0001 else 0x0000), t.getLsbD 15) := by
  have entered := add_carry_eq_or (w := t <<< 1) (i := 0) (by simp) cin
  rw [Nat.pow_zero, Nat.mul_one] at entered
  rw [rotateLeft, BitVec.ofNat_add, ofNat_toNat_mul_two, entered]
  rfl

/-- R189: the carry enters at bit 15, which the shift has cleared. -/
theorem rotateRight_eq (t : Word) (cin : Bool) :
    rotateRight t cin = ((t >>> 1) ||| (if cin then 0x8000 else 0x0000), t.getLsbD 0) := by
  have entered := add_carry_eq_or (w := t >>> 1) (i := 15) (by simp) cin
  rw [rotateRight, BitVec.ofNat_add, ofNat_toNat_div_two, show 0x8000 = 2 ^ 15 from rfl, entered]
  rfl

/-! ## Logic -/

/-- R180: a logical operation on an operand that resolves. -/
theorem logical_ok (f : Word → Word → Word) {op : Operand} {s : State} {v : Word} (h : resolveLoad op s = .ok v) :
    logical f op s = .next { Claims.pcPlus s op.extraBytes with
      a := f s.a v, status := Claims.zn s.status (f s.a v) } := by
  rw [logical, withValue_ok h, writeZN, Status.setZN_eq_zn]
  rfl

/-- Settles O33: the three are `logical` with their operation. -/
theorem logicalOperations : Obligations.LogicalOperations :=
  fun _ _ _ h => ⟨logical_ok _ h, logical_ok _ h, logical_ok _ h⟩

/-! ## Shifts and rotates -/

section
variable {f : Word → Bool → Word × Bool} {op : Operand} {s : State} {loc : Location}

/-- R185: a shift whose location resolves, reads and can be written. -/
theorem shiftLocation_ok {t r : Word} {cout : Bool} {u : State} (hloc : resolveLocation op s = .ok loc)
    (hread : readLocation loc s = .ok t) (hf : f t s.status.c = (r, cout))
    (hwrite : writeLocation loc r (consume op s) = .ok u) :
    shiftLocation f op s = .next { u with status := { Claims.zn u.status r with c := cout } } := by
  rw [shiftLocation, orRaise_ok ((resolveLocation_consume ..).trans hloc),
    orRaise_ok ((readLocation_consume ..).trans hread), consume_status, hf]
  exact (orRaise_ok hwrite _ _).trans (by rw [Status.setZN_eq_zn]; rfl)

/-- R126, R185: a shift whose location cannot be read raises the signal before anything is written. -/
theorem shiftLocation_unreadable {sg : Signal} (hloc : resolveLocation op s = .ok loc)
    (hread : readLocation loc s = .error sg) :
    shiftLocation f op s = .next (raise sg (Claims.pcPlus s op.extraBytes)) := by
  rw [shiftLocation, orRaise_ok ((resolveLocation_consume ..).trans hloc),
    orRaise_error ((readLocation_consume ..).trans hread), consume_eq]

end

/-- R126: a full-word memory operand is the word at its effective address. -/
theorem resolveLocation_memory {m : MemMode} {addr : Word} {s : State} {ea : Nat}
    (h : effectiveAddress m addr s = .ok ea) : resolveLocation (.memory m false addr) s = .ok (.word ea) := by
  rw [resolveLocation, if_neg Bool.false_ne_true, h, Except.map]

/-- R123, R126: the only signal of an effective address is the operand's. -/
theorem resolveLocation_memory_error {m : MemMode} {addr : Word} {s : State} {sg : Signal}
    (h : effectiveAddress m addr s = .error sg) : resolveLocation (.memory m false addr) s = .error .segmentation := by
  obtain rfl := effectiveAddress_error h
  rw [resolveLocation, if_neg Bool.false_ne_true, h, Except.map]

theorem writeLocation_word {ea : Nat} (v : Word) (s : State) (g : Claims.guestRange ea 2) :
    writeLocation (.word ea) v s = .ok { s with mem := s.mem.setValue ea v .word } := by
  rw [writeLocation, memWrite_ok v s.mem g]

/-- R66, R67: a stored word reads back whole. -/
theorem Memory.value_setValue_word (m : Memory) (a : Nat) (v : Word) : (m.setValue a v .word).value a .word = v := by
  rw [Memory.value, Memory.read_setValue_hi, Memory.read_setValue_lo, hi_append_lo]

/-- R185: the rule of a shift, for any instruction that is `shiftLocation` of a value and a carry out. -/
theorem shiftRule_of_shiftLocation {mk : Operand → Instr} {f : Word → Bool → Word × Bool}
    {value : Word → Bool → Word} {carry : Word → Bool} (hexec : ∀ op s, exec (mk op) s = shiftLocation f op s)
    (hf : ∀ t cin, f t cin = (value t cin, carry t)) : Claims.shiftRule mk value carry := by
  refine ⟨fun s => (hexec ..).trans (shiftLocation_ok (loc := .registerA) rfl rfl (hf ..) rfl),
    fun s => (hexec ..).trans (shiftLocation_ok (loc := .registerB) rfl rfl (hf ..) rfl), fun m addr s ea h g => ?word,
    fun m addr s ea h g => ?invalid, fun m addr s sg h => ?pointer⟩
  case word =>
    have shifted := shiftLocation_ok (resolveLocation_memory h) (memRead_ok s.mem g) (hf ..) (writeLocation_word _ _ g)
    exact ⟨_, (hexec ..).trans shifted, s.mem.value_setValue_word ea _,
      fun x hx => s.mem.read_setValue_outside _ .word hx⟩
  case invalid =>
    exact (hexec ..).trans (shiftLocation_unreadable (resolveLocation_memory h) (memRead_error s.mem g))
  case pointer =>
    have unresolved := (resolveLocation_consume _ (.memory m false addr) s).trans (resolveLocation_memory_error h)
    exact (hexec ..).trans (orRaise_error unresolved _ _)

/-- Settles O34: the four are `shiftLocation` of their value and their carry out. -/
theorem shiftsAndRotates : Obligations.ShiftsAndRotates :=
  ⟨shiftRule_of_shiftLocation (fun _ _ => rfl) shiftLeft_eq, shiftRule_of_shiftLocation (fun _ _ => rfl) shiftRight_eq,
    shiftRule_of_shiftLocation (fun _ _ => rfl) rotateLeft_eq,
    shiftRule_of_shiftLocation (fun _ _ => rfl) rotateRight_eq⟩

/-! ## Increments and decrements -/

theorem exec_incrementOf (r : Reg) (s : State) : exec (Claims.incrementOf r) s = .next (writeZN r (s.reg r + 1) s) := by
  cases r <;> rfl

theorem exec_decrementOf (r : Reg) (s : State) : exec (Claims.decrementOf r) s = .next (writeZN r (s.reg r - 1) s) := by
  cases r <;> rfl

theorem reg_writeZN (r q : Reg) (v : Word) (s : State) : (writeZN r v s).reg q = if q = r then v else s.reg q := by
  rw [← State.reg_setReg]
  cases q <;> rfl

/-- R180, R191: what `writeZN` leaves unchanged. -/
theorem writeZN_eq_of_registers (r : Reg) (v : Word) (s : State) :
    writeZN r v s = { s with
      a := (writeZN r v s).a, b := (writeZN r v s).b, x := (writeZN r v s).x, y := (writeZN r v s).y
      status := Claims.zn s.status v } := by
  rw [← Status.setZN_eq_zn]
  cases r <;> rfl

/-- R191: a decrement adds `2^16 - 1` modulo 2^16. -/
theorem toNat_sub_one (v : Word) : (v - 1).toNat = (v.toNat + 0xFFFF) % 2 ^ 16 := by
  rw [BitVec.toNat_sub, Nat.add_comm]
  rfl

/-- R191: a step that is one `writeZN` of a value writes that value, its Z and N, and nothing else. -/
theorem writeZN_effect {e : Result} {r : Reg} {s : State} {v : Word} {n : Nat} (he : e = .next (writeZN r v s))
    (hv : v.toNat = n) :
    ∃ t, e = .next t ∧ (t.reg r).toNat = n ∧ (∀ q, q ≠ r → t.reg q = s.reg q)
      ∧ t = { s with a := t.a, b := t.b, x := t.x, y := t.y, status := Claims.zn s.status (t.reg r) } := by
  have written : (writeZN r v s).reg r = v := by rw [reg_writeZN, if_pos rfl]
  refine ⟨_, he, by rw [written, hv], fun q hq => by rw [reg_writeZN, if_neg hq], ?_⟩
  rw [written]
  exact writeZN_eq_of_registers r v s

/-- Settles O35: each of the eight is one `writeZN` of the register plus or minus one, which wraps. -/
theorem incrementsAndDecrements : Obligations.IncrementsAndDecrements := fun r s =>
  ⟨writeZN_effect (exec_incrementOf r s) (BitVec.toNat_add ..), writeZN_effect (exec_decrementOf r s) (toNat_sub_one _)⟩

/-! ## Comparisons -/

theorem exec_compareOf (r : Reg) (op : Operand) (s : State) :
    exec (Claims.compareOf r op) s = compareRegister r op s := by
  cases r <;> rfl

/-- Settles O36: consuming the operand moves PC only, so the register compared is that of the state before. -/
theorem comparisons : Obligations.Comparisons := by
  intro r op s v h
  have same : (consume op s).reg r = s.reg r := by cases r <;> rfl
  rw [exec_compareOf, compareRegister, withValue_ok h, same]
  rfl

/-! ## Carry control -/

/-- Settles O37: the encodings and the meanings are the definitions'. -/
theorem carryControl : Obligations.CarryControl :=
  ⟨rfl, rfl, fun _ => ⟨rfl, rfl⟩⟩

end Sys2Proof.Machine
end

section
/-! The floating-point unit (R220 to R228): the zero test of FDIVA as an equality of words, the delivery that the four
instructions share, and the obligation. -/

namespace Sys2Proof.Machine

/-- R228: bits 14 to 0 are clear in two words only, the two signed zeros. -/
theorem isFloatZero_iff (w : Word) : isFloatZero w = true ↔ w = 0x0000 ∨ w = 0x8000 := by
  rw [isFloatZero, beq_iff_eq]
  bv_omega

/-- R223: the left operand and the flags kept are those of the state before, since consuming the operand moves PC only. -/
theorem halfPrecision_consume (f : FpOp) (right : Word) (op : Operand) (s : State) :
    halfPrecision f right (consume op s) = { Claims.pcPlus s op.extraBytes with
      a := (Config.fp16 f s.a right).1, status := s.status.setNvzc (Config.fp16 f s.a right).2 } := rfl

section
variable {op : Operand} {s : State} {right : Word}

/-- R223: an instruction that hands its operand to the half-precision unit, on an operand that resolves. -/
theorem withValue_halfPrecision (f : FpOp) (h : resolveLoad op s = .ok right) :
    withValue op s (fun v u => .next (halfPrecision f v u)) = .next { Claims.pcPlus s op.extraBytes with
      a := (Config.fp16 f s.a right).1, status := s.status.setNvzc (Config.fp16 f s.a right).2 } := by
  rw [withValue_ok h, halfPrecision_consume]

/-- R227, R228: FDIVA on a divisor that is neither signed zero. -/
theorem exec_fdiva_ok (h : resolveLoad op s = .ok right) (hpos : right ≠ 0x0000) (hneg : right ≠ 0x8000) :
    exec (.fdiva op) s = .next { Claims.pcPlus s op.extraBytes with
      a := (Config.fp16 .fdiv s.a right).1, status := s.status.setNvzc (Config.fp16 .fdiv s.a right).2 } := by
  have hz : ¬ isFloatZero right = true := mt (isFloatZero_iff right).1 (not_or.2 ⟨hpos, hneg⟩)
  simp only [exec, execFdiva, withValue_ok h, if_neg hz, halfPrecision_consume]

end

/-- Settles O38: three deliver the unit's answer outright, and FDIVA does once its zero test has failed. -/
theorem halfPrecisionOperations : Obligations.HalfPrecisionOperations :=
  fun _ _ _ h => ⟨withValue_halfPrecision .fadd h, withValue_halfPrecision .fsub h, withValue_halfPrecision .fmult h,
    exec_fdiva_ok h⟩

end Sys2Proof.Machine
end

section
/-! The heap allocator (R250 to R256): first fit as the least place that fits, a live allocation by its place in the list,
and what each of the allocator's operations answers. -/

namespace Sys2Proof.Machine

/-! ## First fit -/

/-- `Claims.fits` with the search's lower bound in place of the heap floor: the places that `allocateFrom` chooses
among. -/
def fitsFrom (lo : Nat) (h : Heap) (n q : Nat) : Prop :=
  lo ≤ q ∧ q + n ≤ cfg.heapCeil ∧ ∀ o ∈ h, Claims.apart q n o

theorem fitsFrom_heapFloor (h : Heap) (n : Nat) : fitsFrom cfg.heapFloor h n = Claims.fits h n := rfl

/-- R250, R251: a place in an ordered list is in the gap before the first block, or a place behind that block. -/
theorem fitsFrom_cons {lo : Nat} {o : Block} {rest : Heap} (ho : Heap.orderedFrom lo (o :: rest) = true) (n q : Nat) :
    fitsFrom lo (o :: rest) n q ↔ (lo ≤ q ∧ q + n ≤ o.start) ∨ fitsFrom o.stop rest n q := by
  obtain ⟨hlo, -, hceil, hrest⟩ := Heap.orderedFrom_cons.1 ho
  have hstop : o.stop = o.start + o.size := rfl
  constructor
  · rintro ⟨hq, hfit, hapart⟩
    obtain ⟨hfirst, hapart⟩ := List.forall_mem_cons.1 hapart
    exact hfirst.imp (fun before => ⟨hq, before⟩) fun behind => ⟨behind, hfit, hapart⟩
  · rintro (⟨hq, before⟩ | ⟨behind, hfit, hapart⟩)
    · have later : ∀ p ∈ rest, Claims.apart q n p := fun p hp => by
        obtain ⟨hp, -⟩ := Heap.orderedFrom_mem hrest hp
        exact .inl (by omega)
      exact ⟨hq, by omega, List.forall_mem_cons.2 ⟨.inl before, later⟩⟩
    · exact ⟨by omega, hfit, List.forall_mem_cons.2 ⟨.inr behind, hapart⟩⟩

/-- R251: everything the search can answer: nothing, where nothing fits, or the least place that fits, with the new block
added to the list. -/
theorem allocateFrom_cases {lo : Nat} {h : Heap} (n : Nat) (ho : Heap.orderedFrom lo h = true) :
    (allocateFrom lo n h = none ∧ ∀ q, ¬ fitsFrom lo h n q)
      ∨ ∃ q h', allocateFrom lo n h = some (q, h') ∧ IsLeast {q | fitsFrom lo h n q} q
        ∧ h'.Perm ({ start := q, size := n } :: h) := by
  induction h generalizing lo with
  | nil =>
    rw [allocateFrom]
    split
    · next room => exact .inr ⟨lo, _, rfl, ⟨⟨le_rfl, room, by simp⟩, fun q hq => hq.1⟩, .refl _⟩
    · next full => exact .inl ⟨rfl, fun q ⟨hq, hfit, _⟩ => full (by omega)⟩
  | cons o rest ih =>
    obtain ⟨-, -, -, hrest⟩ := Heap.orderedFrom_cons.1 ho
    rw [allocateFrom]
    split
    · next gap =>
      exact .inr ⟨lo, _, rfl, ⟨(fitsFrom_cons ho n lo).2 (.inl ⟨le_rfl, gap⟩), fun q hq => hq.1⟩, .refl _⟩
    · next noGap =>
      have behind : ∀ q, fitsFrom lo (o :: rest) n q ↔ fitsFrom o.stop rest n q := fun q => by
        rw [fitsFrom_cons ho, or_iff_right fun ⟨hq, before⟩ => noGap (by omega)]
      simp only [behind]
      obtain ⟨hnone, nofit⟩ | ⟨q, h', hsome, least, perm⟩ := ih hrest
      · exact .inl ⟨by rw [hnone]; rfl, nofit⟩
      · exact .inr ⟨q, o :: h', by rw [hsome]; rfl, least, (perm.cons o).trans (.swap ..)⟩

/-- R251: everything an allocation of at least one byte can answer. -/
theorem allocate_cases {h : Heap} {n : Nat} (ho : h.ok = true) (hn : n ≠ 0) :
    (allocate n h = none ∧ ∀ q, ¬ Claims.fits h n q)
      ∨ ∃ q h', allocate n h = some (q, h') ∧ IsLeast {q | Claims.fits h n q} q
        ∧ h'.Perm ({ start := q, size := n } :: h) := by
  rw [allocate, if_neg hn, ← fitsFrom_heapFloor]
  exact allocateFrom_cases n ho

/-- R251: an allocation of no bytes, or without a place that fits, fails. -/
theorem allocate_of_no_fit {h : Heap} {n : Nat} (ho : h.ok = true) (nofit : n = 0 ∨ ∀ q, ¬ Claims.fits h n q) :
    allocate n h = none := by
  by_cases hn : n = 0
  · rw [hn]; rfl
  · obtain ⟨hnone, -⟩ | ⟨q, -, -, ⟨hfit, -⟩, -⟩ := allocate_cases ho hn
    · exact hnone
    · exact absurd hfit (nofit.resolve_left hn q)

/-- R251: an allocation returns the least place that fits and adds its block to the list. -/
theorem allocate_of_least {h : Heap} {n q : Nat} (ho : h.ok = true) (hn : n ≠ 0)
    (hq : IsLeast {q | Claims.fits h n q} q) :
    ∃ h', allocate n h = some (q, h') ∧ h'.ok = true ∧ h'.Perm ({ start := q, size := n } :: h) := by
  obtain ⟨-, nofit⟩ | ⟨a, h', ha, least, perm⟩ := allocate_cases ho hn
  · exact absurd hq.1 (nofit q)
  · obtain rfl := least.unique hq
    obtain ⟨-, -, -, ok⟩ := allocate_some ho ha
    exact ⟨h', ha, ok, perm⟩

/-- Settles O41: the least place that fits is the one that first fit returns. -/
theorem allocationIsFirstFit : Obligations.AllocationIsFirstFit := by
  intro h n ho
  refine ⟨fun hn => allocate_of_no_fit ho (.inl hn), fun _ nofit => allocate_of_no_fit ho (.inr nofit),
    fun hn q fit least => ?_⟩
  obtain ⟨h', ha, ok, perm⟩ := allocate_of_least ho (by omega) ⟨fit, least⟩
  exact ⟨h', ha, ok, perm.length_eq, fun o => perm.mem_iff.trans List.mem_cons⟩

/-! ## A live allocation by its place in the list -/

section
variable {pre post : Heap} {o : Block} (ho : Heap.ok (pre ++ o :: post) = true)
include ho

/-- R250: no other block of an ordered list starts where one does. -/
theorem start_ne_of_ok : ∀ p ∈ pre ++ post, p.start ≠ o.start := by
  obtain ⟨hpre, hpost, hsize, -⟩ := Heap.orderedFrom_split ho
  intro p hp
  rcases List.mem_append.1 hp with hp | hp
  · have hend := hpre p hp
    obtain ⟨-, hpos, -⟩ := Heap.orderedFrom_mem ho (List.mem_append_left _ hp)
    simp only [Block.stop] at hend
    omega
  · have hend := hpost p hp
    simp only [Block.stop] at hend
    omega

theorem start_ne_of_mem_pre : ∀ p ∈ pre, p.start ≠ o.start :=
  fun p hp => start_ne_of_ok ho p (List.mem_append_left _ hp)

theorem locate_of_ok : locate o.start (pre ++ o :: post) = some (o, post.head?) :=
  locate_append (start_ne_of_mem_pre ho) rfl

theorem resize_of_ok (n : Nat) :
    resize o.start n (pre ++ o :: post) = pre ++ { o with size := n } :: post :=
  resize_append (start_ne_of_mem_pre ho) rfl

theorem removeBlock_of_ok : removeBlock o.start (pre ++ o :: post) = pre ++ post :=
  removeBlock_append (start_ne_of_mem_pre ho) rfl

end

section
variable {h : Heap} {o : Block} (ho : h.ok = true) (hm : o ∈ h)
include ho hm

/-- R254: removing the block at an address removes that block and no other. -/
theorem mem_removeBlock_iff (o' : Block) : o' ∈ removeBlock o.start h ↔ o' ∈ h ∧ o' ≠ o := by
  obtain ⟨pre, post, rfl⟩ := List.append_of_mem hm
  have hne : ∀ p ∈ pre ++ post, p ≠ o := fun p hp he => start_ne_of_ok ho p hp (congrArg Block.start he)
  rw [removeBlock_of_ok ho, List.mem_append, List.mem_append, List.mem_cons]
  constructor
  · exact fun hp => ⟨hp.imp_right .inr, hne o' (List.mem_append.2 hp)⟩
  · rintro ⟨hp | rfl | hp, hno⟩
    · exact .inl hp
    · exact absurd rfl hno
    · exact .inr hp

theorem start_ne_of_mem_removeBlock {o' : Block} (h' : o' ∈ removeBlock o.start h) : o'.start ≠ o.start := by
  obtain ⟨hm', hne⟩ := (mem_removeBlock_iff ho hm o').1 h'
  exact fun he => hne (Heap.orderedFrom_unique ho hm' hm he)

theorem length_removeBlock : (removeBlock o.start h).length + 1 = h.length := by
  obtain ⟨pre, post, rfl⟩ := List.append_of_mem hm
  rw [removeBlock_of_ok ho, List.length_append, List.length_append, List.length_cons, Nat.add_assoc]

end

/-! ## Delivering an address -/

/-- R256: delivering the address that B already holds changes nothing. -/
theorem deliver_own {s : State} {address : Nat} (h : address = s.b.toNat) : deliver (some address) s = s := by
  rw [deliver, h, BitVec.ofNat_toNat, BitVec.setWidth_eq]

/-- R251, R256: without a place that fits, zero is delivered in A and B. -/
theorem allocateInto_of_no_fit {n : Nat} {s : State} (ho : s.heap.ok = true)
    (h : n = 0 ∨ ∀ q, ¬ Claims.fits s.heap n q) : allocateInto n s = { s with a := 0, b := 0 } := by
  rw [allocateInto, allocate_of_no_fit ho h]
  rfl

/-- R250: a place that fits is an address of 16 bits. -/
theorem toNat_ofNat_of_fits {h : Heap} {n q : Nat} (fit : Claims.fits h n q) : (BitVec.ofNat 16 q : Word).toNat = q := by
  obtain ⟨-, hceil, -⟩ := fit
  rw [BitVec.toNat_ofNat, Nat.mod_eq_of_lt (by simp only [cfg] at hceil; omega)]

/-- R251, R256: an instruction that allocates and delivers, where some place fits. -/
theorem allocateInto_of_least {e : Result} {s : State} {n q : Nat} (he : e = .next (allocateInto n s))
    (ho : s.heap.ok = true) (hn : n ≠ 0) (fit : Claims.fits s.heap n q)
    (least : ∀ q', Claims.fits s.heap n q' → q ≤ q') :
    ∃ t, e = .next t ∧ t.b.toNat = q ∧ t = { s with b := t.b, heap := t.heap }
      ∧ t.heap.ok = true ∧ ∀ o, o ∈ t.heap ↔ o = { start := q, size := n } ∨ o ∈ s.heap := by
  obtain ⟨h', ha, ok, perm⟩ := allocate_of_least ho hn ⟨fit, least⟩
  have placed : allocateInto n s = { s with b := BitVec.ofNat 16 q, heap := h' } := by
    rw [allocateInto, ha]
    rfl
  exact ⟨_, he.trans (congrArg _ placed), toNat_ofNat_of_fits fit, rfl, ok, fun o => perm.mem_iff.trans List.mem_cons⟩

/-! ## The branches of a reallocation -/

section
variable {s : State} {n : Nat} (create : Bool)

/-- R252: without a block at the address, only syscall 0x23 allocates. -/
theorem reallocate_missing (h : ∀ o, o ∈ s.heap → o.start ≠ s.b.toNat) :
    reallocate s.b.toNat n create s = .ok (if create then allocateInto n s else { s with a := 0, b := 0 }) := by
  rw [reallocate, locate_none h]
  rfl

section
variable {pre post : Heap} {o : Block} (ho : s.heap.ok = true) (hs : s.heap = pre ++ o :: post)
  (hb : o.start = s.b.toNat)
include ho hs hb

theorem locate_own : locate s.b.toNat s.heap = some (o, post.head?) := by
  rw [hs] at ho ⊢
  rw [← hb, locate_of_ok ho]

/-- R252: a request not above the block's size is a no-op. -/
theorem reallocate_shrink (hn : n ≤ o.size) : reallocate s.b.toNat n create s = .ok s := by
  simp only [reallocate, locate_own ho hs hb, if_pos hn, deliver_own hb]

/-- R252: the state of a block grown in place. -/
theorem deliver_resized :
    deliver (some o.start) { s with heap := resize o.start n s.heap }
      = { s with heap := pre ++ { o with size := n } :: post } := by
  have grown := deliver_own (s := { s with heap := resize o.start n s.heap }) hb
  rw [grown]
  rw [hs] at ho ⊢
  rw [resize_of_ok ho]

end

section
variable {pre : Heap} {o : Block} (ho : s.heap.ok = true) (hs : s.heap = pre ++ [o])
  (hb : o.start = s.b.toNat) (hn : o.size < n)
include ho hs hb hn

/-- R252: the last block grows up to the ceiling. -/
theorem reallocate_last (hc : o.start + n ≤ cfg.heapCeil) :
    reallocate s.b.toNat n create s = .ok { s with heap := pre ++ [{ o with size := n }] } := by
  simp only [reallocate, locate_own ho hs hb, if_neg (Nat.not_le.2 hn), List.head?_nil, if_pos hc,
    deliver_resized ho hs hb]

/-- R252: a last block that does not fit below the ceiling is not moved. -/
theorem reallocate_last_full (hc : cfg.heapCeil < o.start + n) :
    reallocate s.b.toNat n create s = .ok { s with a := 0, b := 0 } := by
  simp only [reallocate, locate_own ho hs hb, if_neg (Nat.not_le.2 hn), List.head?_nil, if_neg (Nat.not_le.2 hc),
    deliver]

end

section
variable {pre post : Heap} {o nxt : Block} (ho : s.heap.ok = true) (hs : s.heap = pre ++ o :: nxt :: post)
  (hb : o.start = s.b.toNat) (hn : o.size < n)
include ho hs hb hn

/-- R252: a block grows into the gap behind it. -/
theorem reallocate_gap (hg : o.start + n ≤ nxt.start) :
    reallocate s.b.toNat n create s = .ok { s with heap := pre ++ { o with size := n } :: nxt :: post } := by
  simp only [reallocate, locate_own ho hs hb, if_neg (Nat.not_le.2 hn), List.head?_cons, if_pos hg,
    deliver_resized ho hs hb]

/-- R252: a block too small for the gap behind it moves. -/
theorem reallocate_move {t : State} (hg : nxt.start < o.start + n) (hmove : moveBlock o n s = .ok t) :
    reallocate s.b.toNat n create s = .ok t := by
  simp only [reallocate, locate_own ho hs hb, if_neg (Nat.not_le.2 hn), List.head?_cons, if_neg (Nat.not_le.2 hg),
    hmove]

end

end

/-! ## Moving a block -/

theorem moveBlock_of_no_fit {s : State} {n : Nat} (o : Block) (ho : s.heap.ok = true)
    (nofit : ∀ q, ¬ Claims.fits s.heap n q) : moveBlock o n s = .ok { s with a := 0, b := 0 } := by
  simp only [moveBlock, allocate_of_no_fit ho (.inr nofit), deliver]

/-- R68, R253: a range in the heap region passes the privileged check. -/
theorem allValid_priv_of_heap {a n : Nat} (hlo : cfg.heapFloor ≤ a) (hup : a + n ≤ cfg.heapCeil) :
    allValid validPriv a n = true := by
  simp only [cfg] at hlo hup
  exact (allValid_iff ..).2 fun k hk => (validPriv_iff _).2 (by omega)

/-- R252, R253: a move with a place that fits: the old bytes are copied there and the old block is dropped. -/
theorem moveBlock_of_least {s : State} {n q : Nat} {o : Block} (ho : s.heap.ok = true) (hm : o ∈ s.heap)
    (hn : o.size < n) (fit : Claims.fits s.heap n q) (least : ∀ q', Claims.fits s.heap n q' → q ≤ q') :
    ∃ h', moveBlock o n s = .ok { s with
        b := BitVec.ofNat 16 q, heap := h', mem := s.mem.copy q o.start o.size }
      ∧ h'.ok = true ∧ ∀ o', o' ∈ h' ↔ (o' = { start := q, size := n } ∨ o' ∈ s.heap) ∧ o' ≠ o := by
  obtain ⟨h', ha, ok, perm⟩ := allocate_of_least ho (by omega) ⟨fit, least⟩
  have old : o ∈ h' := perm.mem_iff.2 (List.mem_cons_of_mem _ hm)
  obtain ⟨hlo, -, hup⟩ := Heap.orderedFrom_mem ho hm
  obtain ⟨hfloor, hceil, -⟩ := fit
  have target := allValid_priv_of_heap (n := o.size) hfloor (by omega)
  have source := allValid_priv_of_heap hlo hup
  refine ⟨removeBlock o.start h', ?_, Heap.orderedFrom_removeBlock _ ok, fun o' => ?_⟩
  · simp only [moveBlock, ha, target, source, Bool.and_self, if_true, deliver]
  · rw [mem_removeBlock_iff ok old, perm.mem_iff, List.mem_cons]

/-! ## Freeing a block -/

/-- R254: freeing the block at B. -/
theorem freeBlock_of_mem {s : State} {o : Block} (ho : s.heap.ok = true) (hm : o ∈ s.heap) (hb : o.start = s.b.toNat) :
    freeBlock s = .next { s with heap := removeBlock o.start s.heap } := by
  obtain ⟨pre, post, hs⟩ := List.append_of_mem hm
  simp only [freeBlock, locate_own ho hs hb, hb]

/-- R254: freeing an address that starts no block. -/
theorem freeBlock_unknown {s : State} (h : ∀ o ∈ s.heap, o.start ≠ s.b.toNat) :
    freeBlock s = .next (abort .unknownHeapAddress s) := by
  simp only [freeBlock, locate_none h]

end Sys2Proof.Machine
end

section
/-! SYSCALL (R236 to R242, R252, R254): each number as its operation on the state with PC moved, console input and output,
and the obligations. -/

namespace Sys2Proof.Machine

/-! ## SYSCALL by its number -/

section
variable {op : Operand} {s : State}

/-- R236: the call runs on the state whose PC stands at the last operand byte. -/
theorem exec_syscall {n : Word} (h : resolveLoad op s = .ok n) :
    exec (.syscall op) s = systemCall n (Claims.pcPlus s op.extraBytes) := withValue_ok h _

theorem exec_syscall_reallocate {create : Bool} {t : State}
    (h : resolveLoad op s = .ok (if create then 0x0023 else 0x0022))
    (hr : reallocate (Claims.pcPlus s op.extraBytes).b.toNat s.a.toNat create (Claims.pcPlus s op.extraBytes) = .ok t) :
    exec (.syscall op) s = .next t := by
  rw [exec_syscall h]
  cases create <;> exact orRaise_ok hr _ _

end

/-- Settles O45: the number is compared whole with each of the seven. -/
theorem unknownSyscallRaisesSystemFault : Obligations.UnknownSyscallRaisesSystemFault := by
  intro op s n h hn
  have other : ∀ k : Word, k.toNat ∈ [0x0013, 0x0014, 0x0015, 0x0020, 0x0021, 0x0022, 0x0023] → n ≠ k :=
    fun k hk he => hn (he ▸ hk)
  rw [exec_syscall h, systemCall]
  iterate 7 rw [if_neg (other _ (by decide))]

/-- Settles O42: syscall 0x21 allocates A bytes and delivers. -/
theorem allocateCallDelivers : Obligations.AllocateCallDelivers := by
  intro op s ho h
  have call : exec (.syscall op) s = .next (allocateInto s.a.toNat (Claims.pcPlus s op.extraBytes)) := exec_syscall h
  refine ⟨fun nofit => ?_, fun ha q fit least => allocateInto_of_least call ho (toNat_pos ha).ne' fit least⟩
  exact call.trans (congrArg _ (allocateInto_of_no_fit ho (nofit.imp_left (congrArg BitVec.toNat))))

/-- Settles O43: a block at B is found and removed; without one the search finds nothing. -/
theorem freeRemovesOneBlock : Obligations.FreeRemovesOneBlock := by
  intro op s ho h
  have call : exec (.syscall op) s = freeBlock (Claims.pcPlus s op.extraBytes) := exec_syscall h
  refine ⟨fun o hm hb => ⟨_, call.trans (freeBlock_of_mem ho hm hb), mem_removeBlock_iff ho hm, length_removeBlock ho hm,
    Heap.orderedFrom_removeBlock _ ho, fun o' left => ?_⟩, fun unknown => call.trans (freeBlock_unknown unknown)⟩
  rw [← hb]
  exact start_ne_of_mem_removeBlock ho hm left

/-- Settles O44: one branch of `reallocate` for each case. -/
theorem reallocateCall : Obligations.ReallocateCall := by
  intro op s create ho h
  have call {t : State} := exec_syscall_reallocate (t := t) h
  refine ⟨fun unknown hc => ?missing, fun unknown hc nofit => ?full, fun unknown hc ha q fit least => ?fresh,
    fun o hm hb hn => ?shrink, fun pre o nxt post hs hb hn hg => call (reallocate_gap create ho hs hb hn hg),
    fun pre o hs hb hn hc => call (reallocate_last create ho hs hb hn hc),
    fun pre o hs hb hn hc => call (reallocate_last_full create ho hs hb hn hc),
    fun pre o nxt post hs hb hn hg nofit => ?stuck, fun pre o nxt post q hs hb hn hg fit least => ?moved⟩
  case missing =>
    subst hc
    exact call (reallocate_missing false unknown)
  case full =>
    subst hc
    have nothing := allocateInto_of_no_fit (s := Claims.pcPlus s op.extraBytes) ho
      (nofit.imp_left (congrArg BitVec.toNat))
    exact (call (reallocate_missing true unknown)).trans (congrArg _ nothing)
  case fresh =>
    subst hc
    exact allocateInto_of_least (call (reallocate_missing true unknown)) ho (toNat_pos ha).ne' fit least
  case shrink =>
    obtain ⟨pre, post, hs⟩ := List.append_of_mem hm
    exact call (reallocate_shrink create ho hs hb hn)
  case stuck =>
    have stays := moveBlock_of_no_fit (s := Claims.pcPlus s op.extraBytes) o ho nofit
    exact call (reallocate_move (s := Claims.pcPlus s op.extraBytes) create ho hs hb hn hg stays)
  case moved =>
    have hm : o ∈ s.heap := hs ▸ List.mem_append_right _ (List.mem_cons_self ..)
    obtain ⟨h', moved, ok, members⟩ := moveBlock_of_least (s := Claims.pcPlus s op.extraBytes) ho hm hn fit least
    have ⟨_, _, hapart⟩ := fit
    have disjoint : q + o.size ≤ o.start ∨ o.start + o.size ≤ q := (hapart o hm).imp_left fun before => by omega
    have call := call (reallocate_move (s := Claims.pcPlus s op.extraBytes) create ho hs hb hn hg moved)
    exact ⟨_, call, toNat_ofNat_of_fits fit, rfl, members, ok,
      fun k hk => s.mem.read_copy_inside q o.start o.size disjoint hk,
      fun x hx => s.mem.read_copy_outside q o.start o.size hx⟩

/-! ## Console input and output -/

/-- R67: a stored byte string stands where it was put. -/
theorem bytesAt_writeBytes (m : Memory) (a : Nat) (bytes : List Byte) :
    Claims.bytesAt (m.writeBytes a bytes) a bytes := fun k hk => by
  rw [Memory.read_writeBytes, if_pos (by omega), Nat.add_sub_cancel_left, List.getD_eq_getElem _ _ hk]

theorem sameOutside_writeBytes (m : Memory) (a : Nat) (bytes : List Byte) :
    Claims.sameOutside m (m.writeBytes a bytes) a bytes.length := fun x hx => by
  rw [Memory.read_writeBytes, if_neg (by omega)]

theorem bytesAt_concat {m : Memory} {a : Nat} {bytes all : List Byte} {v : Byte} (hall : all = bytes ++ [v])
    (h : Claims.bytesAt m a all) : Claims.bytesAt m a bytes ∧ m.read (a + bytes.length) = v := by
  subst hall
  refine ⟨fun k hk => ?_, ?_⟩
  · rw [h k (by simp; omega), List.getElem_append_left hk]
  · rw [h bytes.length (by simp), List.getElem_concat_length rfl]

/-- R240: the line cut to 255 bytes, and the terminator. -/
theorem lineBytes_eq {line : List Byte} {k : Nat} (hk : k = min line.length 255) :
    lineBytes line = line.take k ++ [0x00] ∧ (line.take k).length = k := by
  have cut : line.take 255 = line.take k := by rw [hk, Nat.min_comm, ← List.take_eq_take_min]
  exact ⟨congrArg (· ++ [0x00]) cut, by rw [List.length_take]; omega⟩

theorem storeLine_ok {line : List Byte} {s : State} (g : Claims.guestRange s.b.toNat (lineBytes line).length) :
    storeLine line s = .next { s with
      a := BitVec.ofNat 16 (lineBytes line).length, mem := s.mem.writeBytes s.b.toNat (lineBytes line) } :=
  if_pos ((allValid_guest_iff ..).2 g)

theorem storeLine_error {line : List Byte} {s : State} (g : ¬ Claims.guestRange s.b.toNat (lineBytes line).length) :
    storeLine line s = .next (abort .segmentationFault s) :=
  if_neg (mt (allValid_guest_iff ..).1 g)

theorem readLine_never {s : State} (h : nextAnswer s = .never) : readLine s = .fault .awaitingLine := by
  rw [readLine, h]

theorem readLine_line {s : State} {line : List Byte} (h : nextAnswer s = .line line) :
    readLine s = storeLine line (takeAnswer s) := by
  rw [readLine, h]

/-- Settles O39: the line is stored at B if its bytes and the terminator may stand there, and only then; taking the
answer changes neither B nor memory. -/
theorem readLineStoresTheLine : Obligations.ReadLineStoresTheLine := by
  have call {op s} (h : resolveLoad op s = .ok 0x0013) :
      exec (.syscall op) s = readLine (Claims.pcPlus s op.extraBytes) := exec_syscall h
  refine ⟨fun op s h never => (call h).trans (readLine_never never), fun op s line k h answer hk => ?_⟩
  have call := (call h).trans (readLine_line answer)
  have hb : (takeAnswer (Claims.pcPlus s op.extraBytes)).b = s.b := takeAnswer_b _
  have hm : (takeAnswer (Claims.pcPlus s op.extraBytes)).mem = s.mem := takeAnswer_mem _
  obtain ⟨hline, hlen⟩ := lineBytes_eq hk
  have hsize : (lineBytes line).length = k + 1 := by rw [hline, List.length_append, hlen, List.length_singleton]
  rw [call, ← hsize, ← hb]
  refine ⟨fun g => ⟨_, storeLine_ok g, ?_⟩, fun g => storeLine_error g⟩
  rw [hb, hm]
  obtain ⟨hbytes, hterm⟩ := bytesAt_concat hline (bytesAt_writeBytes s.mem s.b.toNat (lineBytes line))
  rw [hlen] at hterm
  exact ⟨hbytes, hterm, sameOutside_writeBytes s.mem _ _⟩

theorem printBytes_ok (event : List Byte → OutEvent) {s : State} (g : Claims.guestRange s.b.toNat s.a.toNat) :
    printBytes event s = .next { s with out := s.out ++ [event (s.mem.readBytes s.b.toNat s.a.toNat)] } :=
  if_pos ((allValid_guest_iff ..).2 g)

theorem printBytes_error (event : List Byte → OutEvent) {s : State} (g : ¬ Claims.guestRange s.b.toNat s.a.toNat) :
    printBytes event s = .next (abort .segmentationFault s) :=
  if_neg (mt (allValid_guest_iff ..).1 g)

/-- Settles O40: both calls print with their event, which holds what memory holds at B. -/
theorem printAppendsOneEvent : Obligations.PrintAppendsOneEvent := by
  intro op s n event hn h
  have call : exec (.syscall op) s = printBytes event (Claims.pcPlus s op.extraBytes) := by
    rw [exec_syscall h]
    simp only [List.mem_cons, List.not_mem_nil, or_false, Prod.mk.injEq] at hn
    obtain ⟨rfl, rfl⟩ | ⟨rfl, rfl⟩ := hn <;> rfl
  exact ⟨fun g => ⟨s.mem.readBytes s.b.toNat s.a.toNat, s.mem.length_readBytes .., fun k hk =>
      (s.mem.getElem_readBytes _ _ k hk).symm, call.trans (printBytes_ok event g)⟩,
    fun g => call.trans (printBytes_error event g)⟩

end Sys2Proof.Machine
end

section
/-! The two stacks (R39, R65, R266 to R277, R293): what a pushed word leaves in memory, the data-stack instructions, the
last-in first-out order, and who moves CALL_SP. -/

namespace Sys2Proof.Machine

/-! ## A pushed word in memory -/

theorem Memory.read_pushedMemory_hi (m : Memory) {ptr : Word} (v : Word) (h : 1 ≤ ptr.toNat) :
    (pushedMemory m ptr v).read ptr.toNat = hiByte v := by
  rw [pushedMemory, Memory.read_write_other _ _ (by omega), Memory.read_write_same]

theorem Memory.read_pushedMemory_lo (m : Memory) (ptr v : Word) :
    (pushedMemory m ptr v).read (ptr.toNat - 1) = loByte v := Memory.read_write_same _ _ _

theorem sameOutside_pushedMemory (m : Memory) {ptr : Word} (v : Word) (h : 1 ≤ ptr.toNat) :
    Claims.sameOutside m (pushedMemory m ptr v) (ptr.toNat - 1) 2 := fun _ hx =>
  Memory.read_pushedMemory_other m v (by omega)

/-! ## Pushes and pulls -/

theorem pushRegister_ok (r : Reg) {s : State} (room : 0x2002 ≤ s.sp.toNat) :
    pushRegister r s = .next { s with sp := s.sp - 2, mem := pushedMemory s.mem s.sp (s.reg r) } :=
  orRaise_ok (pushData_ok _ room) _ _

theorem pushRegister_full (r : Reg) {s : State} (full : s.sp.toNat < 0x2002) :
    pushRegister r s = .next (raise .stackFault s) :=
  orRaise_error (pushData_full _ full) _ _

theorem pullRegister_ok (r : Reg) {s : State} (h : s.sp.toNat + 2 ≤ 0x23FF) (h1 : 1 ≤ s.sp.toNat) :
    pullRegister r s = .next ({ s with sp := s.sp + 2 }.setReg r
      (s.mem.read (s.sp.toNat + 2) ++ s.mem.read (s.sp.toNat + 1))) :=
  orRaise_ok (popData_ok h h1) _ _

theorem pullRegister_empty (r : Reg) {s : State} (empty : 0x23FF < s.sp.toNat + 2) :
    pullRegister r s = .next (raise .stackFault s) :=
  orRaise_error (popData_empty empty) _ _

/-- Settles O46: both instructions push their register. -/
theorem pushesStoreTheirWord : Obligations.PushesStoreTheirWord := by
  intro i v hv s
  obtain ⟨r, hexec, hreg⟩ : ∃ r, exec i s = pushRegister r s ∧ v s = s.reg r := by
    obtain ⟨rfl, rfl⟩ | ⟨rfl, rfl⟩ := hv
    · exact ⟨.a, rfl, rfl⟩
    · exact ⟨.b, rfl, rfl⟩
  rw [hexec, hreg]
  refine ⟨fun room => ⟨_, pushRegister_ok r room, ?hi, ?lo, sameOutside_pushedMemory _ _ (by omega)⟩,
    fun full => pushRegister_full r full⟩
  case hi => rw [Memory.read_pushedMemory_hi _ _ (by omega), hiByte_toNat]
  case lo => rw [Memory.read_pushedMemory_lo, loByte_toNat]

/-- Settles O47: both instructions pull into their register. -/
theorem pullsLoadTheirWord : Obligations.PullsLoadTheirWord := by
  intro s hlo
  refine ⟨fun h => ?_, fun empty => ⟨pullRegister_empty .a empty, pullRegister_empty .b empty⟩⟩
  have h1 : 1 ≤ s.sp.toNat := by omega
  exact ⟨pullRegister_ok .a h h1, pullRegister_ok .b h h1⟩

/-! ## Last in, first out -/

section
variable {s t u : State} {w : Word} {ws : List Word}

/-- R266: words can be pushed when there is room for the first and the others can be pushed on it. -/
theorem pushAll_cons_ok_iff : Claims.pushAll (w :: ws) s = .ok t ↔
    0x2002 ≤ s.sp.toNat
      ∧ Claims.pushAll ws { s with sp := s.sp - 2, mem := pushedMemory s.mem s.sp w } = .ok t := by
  rw [Claims.pushAll]
  by_cases room : 0x2002 ≤ s.sp.toNat
  · rw [pushData_ok w room]
    exact (and_iff_right room).symm
  · rw [pushData_full w (by omega)]
    exact iff_of_false nofun (mt And.left room)

/-- R266: pushes write at SP and below. -/
theorem read_above_of_pushAll (h : Claims.pushAll ws s = .ok t) {x : Nat} (hx : s.sp.toNat < x) :
    t.mem.read x = s.mem.read x := by
  induction ws generalizing s with
  | nil => cases h; rfl
  | cons w ws ih =>
    obtain ⟨room, hrest⟩ := pushAll_cons_ok_iff.1 h
    have hlower := toNat_sub_two (p := s.sp) (by omega)
    calc t.mem.read x
      _ = (pushedMemory s.mem s.sp w).read x := ih hrest (by show (s.sp - 2).toNat < x; omega)
      _ = s.mem.read x := Memory.read_pushedMemory_other _ _ (.inr hx)

/-- R266, R267: a pop takes back the word that stands where it was pushed. -/
theorem popData_of_pushed {p : Word} (hsp : u.sp = p - 2) (hlo : 0x2002 ≤ p.toNat) (hup : p.toNat ≤ 0x23FF)
    (hhi : u.mem.read p.toNat = hiByte w) (hlow : u.mem.read (p.toNat - 1) = loByte w) :
    popData u = .ok (w, { u with sp := p }) := by
  have hnat : u.sp.toNat = p.toNat - 2 := by rw [hsp, toNat_sub_two (by omega)]
  rw [popData_ok (by omega) (by omega), hnat, show p.toNat - 2 + 2 = p.toNat by omega,
    show p.toNat - 2 + 1 = p.toNat - 1 by omega, hhi, hlow, hi_append_lo, hsp, BitVec.sub_add_cancel]

/-- Popping one word more. -/
theorem popAll_succ_of_ok {n : Nat} {vs : List Word} {v : Word} (h : Claims.popAll n s = .ok (vs, t))
    (hv : popData t = .ok (v, u)) : Claims.popAll (n + 1) s = .ok (vs ++ [v], u) := by
  induction n generalizing s vs with
  | zero =>
    cases h
    rw [Claims.popAll, hv]
    rfl
  | succ n ih =>
    rw [Claims.popAll] at h ⊢
    cases hp : popData s with
    | error sg => rw [hp] at h; cases h
    | ok p =>
      rw [hp] at h
      cases hq : Claims.popAll n p.2 with
      | error sg => simp [Except.bind, Except.map, hq] at h
      | ok q =>
        obtain ⟨qs, t'⟩ := q
        simp only [Except.bind, Except.map, hq] at h
        cases h
        simp only [Except.bind, ih hq]
        rfl

/-- R276: by induction on the words: the first is popped last, from where the others have left it. -/
theorem popAll_of_pushAll (hsp : s.sp.toNat ≤ 0x23FF) (h : Claims.pushAll ws s = .ok t) :
    Claims.popAll ws.length t = .ok (ws.reverse, { t with sp := s.sp }) := by
  induction ws generalizing s with
  | nil => cases h; rfl
  | cons w ws ih =>
    obtain ⟨room, hrest⟩ := pushAll_cons_ok_iff.1 h
    have hlower := toNat_sub_two (p := s.sp) (by omega)
    have kept : ∀ x, s.sp.toNat - 2 < x → t.mem.read x = (pushedMemory s.mem s.sp w).read x := fun x hx =>
      read_above_of_pushAll hrest (by rwa [hlower])
    rw [List.length_cons, List.reverse_cons]
    refine popAll_succ_of_ok (ih (by show (s.sp - 2).toNat ≤ _; omega) hrest)
      (popData_of_pushed (u := { t with sp := s.sp - 2 }) rfl room hsp ?_ ?_)
    · rw [kept _ (by omega), Memory.read_pushedMemory_hi _ _ (by omega)]
    · rw [kept _ (by omega), Memory.read_pushedMemory_lo]

/-- R277: each word takes two bytes between the floor and SP. -/
theorem pushAll_ok_iff (hlo : 0x2000 ≤ s.sp.toNat) :
    (∃ t, Claims.pushAll ws s = .ok t) ↔ 0x2000 + 2 * ws.length ≤ s.sp.toNat := by
  induction ws generalizing s with
  | nil => exact iff_of_true ⟨s, rfl⟩ hlo
  | cons w ws ih =>
    simp only [pushAll_cons_ok_iff, exists_and_left, List.length_cons]
    by_cases room : 0x2002 ≤ s.sp.toNat
    · have hlower := toNat_sub_two (p := s.sp) (by omega)
      rw [and_iff_right room, ih (by show 0x2000 ≤ (s.sp - 2).toNat; omega), hlower]
      omega
    · exact iff_of_false (mt And.left room) (by omega)

end

/-- Settles O48: the order is an induction on the words, and 511 is half of 0x23FF - 0x2000, rounded down. -/
theorem dataStackIsLastInFirstOut : Obligations.DataStackIsLastInFirstOut := by
  refine ⟨fun ws s t hsp h => ⟨_, popAll_of_pushAll hsp h, rfl⟩, fun ws s hsp => ?_⟩
  have htop : s.sp.toNat = 0x23FF := by rw [hsp]; rfl
  rw [pushAll_ok_iff (by omega)]
  omega

/-! ## Who moves CALL_SP -/

theorem head?_encode (i : Instr) : (encode i).head? = some (cfg.opcodeByte i.opcode) := by
  unfold encode
  split <;> rfl

/-- R69, R91: an instruction that is fetched stands in memory at PC, its opcode byte first. -/
theorem opcodeByte_of_fetchDecode {s : State} {i : Instr} {n : Nat} (h : fetchDecode s = .instr i n) :
    s.mem.read s.pc.toNat = cfg.opcodeByte i.opcode := by
  obtain ⟨-, -, rest, hbytes⟩ := decode_instr h
  have hhead : (fetchBytes s.mem 4 s.pc).head? = some (cfg.opcodeByte i.opcode) := by
    rw [← hbytes, List.head?_append, head?_encode]
    rfl
  by_cases hpc : Claims.programByte s.pc.toNat
  · rw [fetchBytes_succ s.mem 3 hpc] at hhead
    exact Option.some.inj hhead
  · rw [fetchBytes_outside s.mem 4 hpc] at hhead
    cases hhead

/-- A cycle ends one of the thirteen effects, that of the instruction whose opcode byte stands at PC; NOOP stands for
rejected bytes, which have the effect of a signal. -/
theorem cycle_effect_fetched {s t : State} (h : cycle s = .next t) :
    ∃ i u, Effect i s u ∧ t = endCycle u ∧ (i ≠ .noop → s.mem.read s.pc.toNat = cfg.opcodeByte i.opcode) := by
  rcases cycle_cases h with ⟨i, n, u, hd, he, rfl⟩ | ⟨sg, k, hs, rfl⟩
  · exact ⟨i, u, exec_effect he, rfl, fun _ => opcodeByte_of_fetchDecode hd⟩
  · exact ⟨.noop, _, effect_raise hs (fetched_pc s _), rfl, fun hne => absurd rfl hne⟩

/-- R39: an effect that moves CALL_SP is a return, which writes nothing, or a call or a trap entry, which writes the
return address. -/
theorem Effect.of_callSp_ne {i : Instr} {s u : State} (e : Effect i s u) (hr : s.run = .running)
    (hne : u.callSp ≠ s.callSp) :
    (i = .rts ∧ u.callSp = s.callSp + 2 ∧ u.mem = s.mem)
      ∨ (((∃ op, i = .jsr op) ∨ Claims.isHandler s.mem (endCycle u).pc) ∧ u.callSp = s.callSp - 2
        ∧ Claims.sameOutside s.mem u.mem (s.callSp.toNat - 1) 2) := by
  cases e with
  | called op jsr v room q =>
    exact .inr ⟨.inl ⟨op, jsr⟩, q.callSp, by rw [q.mem]; exact sameOutside_pushedMemory _ _ (by omega)⟩
  | trapped target v handler pc room q =>
    have hpc : (endCycle u).pc = target := by
      rw [endCycle_running (q.run.trans hr)]
      simp [pc]
    exact .inr ⟨.inr (by rwa [hpc]), q.callSp, by rw [q.mem]; exact sameOutside_pushedMemory _ _ (by omega)⟩
  | returned rts room q => exact .inl ⟨rts, q.callSp, q.mem⟩
  | quiet q => exact absurd q.callSp hne
  | halt => exact absurd rfl hne
  | stored ea v w g q => exact absurd q.callSp hne
  | pushed v room q => exact absurd q.callSp hne
  | pulled room q => exact absurd q.callSp hne
  | line a bytes g q => exact absurd q.callSp hne
  | printed event q => exact absurd q.callSp hne
  | heap h ok q => exact absurd q.callSp hne
  | moved h dst src n ok q => exact absurd q.callSp hne
  | aborted kind f => exact absurd f.quiet.callSp hne

/-- R39, R270: what a step that moves CALL_SP is, and what it writes. -/
theorem step_of_callSp_ne {s t : State} (h : step s = .next t) (hne : t.callSp ≠ s.callSp) :
    ((nextRequest s).reset = true ∧ t.callSp = 0x25FF ∧ t.mem = s.mem)
      ∨ (s.mem.read s.pc.toNat = 0x49 ∧ t.callSp = s.callSp + 2 ∧ t.mem = s.mem)
      ∨ ((s.mem.read s.pc.toNat = 0x48 ∨ Claims.isHandler s.mem t.pc) ∧ t.callSp = s.callSp - 2
        ∧ Claims.sameOutside s.mem t.mem (s.callSp.toNat - 1) 2) := by
  obtain ⟨hr, ⟨-, rfl⟩ | ⟨-, hreset, rfl⟩ | ⟨-, -, hc⟩⟩ := step_cases h
  · exact absurd rfl hne
  · exact .inl ⟨hreset, rfl, rfl⟩
  · obtain ⟨i, u, e, rfl, fetched⟩ := cycle_effect_fetched hc
    rw [endCycle_callSp] at hne ⊢
    rw [endCycle_mem]
    right
    rcases e.of_callSp_ne hr hne with ⟨rfl, higher, hmem⟩ | ⟨who, lower, hmem⟩
    · exact .inl ⟨fetched nofun, higher, hmem⟩
    · refine .inr ⟨who.imp_left ?_, lower, hmem⟩
      rintro ⟨op, rfl⟩
      exact fetched nofun

/-! ## The call stack and the guest -/

/-- R65: a range that touches the call stack is not the guest's. -/
theorem not_guestRange_of_callStack {a n k : Nat} (hk : k < n) (hlo : 0x2400 ≤ a + k) (hup : a + k ≤ 0x25FF) :
    ¬ Claims.guestRange a n := by
  intro g
  have hbyte := g k hk
  unfold Claims.guestByte at hbyte
  omega

/-- R39, R65: a step that leaves CALL_SP where it is writes no byte of the call stack. -/
theorem step_read_callStack {s t : State} {a : Nat} (hi : Invariant s) (h : step s = .next t)
    (hsp : t.callSp = s.callSp) (hlo : 0x2400 ≤ a) (hup : a ≤ 0x25FF) : t.mem.read a = s.mem.read a := by
  obtain ⟨-, ⟨-, rfl⟩ | ⟨-, -, rfl⟩ | ⟨-, -, hc⟩⟩ := step_cases h
  · rfl
  · rfl
  · obtain ⟨i, u, e, rfl⟩ := cycle_effect hc
    have closed : ¬ Claims.guestByte a := by
      unfold Claims.guestByte
      omega
    rcases e.read_eq_or_pushedCall hi.takeRequest closed with hread | ⟨lower, -⟩
    · rw [endCycle_mem, hread, takeRequest_mem]
    · rw [endCycle_callSp, lower, takeRequest_callSp] at hsp
      bv_omega

/-- Settles O56: what a step does is the lemmas above; a guest access to the call stack is outside the guest's range. -/
theorem callStackIsClosedToTheGuest : Obligations.CallStackIsClosedToTheGuest := by
  refine ⟨fun s t a hi h hsp => step_read_callStack hi h hsp, fun s t _ => step_of_callSp_ne,
    fun w a k v m hk hlo hup => ?access, fun a n k hk hlo hup => ?range⟩
  case access =>
    have outside := not_guestRange_of_callStack hk hlo hup
    exact ⟨memRead_error m outside, memWrite_error v m outside⟩
  case range =>
    rw [← Bool.not_eq_true, allValid_guest_iff]
    exact not_guestRange_of_callStack hk hlo hup

end Sys2Proof.Machine
end

section
/-! Control transfer and the cycle of an instruction (R33, R280 to R292, R309, R310): a step as the execution of the
instruction at PC, the jumps, branches, call and return, and that every instruction answers a next state. -/

namespace Sys2Proof.Machine

/-! ## The cycle of an instruction -/

/-- R280: a step executes the instruction that the bytes fetched at PC decode to, and ends the cycle. -/
theorem step_of_decode {s : State} {i : Instr} {n : Nat} (he : Claims.executes s)
    (hd : decode (fetchBytes s.mem 4 s.pc) = .instr i n) : step s = finishCycle (exec i (takeRequest s)) := by
  have hfetch : fetchDecode (takeRequest s) = .instr i n := hd
  simp only [step_of_executes he, cycle, hfetch]

/-- R280, R304: the end of the cycle does nothing to a run that has ended. -/
theorem endCycle_not_running {t : State} (h : t.run ≠ .running) : endCycle t = t := by
  cases hr : t.run with
  | running => exact absurd hr h
  | halted => exact endCycle_halted hr
  | aborted kind pc status => exact endCycle_aborted hr

/-- Settles O8: the end of the cycle, by the run state that `exec` leaves. -/
theorem stepRunsTheDecodedInstruction : Obligations.StepRunsTheDecodedInstruction := by
  intro s i n he hd
  rw [step_of_decode he hd]
  refine ⟨fun t h hr => ?running, fun t h hr => ?ended, fun e h => ?fault⟩
  case running => rw [h, finishCycle, endCycle_running hr]
  case ended => rw [h, finishCycle, endCycle_not_running hr]
  case fault => rw [h, finishCycle]

/-- R69: a fetch finds the bytes that stand in the program region, before whatever follows them. -/
theorem fetchBytes_of_bytesAt {m : Memory} {p : Word} {bytes : List Byte} {n : Nat} (hn : bytes.length ≤ n)
    (hbytes : Claims.bytesAt m p.toNat bytes) (hpc : ∀ k, k < bytes.length → Claims.programByte (p.toNat + k)) :
    ∃ rest, fetchBytes m n p = bytes ++ rest := by
  induction bytes generalizing p n with
  | nil => exact ⟨_, rfl⟩
  | cons b bytes ih =>
    rw [List.length_cons] at hn hpc
    obtain ⟨j, rfl⟩ : ∃ j, n = j + 1 := ⟨n - 1, by omega⟩
    have hp := hpc 0 (by omega)
    have hb : m.read p.toNat = b := hbytes 0 (by simp)
    have hnext : (p + 1).toNat = p.toNat + 1 := by
      unfold Claims.programByte at hp
      bv_omega
    have shift : ∀ k, (p + 1).toNat + k = p.toNat + (k + 1) := by omega
    obtain ⟨rest, hrest⟩ := ih (p := p + 1) (n := j) (by omega)
      (fun k hk => by rw [shift]; exact hbytes (k + 1) (by simpa using hk))
      (fun k hk => by rw [shift]; exact hpc (k + 1) (by omega))
    exact ⟨rest, by rw [fetchBytes_succ m j hp, hb, hrest, List.cons_append]⟩

/-- R90: an instruction has at most four bytes. -/
theorem length_encode_le (i : Instr) : (encode i).length ≤ 4 := by
  have operand : ∀ op : Operand, op.extraBytes ≤ 3 := fun op => by cases op <;> simp [Operand.extraBytes]
  rw [length_encode, Instr.length]
  split
  · decide
  · next op _ =>
    have := operand op
    omega

/-- Settles O9: the four bytes fetched begin with the encoding, which decodes to the instruction whatever follows. -/
theorem stepRunsTheEncodedInstruction : Obligations.StepRunsTheEncodedInstruction := by
  intro s i he hw hbytes hpc
  obtain ⟨rest, hfetch⟩ := fetchBytes_of_bytesAt (length_encode_le i) hbytes hpc
  exact step_of_decode he (hfetch ▸ decodeOfEncodeIsIdentity i rest hw)

/-- Settles O49: the encodings and the meanings are the definitions', and the end of HALT's cycle sees H set. -/
theorem noopAndHalt : Obligations.NoopAndHalt :=
  ⟨rfl, rfl, fun s => ⟨rfl, _, rfl, rfl, endCycle_running (s := { s with status := { s.status with h := true } })⟩⟩

/-! ## Jumps and branches -/

/-- R284, R286 to R289: where a branch in its one legal form leaves PC, by its condition. -/
theorem branchIf_absolute {taken : Bool} {c : Prop} [Decidable c] (h : taken = true ↔ c) (target : Word) (s : State) :
    branchIf taken (.memory .absolute false target) s
      = .next { s with pc := if c then target - 1 else s.pc + 3 } := by
  by_cases hc : c
  · rw [h.2 hc, if_pos hc]
    rfl
  · rw [Bool.eq_false_iff.2 (mt h.1 hc), if_neg hc]
    rfl

/-- Settles O50: JMP is the branch that is always taken, and each other tests its flag. -/
theorem jumpsAndBranches : Obligations.JumpsAndBranches := fun target s =>
  ⟨branchIf_absolute (c := True) (by simp) target s, branchIf_absolute Iff.rfl target s,
    branchIf_absolute (by simp) target s, branchIf_absolute Iff.rfl target s, branchIf_absolute (by simp) target s⟩

/-! ## Call and return -/

section
variable {s : State}

/-- R309: no handler can be entered without room for its return address, so StackFault is fatal whatever its vector. -/
theorem raise_stackFault_of_full (full : s.callSp.toNat < 0x2402) : raise .stackFault s = abort .stackFault s := by
  rw [raise_stackFault]
  by_cases unhandled : (s.mem.read (vectorSlot 4) ++ s.mem.read (vectorSlot 4 + 1) : Word) = 0
  · exact trap_unhandled (by decide) _ unhandled
  · exact trap_double (by decide) _ unhandled full

/-- R291: with room on the call stack, JSR pushes the address of its last byte and jumps. -/
theorem exec_jsr_ok (target : Word) (room : 0x2402 ≤ s.callSp.toNat) :
    exec (.jsr (.memory .absolute false target)) s = .next { s with
      pc := target - 1, callSp := s.callSp - 2, mem := pushedMemory s.mem s.callSp (s.pc + 3) } :=
  orRaise_ok (pushCall_ok (s := Claims.pcPlus s 3) (s.pc + 3) room) _ _

/-- R291, R309: without room, JSR raises StackFault once its bytes are consumed. -/
theorem exec_jsr_full (target : Word) (full : s.callSp.toNat < 0x2402) :
    exec (.jsr (.memory .absolute false target)) s = .next (raise .stackFault (Claims.pcPlus s 3)) :=
  orRaise_error (pushCall_full (s := Claims.pcPlus s 3) (s.pc + 3) full) _ _

theorem returnFromCall_ok (h : s.callSp.toNat + 2 ≤ 0x25FF) (h1 : 1 ≤ s.callSp.toNat) :
    returnFromCall s = { s with
      pc := s.mem.read (s.callSp.toNat + 2) ++ s.mem.read (s.callSp.toNat + 1), callSp := s.callSp + 2 } := by
  rw [returnFromCall, popCall_ok h h1]

theorem returnFromCall_empty (empty : 0x25FF < s.callSp.toNat + 2) : returnFromCall s = raise .stackFault s := by
  rw [returnFromCall, popCall_empty empty]

end

/-- Settles O51: JSR pushes, or raises a StackFault that finds no room either. -/
theorem jsrPushesItsLastByte : Obligations.JsrPushesItsLastByte := by
  intro target s
  refine ⟨fun room => ⟨_, exec_jsr_ok target room, ?hi, ?lo, sameOutside_pushedMemory _ _ (by omega)⟩,
    fun full => ?full⟩
  case hi => rw [Memory.read_pushedMemory_hi _ _ (by omega), hiByte_toNat]
  case lo => rw [Memory.read_pushedMemory_lo, loByte_toNat]
  case full =>
    rw [exec_jsr_full target full, raise_stackFault_of_full (s := Claims.pcPlus s 3) full]
    rfl

/-- Settles O52: RTS is the return, which pops PC or finds the call stack empty. -/
theorem rtsPopsPc : Obligations.RtsPopsPc :=
  ⟨rfl, fun _ hlo => ⟨fun h => congrArg _ (returnFromCall_ok h (by omega)),
    fun empty => congrArg _ (returnFromCall_empty empty)⟩⟩

/-! ## Every instruction answers -/

section
variable {s : State} {op : Operand} {k : Word → State → Result}

/-- R303: a signal is an answer, so an operation answers when it does on every value. -/
theorem exists_next_orRaise {α : Type} {r : Except Signal α} {k : α → Result} (hk : ∀ v, ∃ t, k v = .next t) :
    ∃ t, orRaise r s k = .next t := by
  cases r with
  | error sg => exact ⟨_, rfl⟩
  | ok v => exact hk v

theorem exists_next_withValue (hk : ∀ v u, ∃ t, k v u = .next t) : ∃ t, withValue op s k = .next t :=
  exists_next_orRaise fun v => hk v _

theorem exists_next_withTarget (hk : ∀ v u, ∃ t, k v u = .next t) : ∃ t, withTarget op s k = .next t :=
  exists_next_orRaise fun v => hk v _

theorem exists_next_ite {c : Prop} [Decidable c] {r q : Result} (hr : ∃ t, r = .next t) (hq : ∃ t, q = .next t) :
    ∃ t, (if c then r else q) = .next t := by
  split
  · exact hr
  · exact hq

theorem exists_next_freeBlock (s : State) : ∃ t, freeBlock s = .next t := by
  unfold freeBlock
  split <;> exact ⟨_, rfl⟩

/-- R238: a console read answers once it has its line. -/
theorem exists_next_readLine (h : nextAnswer s ≠ .never) : ∃ t, readLine s = .next t := by
  cases ha : nextAnswer s with
  | never => exact absurd ha h
  | line bytes =>
    rw [readLine_line ha]
    exact exists_next_ite ⟨_, rfl⟩ ⟨_, rfl⟩

/-- R236, R237: every system call answers, but a console read without a line. -/
theorem exists_next_systemCall {n : Word} (h : n = 0x0013 → nextAnswer s ≠ .never) : ∃ t, systemCall n s = .next t := by
  unfold systemCall
  split
  · next hn => exact exists_next_readLine (h hn)
  · refine exists_next_ite (exists_next_ite ⟨_, rfl⟩ ⟨_, rfl⟩) ?_
    refine exists_next_ite (exists_next_ite ⟨_, rfl⟩ ⟨_, rfl⟩) ?_
    refine exists_next_ite (exists_next_freeBlock s) (exists_next_ite ⟨_, rfl⟩ ?_)
    refine exists_next_ite (exists_next_orRaise fun _ => ⟨_, rfl⟩) ?_
    exact exists_next_ite (exists_next_orRaise fun _ => ⟨_, rfl⟩) ⟨_, rfl⟩

/-- R238: a SYSCALL answers, or it waits in a console read that the host never answers. -/
theorem exec_syscall_answers_or_waits (op : Operand) (s : State) :
    (∃ t, exec (.syscall op) s = .next t)
      ∨ (exec (.syscall op) s = .fault .awaitingLine ∧ resolveLoad op s = .ok 0x0013 ∧ nextAnswer s = .never) := by
  cases hop : resolveLoad op s with
  | error sg => exact .inl ⟨_, withValue_error hop _⟩
  | ok n =>
    rw [exec_syscall hop]
    by_cases waits : n = 0x0013 ∧ nextAnswer s = .never
    · obtain ⟨rfl, never⟩ := waits
      exact .inr ⟨readLine_never never, rfl, never⟩
    · exact .inl (exists_next_systemCall fun hn never => waits ⟨hn, never⟩)

/-- Every instruction but SYSCALL answers: its operands go on or raise, and what it then does is one update, one of two,
or one more access that goes on or raises. -/
theorem exists_next_exec (i : Instr) (s : State) (h : ∀ op, i ≠ .syscall op) : ∃ t, exec i s = .next t := by
  cases i with
  | noop | halt | rts | clc | sec | inca | deca | incb | decb | incx | decx | incy | decy => exact ⟨_, rfl⟩
  | loada op | loadb op | loadx op | loady op | addca op | subca op | multa op | multua op | anda op | ora op
  | xora op | cmpa op | cmpb op | cmpx op | cmpy op | fadda op | fsuba op | fmulta op =>
    exact exists_next_withValue fun _ _ => ⟨_, rfl⟩
  | diva op | divua op | fdiva op =>
    simp only [exec, execDiva, execDivua, execFdiva]
    exact exists_next_withValue fun _ _ => exists_next_ite ⟨_, rfl⟩ ⟨_, rfl⟩
  | storea op | storeb op | storex op | storey op => exact exists_next_orRaise fun _ => ⟨_, rfl⟩
  | lsl op | lsr op | rol op | ror op =>
    exact exists_next_orRaise fun _ => exists_next_orRaise fun _ => exists_next_orRaise fun _ => ⟨_, rfl⟩
  | jmp op | brz op | brnz op | brc op | brnc op => exact exists_next_withTarget fun _ _ => ⟨_, rfl⟩
  | jsr op =>
    simp only [exec, execJsr]
    exact exists_next_withTarget fun _ _ => exists_next_orRaise fun _ => ⟨_, rfl⟩
  | pha | pla | phb | plb => exact exists_next_orRaise fun _ => ⟨_, rfl⟩
  | syscall op => exact absurd rfl (h op)

end

/-- Settles O16: SYSCALL answers or waits, and every other instruction answers. -/
theorem everyInstructionCompletes : Obligations.EveryInstructionCompletes := by
  intro i s
  by_cases h : ∃ op, i = .syscall op
  · obtain ⟨op, rfl⟩ := h
    exact (exec_syscall_answers_or_waits op s).imp_right fun ⟨stops, number, never⟩ =>
      ⟨stops, op, rfl, number, never⟩
  · exact .inl (exists_next_exec i s (not_exists.1 h))

end Sys2Proof.Machine
end

section
/-! Exceptions, host requests and construction (R281, R303 to R315, R342 to R346): what an abort leaves alone, the entry of
a handler, the Kill and Reset requests, and the machine that a byte stream constructs. -/

namespace Sys2Proof.Machine

/-! ## Aborts -/

/-- R304, R315: an instruction that changes the run state aborts a state in which only PC has moved. -/
theorem Effect.run_eq_or_aborted {i : Instr} {s t : State} (e : Effect i s t) :
    t.run = s.run ∨ ∃ kind u, Fetched s u ∧ t = abort kind u := by
  cases e with
  | aborted kind f => exact .inr ⟨kind, _, f, rfl⟩
  | halt => exact .inl rfl
  | quiet q | stored _ _ _ _ q | pushed _ _ q | pulled _ q | called _ _ _ _ q | trapped _ _ _ _ _ q | returned _ _ q
  | line _ _ _ q | printed _ q | heap _ _ q | moved _ _ _ _ _ q => exact .inl q.run

/-- Settles O14: an instruction that aborts a Running machine aborts it from a state in which only PC has moved. -/
theorem abortsArePrecise : Obligations.AbortsArePrecise := by
  intro i s t kind pc status hrun h hab
  rcases (exec_effect h).run_eq_or_aborted with same | ⟨kind', u, f, rfl⟩
  · rw [same, hrun] at hab
    cases hab
  · obtain ⟨-, rfl, rfl⟩ := Run.aborted.inj hab
    have q := f.quiet
    exact ⟨rfl, rfl, by rw [abort_status, f.status], f.a, f.b, f.x, f.y, q.sp, q.callSp, q.mem, q.heap, q.out⟩

/-! ## The entry of a handler -/

/-- R300: each vectored signal is a trap through its own slot, with its own kind. -/
theorem raise_vectored {sg : Signal} {k : Nat} {kind : ErrorKind}
    (h : (sg, k, kind) ∈ [(Signal.illegalInstruction, 2, ErrorKind.illegalInstruction),
      (Signal.arithmeticFault, 3, ErrorKind.arithmeticFault), (Signal.stackFault, 4, ErrorKind.stackFault),
      (Signal.systemFault, 5, ErrorKind.systemFault)]) (s : State) :
    k < 8 ∧ raise sg s = trap k kind s := by
  simp only [List.mem_cons, Prod.mk.injEq, List.not_mem_nil, or_false] at h
  obtain ⟨rfl, rfl, rfl⟩ | ⟨rfl, rfl, rfl⟩ | ⟨rfl, rfl, rfl⟩ | ⟨rfl, rfl, rfl⟩ := h
  · exact ⟨by decide, raise_illegalInstruction s⟩
  · exact ⟨by decide, raise_arithmeticFault s⟩
  · exact ⟨by decide, raise_stackFault s⟩
  · exact ⟨by decide, raise_systemFault s⟩

/-- R280, R306: a vector less one is where the end of the cycle moves PC to the vector. -/
theorem endCycle_handler {t : State} {v : Word} (hpc : t.pc = v - 1) (hrun : t.run = .running)
    (hh : t.status.h = false) : (endCycle t).pc = v ∧ (endCycle t).run = .running := by
  rw [endCycle_running hrun, hpc, hh]
  exact ⟨BitVec.sub_add_cancel v 1, rfl⟩

/-- Settles O15: a vectored signal is a trap, and a trap does one of three things. -/
theorem trapEntry : Obligations.TrapEntry := by
  rintro sg k kind hsg s v rfl
  obtain ⟨hk, hraise⟩ := raise_vectored hsg s
  rw [hraise]
  refine ⟨fun unhandled => trap_unhandled hk kind unhandled, fun handled full => trap_double hk kind handled full,
    fun handled room => ?taken⟩
  case taken =>
    have taken := trap_taken hk kind handled room
    refine ⟨pushedMemory s.mem s.callSp s.pc, taken, ?hi, ?lo, sameOutside_pushedMemory _ _ (by omega),
      fun hrun hh => ?cycle⟩
    case hi => rw [Memory.read_pushedMemory_hi _ _ (by omega), hiByte_toNat]
    case lo => rw [Memory.read_pushedMemory_lo, loByte_toNat]
    case cycle =>
      rw [taken]
      exact endCycle_handler rfl hrun hh

/-! ## The host's requests -/

section
variable {s : State}

/-- R281, R312: a Kill comes before a Reset and before the fetch. -/
theorem step_kill (hrun : s.run = .running) (hkill : (nextRequest s).kill = true) :
    step s = .next (abort .kill (takeRequest s)) := by
  simp [step, hrun, hkill, raise_kill]

/-- R312, R342: a Reset comes before the fetch. -/
theorem step_reset (hrun : s.run = .running) (hkill : (nextRequest s).kill = false)
    (hreset : (nextRequest s).reset = true) : step s = .next (resetSignal (takeRequest s)) := by
  simp [step, hrun, hkill, hreset, raise_reset]

end

/-- Settles O12: the step is the abort, with the request taken. -/
theorem killRequestAborts : Obligations.KillRequestAborts := fun _ hrun hkill => step_kill hrun hkill

/-- Settles O13: the step is the reset signal, with the request taken; and only a Running machine steps. -/
theorem resetRequestReinitialises : Obligations.ResetRequestReinitialises :=
  ⟨fun _ hrun hkill hreset => ⟨_, step_reset hrun hkill hreset, rfl, rfl⟩,
    fun _ hrun _ h => hrun (step_cases h).1⟩

/-! ## Construction -/

/-- Settles O53: the memory and heap lists are empty, and the stack pointers are at their tops. -/
theorem invariantHoldsAtReset : Obligations.InvariantHoldsAtReset where
  canonical := ⟨List.Pairwise.nil, nofun⟩
  inRange := nofun
  nullGuard := ⟨rfl, rfl⟩
  sp := by decide
  callSp := by decide
  heap := rfl
  reserved := ⟨rfl, rfl, rfl⟩
  run := rfl

/-- R61: bytes stored above the null guard and inside the address space keep the memory clauses. -/
theorem Memory.Sound.writeBytes_above {m : Memory} (hm : m.Sound) {a : Nat} {bytes : List Byte} (h2 : 2 ≤ a)
    (h : a + bytes.length ≤ 0x10000) : (m.writeBytes a bytes).Sound where
  canonical := Memory.wf_writeBytes hm.canonical a bytes
  inRange := Memory.inRange_writeBytes hm.inRange a bytes h
  nullGuard := by
    have hlo : ¬ (a ≤ cfg.nullLo ∧ cfg.nullLo < a + bytes.length) := by simp only [cfg]; omega
    have hhi : ¬ (a ≤ cfg.nullHi ∧ cfg.nullHi < a + bytes.length) := by simp only [cfg]; omega
    rw [Memory.read_writeBytes, if_neg hlo, Memory.read_writeBytes, if_neg hhi]
    exact hm.nullGuard

/-- R344: an image that fits in the program region keeps the invariant of the reset state. -/
theorem invariant_loadImage {program : List Byte} (h : program.length ≤ 0xCA00) : Invariant (loadImage program) :=
  invariantHoldsAtReset.withMemory
    (invariantHoldsAtReset.soundMemory.writeBytes_above (by decide) (show 0x2600 + program.length ≤ 0x10000 by omega))

/-- R344: the image stands at the bottom of the program region and every other byte is zero. -/
theorem read_loadImage (program : List Byte) (a : Nat) :
    (loadImage program).mem.read a
      = if 0x2600 ≤ a ∧ a < 0x2600 + program.length then program.getD (a - 0x2600) 0 else 0 :=
  Memory.read_writeBytes [] 0x2600 a program

section
variable {stream : List Byte}

/-- R344: the declared length is the big-endian number in the four bytes after the tag. -/
theorem declaredLength_eq (h : 5 ≤ stream.length) :
    declaredLength stream = (stream.getD 1 0).toNat * 2 ^ 24 + (stream.getD 2 0).toNat * 2 ^ 16
      + (stream.getD 3 0).toNat * 2 ^ 8 + (stream.getD 4 0).toNat := by
  obtain ⟨tag, b3, b2, b1, b0, rest, rfl⟩ : ∃ tag b3 b2 b1 b0 rest, stream = tag :: b3 :: b2 :: b1 :: b0 :: rest := by
    match stream, h with
    | tag :: b3 :: b2 :: b1 :: b0 :: rest, _ => exact ⟨tag, b3, b2, b1, b0, rest, rfl⟩
  show (((0 * 256 + b3.toNat) * 256 + b2.toNat) * 256 + b1.toNat) * 256 + b0.toNat
    = b3.toNat * 2 ^ 24 + b2.toNat * 2 ^ 16 + b1.toNat * 2 ^ 8 + b0.toNat
  omega

theorem length_programBytes (h : 5 + declaredLength stream ≤ stream.length) :
    (programBytes stream).length = declaredLength stream := by
  rw [programBytes, List.length_take, List.length_drop]
  omega

theorem getD_programBytes {k : Nat} (h : k < declaredLength stream) :
    (programBytes stream).getD k 0 = stream.getD (5 + k) 0 := by
  simp [programBytes, List.getD_eq_getElem?_getD, h]

/-- R345: the tag is the word size. -/
theorem tag_iff : (stream.headD 0).toNat = cfg.wordSize ↔ stream.getD 0 0 = 0x10 := by
  rw [← BitVec.toNat_inj]
  cases stream <;> rfl

theorem exists_error_ite {c : Prop} [Decidable c] {e : ConstructionError} {r : Except ConstructionError State} :
    (∃ e', (if c then .error e else r) = .error e') ↔ c ∨ ∃ e', r = .error e' := by
  by_cases h : c <;> simp [h]

/-- R345: construction fails for exactly five reasons. -/
theorem construct_fails_iff : (∃ e, construct stream = .error e) ↔ stream.length < 5 ∨ stream.getD 0 0 ≠ 0x10
    ∨ declaredLength stream = 0 ∨ 0xCA00 < declaredLength stream ∨ stream.length < 5 + declaredLength stream := by
  have hsize : cfg.prgTop - cfg.prgBottom + 1 = 0xCA00 := rfl
  simp only [construct, exists_error_ite, hsize, ne_eq, tag_iff, reduceCtorEq, exists_false, or_false]

/-- R344: a stream that passes the checks constructs the machine with its program loaded. -/
theorem construct_ok (hlen : 5 + declaredLength stream ≤ stream.length) (htag : stream.getD 0 0 = 0x10)
    (hpos : 1 ≤ declaredLength stream) (hfit : declaredLength stream ≤ 0xCA00) :
    construct stream = .ok (loadImage (programBytes stream)) := by
  have hsize : cfg.prgTop - cfg.prgBottom + 1 = 0xCA00 := rfl
  rw [construct, hsize, if_neg (by omega), if_neg (not_not.2 (tag_iff.2 htag)), if_neg (by omega), if_neg (by omega),
    if_neg (by omega)]

end

/-- Settles O57: the checks are the rule's five reasons, and the machine constructed is the reset state with the image
loaded. -/
theorem constructionLoadsTheImage : Obligations.ConstructionLoadsTheImage := by
  intro stream n hn
  by_cases short : stream.length < 5
  · exact ⟨fun _ => construct_fails_iff.2 (.inl short), fun hlen => by omega⟩
  obtain rfl : declaredLength stream = n := (declaredLength_eq (by omega)).trans hn.symm
  refine ⟨construct_fails_iff.2, fun hlen htag hpos hfit => ?ok⟩
  case ok =>
    have hlength := length_programBytes hlen
    refine ⟨_, construct_ok hlen htag hpos hfit, rfl, rfl, invariant_loadImage (by omega), fun a => ?_⟩
    rw [read_loadImage, hlength]
    split
    · next ha => exact getD_programBytes (by omega)
    · rfl

end Sys2Proof.Machine
end
